-- ==== Sys2Proof/Word.lean ====
section
/-! DEFINITION. The word types of the block (10_state.md R22, 20_memory.md R50, R51). -/

namespace Sys2Proof

/-- A byte of data memory (20_memory.md R50). -/
abbrev Byte := BitVec 8

/-- A destination element: a 16-bit two's complement word (20_memory.md R51). -/
abbrev Half := BitVec 16

/-- A register, a sample, a pointer-table entry or a command word (10_state.md R22, 20_memory.md R51). -/
abbrev Word := BitVec 32

end Sys2Proof
end

