-- ==== Sys2Proof/Config.lean ====
section
/-! DEFINITION. The implementation and platform parameters (00_scope.md R6, 20_memory.md R62). They are configuration,
not state (10_state.md R20): State carries them in one field that no step changes (log entry 1). -/

namespace Sys2Proof

/-- `IMPL`: the conversion strategy of the batch path (41_batch_convert.md R132, R141). -/
inductive Impl where
  | scalarOnly
  | vecModeSwitch
  | vecBias
deriving DecidableEq, Repr

/-- `BYTE_ORDER`: the byte order of every multi-byte element (20_memory.md R52). The spec takes `little`; that it is an argument
is 00_scope.md R6 and 93_implementation_defined.md U14, and what `big` means is D3 (log entry 28). -/
inductive ByteOrder where
  | little
  | big
deriving DecidableEq, Repr

/-- One range of the platform's data memory: what it admits (20_memory.md R50), and whether reading it has a side effect,
which puts it outside the contract (20_memory.md R74). -/
structure Region where
  base : Nat
  size : Nat
  readable : Bool
  writable : Bool
  sideEffects : Bool
deriving DecidableEq, Repr

/-- The parameters of 00_scope.md R6, and the platform's address map of 20_memory.md R62. Two parameters of R6 are no fields,
since other rules leave them one value: `CW` is 32 by 10_state.md R26 and R27, and `NAN_RESULT` is 32767 by 40_scalar_convert.md
R108 and 41_batch_convert.md R131 and R133 (log entries 29 and 13). -/
structure Config where
  /-- `W`, samples per batch block of `CVTM` and `CVTI`. -/
  width : Nat
  /-- `W2`, frames per batch block of `CVTI2`. -/
  width2 : Nat
  /-- `IMPL`. -/
  impl : Impl
  /-- `AW`, the address width in bits (20_memory.md R50, R63). -/
  addrWidth : Nat
  /-- `BYTE_ORDER`. -/
  byteOrder : ByteOrder
  /-- `STEREO_ALIGN`. -/
  stereoAlign : Nat
  /-- `REG_BASE[ctx]` for `ctx = 0 .. NCTX-1`; the length of the list is `NCTX`. -/
  regBase : List Nat
  /-- The contexts whose register block is also visible in the data memory's address range, each by itself (10_state.md R39,
  20_memory.md R62; log entry 21). -/
  regsMapped : List Nat
  /-- `RMODE_RESET`. -/
  rmodeReset : BitVec 2
  /-- The platform's data memory. -/
  regions : List Region
deriving DecidableEq, Repr

/-- `NCTX`, the number of contexts (10_state.md R21). -/
abbrev Config.nctx (g : Config) : Nat := g.regBase.length

/-- The register block of context `c` is visible in the data memory's address range (20_memory.md R62). -/
abbrev Config.mapped (g : Config) (c : Nat) : Bool := g.regsMapped.contains c

/-- The configuration of `State.reset`: the defaults of 00_scope.md R6; `IMPL` is DESIGN CHOICE (log entry 2), the address
map is DESIGN CHOICE (log entry 3). -/
def Config.default : Config where
  width := 8
  width2 := 4
  impl := .vecModeSwitch
  addrWidth := 32
  byteOrder := .little
  stereoAlign := 16
  regBase := [0x40000000]
  regsMapped := []
  rmodeReset := 0
  regions := [⟨0, 2 ^ 32, true, true, false⟩]

end Sys2Proof
end

