-- ==== Sys2Proof/Syntax.lean ====
section
/-! DEFINITION. The commands (00_scope.md R3) and the one command format `CMD32` (30_encoding.md R80). -/

namespace Sys2Proof

/-- The fields of a 32-bit command word (30_encoding.md R80): `RSV` is [31:9], `SC` is [8], `OPC` is [7:0]. -/
structure CmdWord where
  rsv : BitVec 23
  sc : Bool
  opc : BitVec 8
deriving DecidableEq, Repr

/-- The four commands, one constructor per row of the opcode table. `sc` is the path select bit (30_encoding.md R82), which
`CVTS` does not have. -/
inductive Instr where
  | cvts
  | cvtm (sc : Bool)
  | cvti (sc : Bool)
  | cvti2 (sc : Bool)
deriving DecidableEq, Repr

end Sys2Proof
end

