-- ==== Sys2Proof/WellFormed.lean ====
section
/-! DEFINITION. What a legal command word is (30_encoding.md R81, R82, R85) and what a legal configuration is
(00_scope.md R6, 20_memory.md R62). -/

namespace Sys2Proof

/-- A command word matches a row of 30_encoding.md R81: `RSV` zero, an opcode of the table, and `SC = 0` for `CVTS`. -/
def CmdWord.wellFormed (c : CmdWord) : Bool :=
  c.rsv == 0 && decide (1 ≤ c.opc.toNat) && decide (c.opc.toNat ≤ 4) && (c.opc != 1 || !c.sc)

/-- Every term of `Instr` spells a legal word: the one restriction, `SC = 0` for `CVTS` (30_encoding.md R82), is in the
type. -/
def Instr.wellFormed (i : Instr) : Bool :=
  match i with
  | .cvts => true
  | .cvtm _ => true
  | .cvti _ => true
  | .cvti2 _ => true

/-- The constraints of 00_scope.md R6 on the parameters and of 20_memory.md R62 on the register blocks (64 bytes, 64-byte
aligned, one per context, at different places). An address fits its 32-bit register or table entry (10_state.md R22,
20_memory.md R51; log entry 28), and a register block lies at such an address. -/
def Config.wellFormed (g : Config) : Bool :=
  decide (1 ≤ g.width) && decide (1 ≤ g.width2) &&
  decide (4 ≤ g.stereoAlign) && decide (g.stereoAlign = 2 ^ g.stereoAlign.log2) &&
  decide (g.addrWidth ≤ 32) && decide (1 ≤ g.nctx) &&
  g.regBase.all (fun b => b % 64 == 0 && decide (b + 64 ≤ 2 ^ g.addrWidth)) &&
  decide g.regBase.Nodup

end Sys2Proof
end

