-- ==== Sys2Proof/Decode.lean ====
section
/-! DEFINITION. Decoding and encoding command words (30_encoding.md R80 to R86), the byte order of a datum
(20_memory.md R52), and how bytes spell a word. -/

namespace Sys2Proof

/-- Why a word is no command (30_encoding.md R85), or why bytes are no word. -/
inductive Reserved where
  /-- `RSV != 0`. -/
  | rsvNotZero
  /-- `OPC = 0x00` or `OPC >= 0x05`. -/
  | opcode
  /-- `OPC = 0x01` and `SC = 1`. -/
  | scOnCvts
  /-- not the four bytes of one command word (30_encoding.md R86: a command is always one 32-bit word). -/
  | notOneWord
deriving DecidableEq, Repr

/-- The fields of a word (30_encoding.md R80). -/
def splitWord (w : Word) : CmdWord :=
  { rsv := w.extractLsb' 9 23, sc := w.getLsbD 8, opc := w.extractLsb' 0 8 }

/-- The word of given fields (30_encoding.md R80). -/
def CmdWord.join (c : CmdWord) : Word :=
  c.rsv ++ (BitVec.ofBool c.sc ++ c.opc)

/-- The decoder: it looks at all 32 bits of the word and at nothing else (44_host_access.md R182; 30_encoding.md R81,
R85). -/
def decode (w : Word) : Except Reserved Instr :=
  let c := splitWord w
  if c.rsv ≠ 0 then .error .rsvNotZero
  else match c.opc.toNat with
    | 1 => if c.sc then .error .scOnCvts else .ok .cvts
    | 2 => .ok (.cvtm c.sc)
    | 3 => .ok (.cvti c.sc)
    | 4 => .ok (.cvti2 c.sc)
    | _ => .error .opcode

/-- Where in a datum of `n` bytes the byte stands that holds bits `[8k+7:8k]`, `k < n`: at `k` in the little-endian order of
20_memory.md R52, at the mirrored place in the other (log entry 28). -/
def ByteOrder.place (o : ByteOrder) (n k : Nat) : Nat :=
  match o with
  | .little => k
  | .big => n - 1 - k

/-- The four bytes that spell a 32-bit register access or a command word, the least significant first. A register access is one
32-bit value (10_state.md R33), no element of a buffer, so that no `BYTE_ORDER` applies to it: DESIGN CHOICE (log entry 28). -/
def wordBytes (w : Word) : List Byte :=
  [w.extractLsb' 0 8, w.extractLsb' 8 8, w.extractLsb' 16 8, w.extractLsb' 24 8]

/-- The word that four bytes spell, the least significant first (log entry 28). -/
def bytesWord (bs : List Byte) : Option Word :=
  match bs with
  | [b0, b1, b2, b3] => some (b3 ++ (b2 ++ (b1 ++ b0)))
  | _ => none

/-- Decoding of any bytes: one command is one 32-bit word (30_encoding.md R86). -/
def decodeBytes (bs : List Byte) : Except Reserved Instr :=
  match bytesWord bs with
  | some w => decode w
  | none => .error .notOneWord

/-- The fields a command is written with (30_encoding.md R81). -/
def Instr.fields (i : Instr) : CmdWord :=
  match i with
  | .cvts => ⟨0, false, 1⟩
  | .cvtm sc => ⟨0, sc, 2⟩
  | .cvti sc => ⟨0, sc, 3⟩
  | .cvti2 sc => ⟨0, sc, 4⟩

/-- The encoder. -/
def encode (i : Instr) : Word :=
  i.fields.join

/-- One row of the opcode table of 30_encoding.md R81. -/
structure OpRow where
  matchBits : Word
  mask : Word
deriving DecidableEq, Repr

/-- A word selects a row with `(w AND mask) = match` (30_encoding.md R81). -/
def OpRow.selects (r : OpRow) (w : Word) : Bool :=
  (w &&& r.mask) == r.matchBits

/-- The row of each command (30_encoding.md R81). -/
def opRow (i : Instr) : OpRow :=
  match i with
  | .cvts => ⟨0x00000001, 0xFFFFFFFF⟩
  | .cvtm _ => ⟨0x00000002, 0xFFFFFEFF⟩
  | .cvti _ => ⟨0x00000003, 0xFFFFFEFF⟩
  | .cvti2 _ => ⟨0x00000004, 0xFFFFFEFF⟩

/-- The whole table of 30_encoding.md R81, in its order. -/
def opTable : List OpRow :=
  [opRow .cvts, opRow (.cvtm false), opRow (.cvti false), opRow (.cvti2 false)]

/-- What the decoder reads from a word numbered as spec/opcode_table.json numbers it. -/
def decodeTableWord (nbits w : Nat) : Option Instr :=
  match decodeBytes (wordBytes (BitVec.ofNat 32 (w % 2 ^ nbits))) with
  | .ok i => some i
  | .error _ => none

end Sys2Proof
end

