-- ==== Sys2Proof/Machine/State.lean ====
section
/-! DEFINITION. The state of the machine (10_state.md), the host actions it takes as input (44_host_access.md), the reasons a
step can stop (60_exceptions.md R191), and the state after reset (10_state.md R41). -/

namespace Sys2Proof.Machine

/-- The two address spaces (10_state.md R39). -/
inductive Space where
  | data
  | regs
deriving DecidableEq, Repr

/-- An access another agent makes while a command runs (20_memory.md R59(c), R68, 44_host_access.md R184; log entry 7). -/
inductive Access where
  /-- a read of `len` bytes of data memory at `addr` -/
  | read (addr len : Nat)
  /-- a write of `len` bytes of data memory at `addr` -/
  | write (addr len : Nat)
  /-- an access to the register block of context `ctx` -/
  | regs (ctx : Nat)
deriving DecidableEq, Repr

/-- What the outside world does to the machine (44_host_access.md R180 to R182, 70_reset_and_hazards.md R210, R211; log entry 4). -/
inductive HostAction where
  /-- a bus write of the bytes, the first at the lowest address; `SET` and command issue are a 32-bit value in `.regs`, spelt
  as four bytes, the least significant first (log entry 28) -/
  | write (space : Space) (addr : Nat) (bytes : List Byte)
  /-- a bus read of `len` bytes; `GET` is a 32-bit value in `.regs`, spelt likewise -/
  | read (space : Space) (addr len : Nat)
  /-- reset of all contexts -/
  | reset
  /-- reset that arrives while context `ctx` runs command word `word`, after the destination elements numbered in `landed`
  have been written (70_reset_and_hazards.md R211; log entry 12) -/
  | resetDuring (ctx : Nat) (word : Word) (landed : List Nat)
deriving DecidableEq, Repr

/-- A host action, and the accesses other agents make while its command runs (log entry 7). -/
structure Event where
  action : HostAction
  overlap : List Access
deriving DecidableEq, Repr

/-- The transient state of a running command (10_state.md R35, R37, R38). -/
structure Work where
  /-- `d0`, the working copy of `DEST` -/
  dest : Nat
  /-- the source bases: `s0`, or `a0` and `a1`, or the latched table `base[c]` (43_multichannel_interleave.md R167) -/
  bases : List Nat
  /-- `n`, the working copy of `COUNT` -/
  count : Nat
  /-- `SAVED_RMODE`, while a mode is saved -/
  savedRmode : Option (BitVec 2)
  /-- `i`, the frame index -/
  index : Nat
  /-- `c`, the channel index -/
  chan : Nat
  /-- `done_upto[c]` -/
  doneUpto : List Nat
  /-- the 32-bit lane registers, as the last block left them (log entry 30) -/
  lanes : List Word
  /-- the 16-bit lane results `d`, likewise -/
  results : List Half
deriving DecidableEq, Repr

/-- The state of one context: its register block (10_state.md R22) and its transient state. `CMD` stores nothing (R30) and
the reserved offsets hold nothing (R33). -/
structure Context where
  dest : Word
  src0 : Word
  src1 : Word
  count : Word
  channels : Word
  sample : Word
  result : Word
  /-- `STATUS.ILL` (10_state.md R31) -/
  ill : Bool
  /-- `RMODE.RM` (10_state.md R32) -/
  rmode : BitVec 2
  /-- the running command's transient state; `none` between commands (10_state.md R38) -/
  work : Option Work
deriving DecidableEq, Repr

/-- A context after reset (10_state.md R41). -/
def Context.reset (rmodeReset : BitVec 2) : Context where
  dest := 0
  src0 := 0
  src1 := 0
  count := 0
  channels := 0
  sample := 0
  result := 0
  ill := false
  rmode := rmodeReset
  work := none

/-- Data memory (20_memory.md R50): the bytes that differ from what an unlisted address reads as, by rising address. -/
abbrev Memory := List Host.Cell

/-- What a byte reads as that nothing has written. The spec leaves memory after reset unspecified (10_state.md R41):
DESIGN CHOICE, unsafe (log entry 9). -/
def unlistedByte : Byte := 0

/-- The canonical form: addresses strictly rising, no entry equal to what an unlisted address reads as. -/
abbrev Memory.wf (m : Memory) : Prop :=
  m.Pairwise (fun p q => p.1 < q.1) ∧ ∀ c ∈ m, c.2 ≠ unlistedByte

/-- The model-level outcome of a host action that has an end state (60_exceptions.md R191). -/
inductive Report where
  /-- `OK`, code 0 -/
  | ok
  /-- `ILLEGAL_CMD`, code 1, with the word written -/
  | illegalCmd (word : Word)
deriving DecidableEq, Repr

/-- The contract violations of 60_exceptions.md R191, raised by the meanings of `CVTM`, `CVTI` and `CVTI2` when a
precondition of 20_memory.md R59 is false. All are SAFE: the spec defines no end state (20_memory.md R60), so the machine
stops where the hardware goes on undefined. -/
inductive Fault where
  /-- code 2: `COUNT` negative. Safe. -/
  | cvCount
  /-- code 3: `CHANNELS <= 0` (`CVTI`). Safe. -/
  | cvChannels
  /-- code 4: alignment (20_memory.md R64, R73), with the offending address. Safe. -/
  | cvAlign (addr : Nat)
  /-- code 5: an element outside admitted memory (20_memory.md R50, R63, R74), with the first such address. Safe. -/
  | cvSize (addr : Nat)
  /-- code 6: two buffers share a byte (20_memory.md R59(b), R62). Safe. -/
  | cvOverlap
  /-- code 7: another agent interferes while the command runs (20_memory.md R68, 44_host_access.md R184). By an access to the
  context's registers the step raises it for `CVTS` too (log entry 27). Safe. -/
  | cvRace
deriving DecidableEq, Repr

/-- What the model refuses. -/
inductive Refusal where
  /-- raised by exec for an instruction that has no meaning yet. Safe. -/
  | notModelled (mnemonic : String)
  /-- code 8, `REG_ACCESS` (60_exceptions.md R191, 10_state.md R33): raised by a host access of register space that names no
  register block, and by one of either space that touches a block and is not a naturally aligned 32-bit access of it. Safe. -/
  | regAccess (addr len : Nat)
  /-- raised by a host access to data memory the platform does not admit (20_memory.md R50; log entry 10), with the first
  such address. Safe. -/
  | hostAccess (addr : Nat)
deriving DecidableEq, Repr

/-- The state of the machine (10_state.md R20): the contexts and the memory they share. The other fields are the model's
own: the configuration, and what the outside world does and is told (log entries 1, 4, 5, 7, 10, 11). -/
structure State where
  /-- the parameters; no step changes them (log entry 1) -/
  cfg : Config
  /-- contexts `0 .. NCTX-1` (10_state.md R21) -/
  ctxs : List Context
  /-- the data memory (20_memory.md R50) -/
  mem : Memory
  /-- the host actions still to come, oldest first (log entry 4) -/
  pending : List Event
  /-- the context whose `CMD` was written last, in whose context `exec` runs a command (log entry 5) -/
  issuer : Nat
  /-- the accesses other agents make during the present action's command (log entry 7) -/
  overlap : List Access
  /-- the bytes the last host read returned (log entry 10) -/
  busData : List Byte
  /-- the outcome of the last completed host action (log entry 11) -/
  report : Report
deriving DecidableEq, Repr

/-- The machine right after reset with configuration `g` and memory contents `m` (10_state.md R41, 70_reset_and_hazards.md
R210): no command is pending or running. What data memory holds then is unspecified, so it is an argument here
(93_implementation_defined.md U15). -/
def State.resetWith (g : Config) (m : Memory) : State where
  cfg := g
  ctxs := List.replicate g.nctx (Context.reset g.rmodeReset)
  mem := m
  pending := []
  issuer := 0
  overlap := []
  busData := []
  report := .ok

/-- The machine right after reset, with the default configuration (log entries 2 and 3) and a memory that lists nothing. -/
def State.reset : State := State.resetWith Config.default []

end Sys2Proof.Machine
end

