-- ==== Sys2Proof/Machine/Binary32.lean ====
section
/-! DEFINITION. The numeric functions: binary32 data (00_scope.md R9, R10), the primitives of 40_scalar_convert.md
R100 to R104, the conversion function `CVT` (R105) and the lane algorithm `BLANE` (41_batch_convert.md R131, R132). -/

namespace Sys2Proof.Machine

/-! ### Constants (00_scope.md R10) -/

/-- 32767.0 -/
def K32767 : Word := 0x46FFFE00
/-- 1.0 -/
def ONE : Word := 0x3F800000
/-- -1.0 -/
def MONE : Word := 0xBF800000
/-- 0.5 -/
def HALF : Word := 0x3F000000
def ABSMASK : Word := 0x7FFFFFFF
def SIGNMASK : Word := 0x80000000
/-- +infinity (00_scope.md R9: `e = 255`, `f = 0`). -/
def INF : Word := 0x7F800000
/-- The NaN that `mul32` returns. R102 says only "a NaN": PRESUMED, its payload is never used (log entry 17). -/
def QNAN : Word := 0x7FC00000
/-- `NAN_RESULT` (00_scope.md R6, 40_scalar_convert.md R108; log entry 13). -/
def nanResult : Int := 32767

/-! ### The datum (00_scope.md R9) -/

/-- The biased exponent `e = b[30:23]`. -/
def expField (b : Word) : Nat := (b.extractLsb' 23 8).toNat

/-- The fraction `f = b[22:0]`. -/
def fracField (b : Word) : Nat := (b.extractLsb' 0 23).toNat

/-- `|val(b)|` in units of `2^-149`, the grid on which every finite binary32 value lies: `f` if `e = 0`, else
`(2^23 + f) * 2^(e-1)` (00_scope.md R9). For an infinity the formula gives `2^277`, above every finite value, which is how
`lt` and `le` order it (40_scalar_convert.md R101). -/
def mag (b : Word) : Nat :=
  if expField b = 0 then fracField b else (2 ^ 23 + fracField b) * 2 ^ (expField b - 1)

/-- `val(b)` in units of `2^-149`. -/
def sval (b : Word) : Int :=
  if b.msb then -(mag b : Int) else (mag b : Int)

/-! ### Classification and comparison (40_scalar_convert.md R100, R101) -/

def isNaN (b : Word) : Bool := expField b == 255 && fracField b != 0
def isInf (b : Word) : Bool := expField b == 255 && fracField b == 0
def isZero (b : Word) : Bool := expField b == 0 && fracField b == 0
def isFinite (b : Word) : Bool := expField b != 255

/-- `a < b` on the extended reals; false if either is NaN. -/
def lt (a b : Word) : Bool := !isNaN a && !isNaN b && decide (sval a < sval b)

/-- `a <= b` on the extended reals; false if either is NaN. -/
def le (a b : Word) : Bool := !isNaN a && !isNaN b && decide (sval a ≤ sval b)

/-! ### Multiplication (40_scalar_convert.md R102) -/

/-- `n / 2^t` rounded to the nearest integer, ties to even. -/
def roundEven (n t : Nat) : Nat :=
  let q := n / 2 ^ t
  let r := n % 2 ^ t
  if 2 * r < 2 ^ t then q
  else if 2 ^ t < 2 * r then q + 1
  else if q % 2 = 0 then q else q + 1

/-- The binary32 grid step for a magnitude of `n` units of `2^-298` (the grid of exact products): `2^t` of those units,
with 24 significant bits for a normal result and never finer than the subnormal grid `2^-149`. -/
def gridExp (n : Nat) : Nat := max (n.log2 - 23) 149

/-- Bits [30:0] of the binary32 number nearest to the magnitude `n * 2^-298`, ties to the even fraction; a result that
reaches `2^128` is the infinity. The exponent field counts grid steps, so a significand that rounds up to `2^24` carries
into it. -/
def roundMag (n : Nat) : Nat :=
  min ((gridExp n - 149) * 2 ^ 23 + roundEven n (gridExp n)) 0x7F800000

/-- The word with sign `s` and bits [30:0] `m`. -/
def packSign (s : Bool) (m : Nat) : Word :=
  BitVec.ofNat 32 (if s then 2 ^ 31 + m else m)

/-- `mul32`: binary32 multiplication, rounded to nearest even whatever `RMODE` holds (R102, R109). Infinity times zero, which
R102 does not name and the block never forms, is a NaN: PRESUMED (log entry 17). -/
def mul32 (a b : Word) : Word :=
  if isNaN a || isNaN b then QNAN
  else if isInf a || isInf b then
    if isZero a || isZero b then QNAN else packSign (a.msb != b.msb) 0x7F800000
  else packSign (a.msb != b.msb) (roundMag (mag a * mag b))

/-! ### Conversion to an integer (40_scalar_convert.md R103, R104) -/

/-- `floor(v + 1/2)` for `v` in units of `2^-149`. -/
def floorHalf (v : Int) : Int := (v + 2 ^ 148) / 2 ^ 149

/-- `rha`: round half away from zero, on the exact value (R103). -/
def rha (y : Word) : Int :=
  if 0 ≤ sval y then floorHalf (sval y) else -floorHalf (-sval y)

/-- `int16` (R104; 00_scope.md R7). -/
def int16 (n : Int) : Half := BitVec.ofInt 16 n

/-! ### The conversion function (40_scalar_convert.md R105) -/

/-- `CVT`: the three-way test, below range first (R105, R107); a NaN gives `NAN_RESULT` (R108). -/
def cvt (b : Word) : Int :=
  if isNaN b then nanResult
  else if lt b MONE then -32767
  else if le b ONE then rha (mul32 b K32767)
  else 32767

/-! ### The lane algorithm (41_batch_convert.md R131, R132) -/

/-- Steps 1 to 4 of `BLANE`: scale, split into sign and magnitude, clamp the magnitude to 32767.0, recombine; a NaN lane is
forced to +32767.0 (R133). -/
def laneClamped (x : Word) : Word :=
  let p := mul32 x K32767
  let m := p &&& ABSMASK
  let m' := if isNaN m || lt K32767 m then K32767 else m
  let s := if isNaN m then 0 else p &&& SIGNMASK
  s ||| m'

/-- The bias compensation of `VEC_BIAS` (R132): add exactly 1/2 to the magnitude, truncate, apply the sign. -/
def biasTruncate (q : Word) : Int :=
  let n : Nat := (mag q + 2 ^ 148) / 2 ^ 149
  if q.msb then -(n : Int) else n

/-- Step 5 of `BLANE` under each strategy (R132): `VEC_MODE_SWITCH` converts to nearest with ties away from zero,
`VEC_BIAS` by bias and truncation. -/
def laneToInt (impl : Impl) (q : Word) : Int :=
  match impl with
  | .vecBias => biasTruncate q
  | .vecModeSwitch => rha q
  | .scalarOnly => rha q

/-- `BLANE`, the five steps. -/
def blane (impl : Impl) (x : Word) : Int := laneToInt impl (laneClamped x)

end Sys2Proof.Machine
end

