-- ==== Sys2Proof/Machine/Ops.lean ====
section
/-! DEFINITION. The operations over memory, contexts and outcomes that every meaning shares: byte and element accesses
(20_memory.md R50 to R52, R56), the platform's admission (R50, R62, R74), the context accessors (10_state.md R21), and the
life of a command's transient state (10_state.md R34, R38). Taking an exception and returning from one have no operation:
the hardware raises none (60_exceptions.md R190, R195, R196). -/

namespace Sys2Proof.Machine

/-! ### Bytes of memory -/

/-- One byte (20_memory.md R50). -/
def Memory.read (m : Memory) (a : Nat) : Byte :=
  match m with
  | [] => unlistedByte
  | (b, v) :: rest =>
    if a = b then v else if a < b then unlistedByte else Memory.read rest a

/-- One byte written, in canonical form. -/
def Memory.write (m : Memory) (a : Nat) (x : Byte) : Memory :=
  match m with
  | [] => if x = unlistedByte then [] else [(a, x)]
  | (b, v) :: rest =>
    if a < b then (if x = unlistedByte then (b, v) :: rest else (a, x) :: (b, v) :: rest)
    else if a = b then (if x = unlistedByte then rest else (a, x) :: rest)
    else (b, v) :: Memory.write rest a x

/-- The bytes at `a`, `a+1`, … in ascending order. -/
def Memory.readBytes (m : Memory) (a len : Nat) : List Byte :=
  (List.range len).map (fun k => m.read (a + k))

/-- Stores bytes at `a`, `a+1`, … -/
def Memory.writeBytes (m : Memory) (a : Nat) (bs : List Byte) : Memory :=
  match bs with
  | [] => m
  | b :: rest => Memory.writeBytes (m.write a b) (a + 1) rest

/-! ### Elements (20_memory.md R51, R52, R56) -/

/-- `MemRead(a, 4)` in `BYTE_ORDER` (00_scope.md R8, 20_memory.md R52). -/
def Memory.readWord (m : Memory) (o : ByteOrder) (a : Nat) : Word :=
  m.read (a + o.place 4 3) ++ (m.read (a + o.place 4 2) ++ (m.read (a + o.place 4 1) ++ m.read (a + o.place 4 0)))

/-- `MemRead(a, 2)` in `BYTE_ORDER`, of which no command has need: how a destination element reads (20_memory.md R51). -/
def Memory.readHalf (m : Memory) (o : ByteOrder) (a : Nat) : Half :=
  m.read (a + o.place 2 1) ++ m.read (a + o.place 2 0)

/-- `MemWrite(a, 2, v)` in `BYTE_ORDER` (00_scope.md R8, 20_memory.md R52). -/
def Memory.writeHalf (m : Memory) (o : ByteOrder) (a : Nat) (v : Half) : Memory :=
  (m.write (a + o.place 2 0) (v.extractLsb' 0 8)).write (a + o.place 2 1) (v.extractLsb' 8 8)

/-- The writes of a block, one element after the other (41_batch_convert.md R136). -/
def Memory.writeHalves (m : Memory) (o : ByteOrder) (l : List (Nat × Half)) : Memory :=
  l.foldl (fun acc p => acc.writeHalf o p.1 p.2) m

/-! ### What the platform admits (20_memory.md R50, R62, R63, R74) -/

/-- A range of bytes `base .. base+len-1`. -/
structure Span where
  base : Nat
  len : Nat
deriving DecidableEq, Repr

/-- The byte `a` lies in the span. -/
def Span.contains (r : Span) (a : Nat) : Bool := decide (r.base ≤ a) && decide (a < r.base + r.len)

/-- Two spans share a byte. -/
def Span.overlaps (r q : Span) : Bool :=
  decide (max r.base q.base < min (r.base + r.len) (q.base + q.len))

/-- The direction of an access (20_memory.md R50). -/
inductive Dir where
  | load
  | store
deriving DecidableEq, Repr

/-- The region admits the byte: ordinary memory without read side effects, with the permission. -/
def regionAdmits (r : Region) (d : Dir) (a : Nat) : Bool :=
  (Span.mk r.base r.size).contains a && !r.sideEffects &&
  (match d with
   | .load => r.readable
   | .store => r.writable)

/-- The platform admits the access to the byte `a`, which lies below `2^AW` (R50, R63). -/
def admits (g : Config) (d : Dir) (a : Nat) : Bool :=
  decide (a < 2 ^ g.addrWidth) && g.regions.any (fun r => regionAdmits r d a)

/-- The first byte of a span that the platform does not admit. -/
def firstUnadmitted (g : Config) (d : Dir) (r : Span) : Option Nat :=
  ((List.range r.len).map (fun k => r.base + k)).find? (fun a => !admits g d a)

/-- The 64-byte register block at a base (20_memory.md R62). -/
def regSpan (base : Nat) : Span := ⟨base, 64⟩

/-- The register block of context `c` (20_memory.md R62). -/
def ctxBlock (g : Config) (c : Nat) : Span := regSpan (g.regBase.getD c 0)

/-- The register blocks that lie in the data memory's address range (20_memory.md R62). -/
def mappedBlocks (g : Config) : List Span :=
  ((List.range g.nctx).filter g.mapped).map (ctxBlock g)

/-! ### Contexts (10_state.md R21) -/

/-- Context `c`. A number that names no context, which no step uses, reads as a context after reset (log entry 22). -/
def State.ctx (s : State) (c : Nat) : Context :=
  s.ctxs.getD c (Context.reset s.cfg.rmodeReset)

/-- Replaces context `c`. -/
def State.setCtx (s : State) (c : Nat) (k : Context) : State :=
  { s with ctxs := s.ctxs.set c k }

/-- The context whose command runs. -/
def State.cur (s : State) : Context := s.ctx s.issuer

/-- Replaces the context whose command runs. -/
def State.setCur (s : State) (k : Context) : State := s.setCtx s.issuer k

/-! ### Named updates, one field each -/

def State.withMem (s : State) (m : Memory) : State := { s with mem := m }
def State.withIssuer (s : State) (c : Nat) : State := { s with issuer := c }
def State.withBusData (s : State) (b : List Byte) : State := { s with busData := b }
def State.withReport (s : State) (r : Report) : State := { s with report := r }
def Context.withWork (k : Context) (w : Option Work) : Context := { k with work := w }
def Context.withRmode (k : Context) (r : BitVec 2) : Context := { k with rmode := r }
def Context.withIll (k : Context) (b : Bool) : Context := { k with ill := b }
def Context.withResult (k : Context) (v : Word) : Context := { k with result := v }
def Work.withSaved (w : Work) (r : Option (BitVec 2)) : Work := { w with savedRmode := r }

/-! ### The life of a running command (10_state.md R34, R35, R38) -/

/-- The working copies of a command that starts. -/
def Work.start (dest : Nat) (bases : List Nat) (count : Nat) : Work where
  dest := dest
  bases := bases
  count := count
  savedRmode := none
  index := 0
  chan := 0
  doneUpto := List.replicate bases.length 0
  lanes := []
  results := []

/-- A command starts: its operands are latched. -/
def State.startWork (s : State) (w : Work) : State :=
  s.setCur (s.cur.withWork (some w))

/-- One stage of a running command, over its working state and the memory. -/
def State.onWork (s : State) (stage : Work → Memory → Work × Memory) : State :=
  match s.cur.work with
  | none => s
  | some w =>
    (s.setCur (s.cur.withWork (some (stage w s.mem).1))).withMem (stage w s.mem).2

/-- A command completes: its transient state is gone. -/
def State.endWork (s : State) : State :=
  s.setCur (s.cur.withWork none)

/-- Reset of the registers of all contexts; memory is neither read nor written (70_reset_and_hazards.md R210). -/
def State.resetRegs (s : State) : State :=
  { s with ctxs := List.replicate s.cfg.nctx (Context.reset s.cfg.rmodeReset) }

end Sys2Proof.Machine
end

