-- ==== Sys2Proof/Machine/Flags.lean ====
section
/-! DEFINITION. The one flag, `STATUS.ILL` (10_state.md R31, R36), and the rounding-mode register `RMODE` with its save,
install and restore (10_state.md R32, 41_batch_convert.md R135). No command computes any other flag (R36). -/

namespace Sys2Proof.Machine

/-- `RM_NEAREST` (10_state.md R32). -/
def RM_NEAREST : BitVec 2 := 0
/-- `RM_TRUNC` (10_state.md R32). -/
def RM_TRUNC : BitVec 2 := 1

/-- What `STATUS` reads as: `zext_32(ILL)` (44_host_access.md R181). -/
def statusWord (k : Context) : Word := if k.ill then 1 else 0

/-- A write to `STATUS`: a one in bit 0 clears `ILL`, a zero changes nothing (10_state.md R31). -/
def Context.writeStatus (k : Context) (v : Word) : Context :=
  k.withIll (k.ill && !v.getLsbD 0)

/-- What `RMODE` reads as: `zext_32(RM)` (44_host_access.md R181). -/
def rmodeWord (k : Context) : Word := k.rmode.zeroExtend 32

/-- A write to `RMODE` keeps bits [1:0] (44_host_access.md R180). -/
def Context.writeRmode (k : Context) (v : Word) : Context :=
  k.withRmode (v.extractLsb' 0 2)

/-- Refusing a reserved command word: `STATUS.ILL` is set and nothing else changes (30_encoding.md R85, 60_exceptions.md
R192); the model records the word (R191). -/
def illegalCommand (word : Word) (s : State) : State :=
  (s.setCur (s.cur.withIll true)).withReport (.illegalCmd word)

/-- Whether a command with path select `sc` enters the batch path (30_encoding.md R82). -/
def usesBatch (g : Config) (sc : Bool) : Bool :=
  !sc && g.impl != .scalarOnly

/-- `SAVED_RMODE <- RMODE.RM ; RMODE.RM <- RM_NEAREST`, under `VEC_MODE_SWITCH` only (41_batch_convert.md R135). -/
def State.installMode (s : State) : State :=
  if s.cfg.impl = .vecModeSwitch then
    match s.cur.work with
    | none => s
    | some w =>
      s.setCur ((s.cur.withWork (some (w.withSaved (some s.cur.rmode)))).withRmode RM_NEAREST)
  else s

/-- `RMODE.RM <- SAVED_RMODE` (41_batch_convert.md R135). -/
def State.restoreMode (s : State) : State :=
  match s.cur.work with
  | none => s
  | some w =>
    match w.savedRmode with
    | none => s
    | some r => s.setCur ((s.cur.withWork (some (w.withSaved none))).withRmode r)

end Sys2Proof.Machine
end

