-- ==== Sys2Proof/Machine/Operands.lean ====
section
/-! DEFINITION. The registers by offset (10_state.md R22, R33), the buffers of the commands with their address formulas
(20_memory.md R53 to R55), and the preconditions with the fault each one answers with when it is false (20_memory.md R59,
60_exceptions.md R191, R194). -/

namespace Sys2Proof.Machine

/-! ### The register block (10_state.md R22) -/

/-- The registers of a block by name; `reserved` stands for the offsets 0x28 to 0x3C. -/
inductive Reg where
  | dest
  | src0
  | src1
  | count
  | channels
  | sample
  | result
  | cmd
  | status
  | rmode
  | reserved
deriving DecidableEq, Repr

/-- The register at an aligned offset below 0x40. -/
def Reg.ofOffset (off : Nat) : Reg :=
  match off with
  | 0x00 => .dest
  | 0x04 => .src0
  | 0x08 => .src1
  | 0x0C => .count
  | 0x10 => .channels
  | 0x14 => .sample
  | 0x18 => .result
  | 0x1C => .cmd
  | 0x20 => .status
  | 0x24 => .rmode
  | _ => .reserved

/-- The offset of a register; for `reserved` its first one. -/
def Reg.offset (r : Reg) : Nat :=
  match r with
  | .dest => 0x00
  | .src0 => 0x04
  | .src1 => 0x08
  | .count => 0x0C
  | .channels => 0x10
  | .sample => 0x14
  | .result => 0x18
  | .cmd => 0x1C
  | .status => 0x20
  | .rmode => 0x24
  | .reserved => 0x28

/-- `GET`: what a register reads as (44_host_access.md R181, 10_state.md R22). -/
def Context.readReg (k : Context) (r : Reg) : Word :=
  match r with
  | .dest => k.dest
  | .src0 => k.src0
  | .src1 => k.src1
  | .count => k.count
  | .channels => k.channels
  | .sample => k.sample
  | .result => k.result
  | .cmd => 0
  | .status => statusWord k
  | .rmode => rmodeWord k
  | .reserved => 0

/-- `SET`: the register write of 44_host_access.md R180, but for `CMD`, whose write issues a command (R182) and stores
nothing (10_state.md R30). -/
def Context.writeReg (k : Context) (r : Reg) (v : Word) : Context :=
  match r with
  | .dest => { k with dest := v }
  | .src0 => { k with src0 := v }
  | .src1 => { k with src1 := v }
  | .count => { k with count := v }
  | .channels => { k with channels := v }
  | .sample => { k with sample := v }
  | .result => k
  | .cmd => k
  | .status => k.writeStatus v
  | .rmode => k.writeRmode v
  | .reserved => k

/-! ### The buffers of a command (20_memory.md R53 to R55, R57) -/

/-- The buffers of a command: `C` source buffers of `count` samples, a destination of `C * count` elements, and for `CVTI`
its pointer table; and the byte order of their elements (20_memory.md R52). -/
structure Job where
  order : ByteOrder
  dest : Nat
  bases : List Nat
  count : Nat
  table : Option Span
deriving DecidableEq, Repr

/-- `C`, the number of channels. -/
abbrev Job.chans (j : Job) : Nat := j.bases.length

/-- The address of source element `f` of channel `c` (20_memory.md R53, R54). -/
def srcAddr (bases : List Nat) (c f : Nat) : Nat := bases.getD c 0 + 4 * f

/-- The address of the destination element of frame `f`, channel `c`, of `chans` channels (20_memory.md R53, R54). -/
def dstAddr (dest chans c f : Nat) : Nat := dest + 2 * (f * chans + c)

/-- The destination buffer, `2*C*COUNT` bytes. -/
def Job.destSpan (j : Job) : Span := ⟨j.dest, 2 * (j.chans * j.count)⟩

/-- The source buffers, `4*COUNT` bytes each. -/
def Job.srcSpans (j : Job) : List Span := j.bases.map (fun b => ⟨b, 4 * j.count⟩)

/-- The buffers a command only reads: the table and the sources. -/
def Job.readSpans (j : Job) : List Span := j.table.toList ++ j.srcSpans

/-- The buffers of which a command reads every byte: with `COUNT = 0` none, the table included (20_memory.md R57, R58). -/
def Job.loadSpans (j : Job) : List Span := if j.count = 0 then [] else j.readSpans

/-- Entry `c` of the pointer table at `t` (20_memory.md R55). -/
def tableEntry (m : Memory) (o : ByteOrder) (t c : Nat) : Nat := (m.readWord o (t + 4 * c)).toNat

/-- The table entries `base[0 .. C-1]`, each read once (43_multichannel_interleave.md R167). -/
def tableBases (m : Memory) (o : ByteOrder) (t chans : Nat) : List Nat :=
  (List.range chans).map (fun c => tableEntry m o t c)

/-- The buffers of `CVTM` (41_batch_convert.md R137). -/
def cvtmJob (s : State) : Job where
  order := s.cfg.byteOrder
  dest := s.cur.dest.toNat
  bases := [s.cur.src0.toNat]
  count := s.cur.count.toNat
  table := none

/-- The buffers of `CVTI2`: left, then right (42_stereo_interleave.md R151). -/
def cvti2Job (s : State) : Job where
  order := s.cfg.byteOrder
  dest := s.cur.dest.toNat
  bases := [s.cur.src0.toNat, s.cur.src1.toNat]
  count := s.cur.count.toNat
  table := none

/-- The buffers of `CVTI`. With `COUNT = 0` the table is not read (43_multichannel_interleave.md R167), and so no source has a
base, but it is a buffer of `4*CHANNELS` bytes all the same: DEDUCED from the buffer set of R166 (log entry 25). -/
def cvtiJob (s : State) : Job where
  order := s.cfg.byteOrder
  dest := s.cur.dest.toNat
  bases :=
    if s.cur.count = 0 then []
    else tableBases s.mem s.cfg.byteOrder s.cur.src0.toNat s.cur.channels.toNat
  count := s.cur.count.toNat
  table := some ⟨s.cur.src0.toNat, 4 * s.cur.channels.toNat⟩

/-! ### Preconditions and the faults of 60_exceptions.md R191 -/

/-- `CV_COUNT` (10_state.md R26). -/
def countFault (k : Context) : Option Fault :=
  if k.count.toInt < 0 then some .cvCount else none

/-- `CV_CHANNELS` (10_state.md R27). -/
def channelsFault (k : Context) : Option Fault :=
  if k.channels.toInt ≤ 0 then some .cvChannels else none

/-- An address that must be a multiple. -/
structure AlignReq where
  addr : Nat
  multiple : Nat
deriving DecidableEq, Repr

/-- The requirement holds. -/
def AlignReq.met (r : AlignReq) : Bool := r.addr % r.multiple == 0

/-- `CV_ALIGN`, with the first offending address of the list. -/
def alignFault (reqs : List AlignReq) : Option Fault :=
  (reqs.find? (fun r => !r.met)).map (fun r => .cvAlign r.addr)

/-- Natural alignment of `CVTM` (20_memory.md R64); the order is log entry 15's. -/
def cvtmAligns (s : State) : List AlignReq :=
  [⟨s.cur.dest.toNat, 2⟩, ⟨s.cur.src0.toNat, 4⟩]

/-- Natural and stereo alignment of `CVTI2` (20_memory.md R64, R73). The spec does not say which address `CV_ALIGN` names where
several break an alignment. DESIGN CHOICE (log entry 15): natural alignment of `DEST`, `SRC0`, `SRC1` first, and only where all
three keep it the stereo alignment of `DEST`, `SRC0`, `SRC1`; so an address that breaks natural alignment is named before a
`DEST` that breaks `STEREO_ALIGN` only. -/
def cvti2Aligns (s : State) : List AlignReq :=
  [⟨s.cur.dest.toNat, 2⟩, ⟨s.cur.src0.toNat, 4⟩, ⟨s.cur.src1.toNat, 4⟩,
   ⟨s.cur.dest.toNat, s.cfg.stereoAlign⟩, ⟨s.cur.src0.toNat, s.cfg.stereoAlign⟩,
   ⟨s.cur.src1.toNat, s.cfg.stereoAlign⟩]

/-- Whether table entry `c` at `t` can be read. -/
def entryAdmitted (g : Config) (t c : Nat) : Bool :=
  (firstUnadmitted g .load ⟨t + 4 * c, 4⟩).isNone

/-- Natural alignment of `CVTI`: the destination, the table, and every table entry that can be read (20_memory.md R64; log
entries 15 and 16). -/
def cvtiAligns (s : State) : List AlignReq :=
  [⟨s.cur.dest.toNat, 2⟩, ⟨s.cur.src0.toNat, 4⟩] ++
  (((List.range (cvtiJob s).chans).filter (fun c => entryAdmitted s.cfg s.cur.src0.toNat c)).map
    (fun c => ⟨tableEntry s.mem s.cfg.byteOrder s.cur.src0.toNat c, 4⟩))

/-- `CV_SIZE`, with the first byte the platform does not admit: table, then sources, then destination (20_memory.md R50,
R63, R74; log entry 15). -/
def sizeFault (g : Config) (j : Job) : Option Fault :=
  ((j.loadSpans.map (fun r => (Dir.load, r)) ++ [(Dir.store, j.destSpan)]).findSome?
    (fun u => firstUnadmitted g u.1 u.2)).map (fun a => .cvSize a)

/-- Some two of the spans share a byte. -/
def anyOverlap (l : List Span) : Bool :=
  match l with
  | [] => false
  | r :: rest => rest.any (fun q => r.overlaps q) || anyOverlap rest

/-- `CV_OVERLAP`: two of the command's buffers, or one of them and a register block, share a byte (20_memory.md R59(b),
R62). -/
def overlapFault (g : Config) (j : Job) : Option Fault :=
  if anyOverlap (j.destSpan :: j.readSpans) ||
     (j.destSpan :: j.readSpans).any (fun r => (mappedBlocks g).any (fun q => r.overlaps q))
  then some .cvOverlap else none

/-- Another agent's access touches the registers of context `c` (44_host_access.md R184): in register space, or through the
block's bytes where it is mapped into data memory (20_memory.md R62). -/
def Access.touchesRegs (a : Access) (g : Config) (c : Nat) : Bool :=
  match a with
  | .read addr len => g.mapped c && (ctxBlock g c).overlaps ⟨addr, len⟩
  | .write addr len => g.mapped c && (ctxBlock g c).overlaps ⟨addr, len⟩
  | .regs ctx => ctx == c

/-- Another agent's access writes a buffer of the command or reads its destination (20_memory.md R59(c), R68). -/
def Access.touchesBuffers (a : Access) (j : Job) : Bool :=
  match a with
  | .read addr len => j.destSpan.overlaps ⟨addr, len⟩
  | .write addr len => (j.destSpan :: j.readSpans).any (fun r => r.overlaps ⟨addr, len⟩)
  | .regs _ => false

/-- Another agent's access interferes with a memory command of context `c` (60_exceptions.md R191). -/
def Access.interferes (a : Access) (g : Config) (c : Nat) (j : Job) : Bool :=
  a.touchesRegs g c || a.touchesBuffers j

/-- `CV_RACE`. -/
def raceFault (s : State) (j : Job) : Option Fault :=
  if s.overlap.any (fun a => a.interferes s.cfg s.issuer j) then some .cvRace else none

/-- `CV_RACE` by the registers alone, which any running command of their context suffers (44_host_access.md R184; log entry
27). -/
def registerFault (s : State) : Option Fault :=
  if s.overlap.any (fun a => a.touchesRegs s.cfg s.issuer) then some .cvRace else none

/-- The checks on buffers that every memory command shares, in the order of 60_exceptions.md R194. -/
def jobFault (s : State) (aligns : List AlignReq) (j : Job) : Option Fault :=
  match alignFault aligns with
  | some f => some f
  | none =>
    match sizeFault s.cfg j with
    | some f => some f
    | none =>
      match overlapFault s.cfg j with
      | some f => some f
      | none => raceFault s j

/-- The first false precondition of `CVTM` (41_batch_convert.md R137, 60_exceptions.md R194). -/
def cvtmFault (s : State) : Option Fault :=
  match countFault s.cur with
  | some f => some f
  | none => jobFault s (cvtmAligns s) (cvtmJob s)

/-- The first false precondition of `CVTI2` (42_stereo_interleave.md R151, 60_exceptions.md R194). -/
def cvti2Fault (s : State) : Option Fault :=
  match countFault s.cur with
  | some f => some f
  | none => jobFault s (cvti2Aligns s) (cvti2Job s)

/-- The first false precondition of `CVTI` (43_multichannel_interleave.md R166, 60_exceptions.md R194). -/
def cvtiFault (s : State) : Option Fault :=
  match countFault s.cur with
  | some f => some f
  | none =>
    match channelsFault s.cur with
    | some f => some f
    | none => jobFault s (cvtiAligns s) (cvtiJob s)

end Sys2Proof.Machine
end

