-- ==== Sys2Proof/Machine/Convert.lean ====
section
/-! DEFINITION. The loops inside a command, shared by `CVTM`, `CVTI` and `CVTI2`: the batch loop and the scalar tail
(41_batch_convert.md R134), the conversion of one block (R131, R136) and of one sample, and the course of a command with
its rounding-mode discipline (R135). Each access order is that of the spec's pseudocode (20_memory.md R65; log entry 8). -/

namespace Sys2Proof.Machine

/-- The frames of a block of `width` frames that starts at `i`. -/
def blockFrames (i width : Nat) : List Nat := (List.range width).map (fun l => i + l)

/-- The batch loop: it runs while at least one full block of `width` frames remains (R134). `fuel` bounds the number of
blocks; the callers give it `COUNT`, which no loop with `width >= 1` exceeds. -/
def batchLoop (block : Work → Memory → Work × Memory) (width fuel : Nat) (w : Work) (m : Memory) : Work × Memory :=
  match fuel with
  | 0 => (w, m)
  | k + 1 =>
    if width ≤ w.count - w.index then
      batchLoop block width k (block w m).1 (block w m).2
    else (w, m)

/-- The scalar tail: it runs while a frame remains (R134). `fuel` bounds the number of frames; the callers give it `COUNT`. -/
def tailLoop (frame : Work → Memory → Work × Memory) (fuel : Nat) (w : Work) (m : Memory) : Work × Memory :=
  match fuel with
  | 0 => (w, m)
  | k + 1 =>
    if w.index < w.count then
      tailLoop frame k (frame w m).1 (frame w m).2
    else (w, m)

/-- One block of channel `w.chan`: all lanes are loaded, converted by `BLANE`, and stored to the channel's positions of the
destination (R131, R136, 43_multichannel_interleave.md R168). What the lane registers hold once the block is done is open
(10_state.md R37): the samples and the results, DESIGN CHOICE (log entry 30). -/
def channelBlock (o : ByteOrder) (impl : Impl) (width : Nat) (w : Work) (m : Memory) : Work × Memory :=
  let frames := blockFrames w.index width
  let x := frames.map (fun f => m.readWord o (srcAddr w.bases w.chan f))
  let d := x.map (fun b => int16 (blane impl b))
  let addrs := frames.map (fun f => dstAddr w.dest w.bases.length w.chan f)
  ({ w with lanes := x, results := d, index := w.index + width }, m.writeHalves o (addrs.zip d))

/-- Sample `f` of channel `c` through the scalar converter: `int16(CVT(..))` to its position of the destination. -/
def convertSample (o : ByteOrder) (w : Work) (c f : Nat) (m : Memory) : Memory :=
  m.writeHalf o (dstAddr w.dest w.bases.length c f) (int16 (cvt (m.readWord o (srcAddr w.bases c f))))

/-- One frame of channel `w.chan` on the scalar path. -/
def channelFrame (o : ByteOrder) (w : Work) (m : Memory) : Work × Memory :=
  ({ w with index := w.index + 1 }, convertSample o w w.chan w.index m)

/-- The course of a memory command: operands latched, the batch stage under the installed rounding mode if the command uses
the batch path (R135, R138, 30_encoding.md R82), the tail stage after the restore, and the transient state dropped. -/
def runCommand (sc : Bool) (w : Work) (batch tail : Work → Memory → Work × Memory) (s : State) : State :=
  let s1 := s.startWork w
  let s2 := if usesBatch s.cfg sc then (s1.installMode.onWork batch).restoreMode else s1
  (s2.onWork tail).endWork

end Sys2Proof.Machine
end

