-- ==== Sys2Proof/Machine/Batch.lean ====
section
/-! DEFINITION. The command `CVTM` (41_batch_convert.md R137). -/

namespace Sys2Proof.Machine

/-- The working copies of `CVTM`. -/
def cvtmWork (s : State) : Work :=
  Work.start (cvtmJob s).dest (cvtmJob s).bases (cvtmJob s).count

/-- `CVTM` / `CVTM.S`: full blocks of `W` samples on the batch path, the rest by the scalar converter (R134, R137, R138). -/
def execCvtm (sc : Bool) (s : State) : Host.Outcome State Fault Refusal :=
  match cvtmFault s with
  | some f => .fault f
  | none =>
    .next (runCommand sc (cvtmWork s)
      (fun w m => batchLoop (channelBlock s.cfg.byteOrder s.cfg.impl s.cfg.width) s.cfg.width w.count w m)
      (fun w m => tailLoop (channelFrame s.cfg.byteOrder) w.count w m) s)

end Sys2Proof.Machine
end

