-- ==== Sys2Proof/Machine/Multichannel.lean ====
section
/-! DEFINITION. The command `CVTI` (43_multichannel_interleave.md R166 to R168). -/

namespace Sys2Proof.Machine

/-- The working copies of `CVTI`, the latched table among them (R167). -/
def cvtiWork (s : State) : Work :=
  Work.start (cvtiJob s).dest (cvtiJob s).bases (cvtiJob s).count

/-- The full blocks of channel `c`; `done_upto[c]` records where they end (R166). -/
def channelBatch (o : ByteOrder) (impl : Impl) (width c : Nat) (w : Work) (m : Memory) : Work × Memory :=
  let r := batchLoop (channelBlock o impl width) width w.count { w with chan := c, index := 0 } m
  ({ r.1 with doneUpto := r.1.doneUpto.set c r.1.index }, r.2)

/-- The remaining frames of channel `c` on the scalar path, from `done_upto[c]` on (R166). -/
def channelTail (o : ByteOrder) (c : Nat) (w : Work) (m : Memory) : Work × Memory :=
  tailLoop (channelFrame o) w.count { w with chan := c, index := w.doneUpto.getD c 0 } m

/-- A stage run channel by channel (R168). -/
def overChannels (stage : Nat → Work → Memory → Work × Memory) (w : Work) (m : Memory) : Work × Memory :=
  (List.range w.bases.length).foldl (fun r c => stage c r.1 r.2) (w, m)

/-- `CVTI` / `CVTI.S`: all channels' full blocks under one save and restore of the mode, then all scalar tails (R166, R168).
It does not use the stereo fast path for `CHANNELS = 2` (R169). -/
def execCvti (sc : Bool) (s : State) : Host.Outcome State Fault Refusal :=
  match cvtiFault s with
  | some f => .fault f
  | none =>
    .next (runCommand sc (cvtiWork s)
      (overChannels (channelBatch s.cfg.byteOrder s.cfg.impl s.cfg.width)) (overChannels (channelTail s.cfg.byteOrder)) s)

end Sys2Proof.Machine
end

