-- ==== Sys2Proof/Machine/Scalar.lean ====
section
/-! DEFINITION. The command `CVTS` (40_scalar_convert.md R113). -/

namespace Sys2Proof.Machine

/-- `RESULT <- sext_32(int16(CVT(SAMPLE)))`. It has no precondition and touches no memory (R113). -/
def execCvts (s : State) : Host.Outcome State Fault Refusal :=
  .next (s.setCur (s.cur.withResult ((int16 (cvt s.cur.sample)).signExtend 32)))

end Sys2Proof.Machine
end

