-- ==== Sys2Proof/Machine/Stereo.lean ====
section
/-! DEFINITION. The command `CVTI2` (42_stereo_interleave.md R150 to R153). -/

namespace Sys2Proof.Machine

/-- The working copies of `CVTI2`. -/
def cvti2Work (s : State) : Work :=
  Work.start (cvti2Job s).dest (cvti2Job s).bases (cvti2Job s).count

/-- `q[2l] = left[l]`, `q[2l+1] = right[l]` (R152). -/
def interleave {α : Type} (left right : List α) : List α :=
  match left, right with
  | a :: as, b :: bs => a :: b :: interleave as bs
  | _, _ => []

/-- One block of `W2` frames: steps 1 to 4 of `BLANE` on each value, the interleave, then step 5, then contiguous writes to
destination elements `2i .. 2i + 2*W2 - 1` (R152). What the lane registers hold once the block is done is open (10_state.md
R37): the clamped words and the results, DESIGN CHOICE (log entry 30). -/
def stereoBlock (o : ByteOrder) (impl : Impl) (width : Nat) (w : Work) (m : Memory) : Work × Memory :=
  let frames := blockFrames w.index width
  let xL := frames.map (fun f => m.readWord o (srcAddr w.bases 0 f))
  let xR := frames.map (fun f => m.readWord o (srcAddr w.bases 1 f))
  let q := interleave (xL.map laneClamped) (xR.map laneClamped)
  let d := q.map (fun v => int16 (laneToInt impl v))
  let addrs := (List.range (2 * width)).map (fun k => w.dest + 2 * (2 * w.index + k))
  ({ w with lanes := q, results := d, index := w.index + width }, m.writeHalves o (addrs.zip d))

/-- One frame on the scalar path, left then right (R153). -/
def stereoFrame (o : ByteOrder) (w : Work) (m : Memory) : Work × Memory :=
  ({ w with index := w.index + 1 }, convertSample o w 1 w.index (convertSample o w 0 w.index m))

/-- `CVTI2` / `CVTI2.S`: full blocks of `W2` frames on the batch path, the rest by the scalar converter (R151, R153). -/
def execCvti2 (sc : Bool) (s : State) : Host.Outcome State Fault Refusal :=
  match cvti2Fault s with
  | some f => .fault f
  | none =>
    .next (runCommand sc (cvti2Work s)
      (fun w m => batchLoop (stereoBlock s.cfg.byteOrder s.cfg.impl s.cfg.width2) s.cfg.width2 w.count w m)
      (fun w m => tailLoop (stereoFrame s.cfg.byteOrder) w.count w m) s)

end Sys2Proof.Machine
end

