-- ==== Sys2Proof/Machine/Dispatch.lean ====
section
/-! DEFINITION. The meaning of each command, executed in the context `issuer` (44_host_access.md R182). -/

namespace Sys2Proof.Machine

def exec (i : Instr) (s : State) : Host.Outcome State Fault Refusal :=
  match i with
  | .cvts => Sys2Proof.Machine.execCvts s
  | .cvtm sc => Sys2Proof.Machine.execCvtm sc s
  | .cvti sc => Sys2Proof.Machine.execCvti sc s
  | .cvti2 sc => Sys2Proof.Machine.execCvti2 sc s

end Sys2Proof.Machine
end

