-- ==== Sys2Proof/Machine/Issue.lean ====
section
/-! DEFINITION. The host actions: register access (10_state.md R33, 44_host_access.md R180, R181), command issue (R182),
host access to data memory (20_memory.md R52, R67), reset (70_reset_and_hazards.md R210) and reset during a command
(R211). -/

namespace Sys2Proof.Machine

/-! ### Command issue -/

/-- A command runs in context `issuer`. No command completes while another agent touches the registers of its context
(44_host_access.md R184): the meanings of the memory commands say so in the order of 60_exceptions.md R194, and `CVTS`, which
has no precondition of its own (40_scalar_convert.md R113), is held to it here (log entry 27). -/
def runIssued (i : Instr) (s : State) : Host.Outcome State Fault Refusal :=
  match exec i s with
  | .fault f => .fault f
  | .refused r => .refused r
  | .next t =>
    match registerFault s with
    | some f => .fault f
    | none => .next t

/-- `issue(w)` in context `issuer`: a legal word executes its command, any other sets `STATUS.ILL` and does nothing else
(44_host_access.md R182). -/
def issue (word : Word) (s : State) : Host.Outcome State Fault Refusal :=
  match decode word with
  | .ok i => runIssued i s
  | .error _ => .next (illegalCommand word s)

/-! ### Register access -/

/-- The context whose register block holds the address, and the offset in it (10_state.md R22). -/
def blockAt (g : Config) (addr : Nat) : Option (Nat × Nat) :=
  (g.regBase.findIdx? (fun b => (regSpan b).contains addr)).map (fun c => (c, addr - g.regBase.getD c 0))

/-- Which register block a host access reaches: in register space the one at the address; in data memory the same, if the
platform maps that block there (10_state.md R39, 20_memory.md R62; log entry 21). -/
def route (g : Config) (space : Space) (addr : Nat) : Option (Nat × Nat) :=
  match space with
  | .regs => blockAt g addr
  | .data => (blockAt g addr).filter (fun p => g.mapped p.1)

/-- A 32-bit write of `v` to register `r` of context `c` (44_host_access.md R180). -/
def writeReg (c : Nat) (r : Reg) (v : Word) (s : State) : Host.Outcome State Fault Refusal :=
  match r with
  | .cmd => issue v (s.withIssuer c)
  | .dest | .src0 | .src1 | .count | .channels | .sample | .result | .status | .rmode | .reserved =>
    .next (s.setCtx c ((s.ctx c).writeReg r v))

/-- An access to a register block at offset `off`: anything but a naturally aligned 32-bit access is refused (10_state.md
R33). -/
def regAccessOk (off len : Nat) : Bool := len == 4 && off % 4 == 0

/-! ### Host access to data memory -/

/-- A host access to data memory that starts in no mapped register block is refused: as an unsupported register access if it
runs into one (10_state.md R33, 60_exceptions.md R191), and otherwise if the platform does not admit each of its bytes
(20_memory.md R50; log entry 10). -/
def hostRefusal (g : Config) (d : Dir) (addr len : Nat) : Option Refusal :=
  if (mappedBlocks g).any (fun r => r.overlaps ⟨addr, len⟩) then some (.regAccess addr len)
  else (firstUnadmitted g d ⟨addr, len⟩).map .hostAccess

/-! ### The actions -/

/-- A bus write by the host. -/
def hostWrite (space : Space) (addr : Nat) (bytes : List Byte) (s : State) : Host.Outcome State Fault Refusal :=
  match route s.cfg space addr with
  | some (c, off) =>
    match bytesWord bytes with
    | some v =>
      if regAccessOk off bytes.length then writeReg c (Reg.ofOffset off) v s
      else .refused (.regAccess addr bytes.length)
    | none => .refused (.regAccess addr bytes.length)
  | none =>
    match space with
    | .regs => .refused (.regAccess addr bytes.length)
    | .data =>
      match hostRefusal s.cfg .store addr bytes.length with
      | some r => .refused r
      | none => .next (s.withMem (s.mem.writeBytes addr bytes))

/-- A bus read by the host: no side effect but the bytes it returns (44_host_access.md R181). -/
def hostRead (space : Space) (addr len : Nat) (s : State) : Host.Outcome State Fault Refusal :=
  match route s.cfg space addr with
  | some (c, off) =>
    if regAccessOk off len then .next (s.withBusData (wordBytes ((s.ctx c).readReg (Reg.ofOffset off))))
    else .refused (.regAccess addr len)
  | none =>
    match space with
    | .regs => .refused (.regAccess addr len)
    | .data =>
      match hostRefusal s.cfg .load addr len with
      | some r => .refused r
      | none => .next (s.withBusData (s.mem.readBytes addr len))

/-- The buffers of a command, if it has any. -/
def jobOf (i : Instr) (s : State) : Option Job :=
  match i with
  | .cvts => none
  | .cvtm _ => some (cvtmJob s)
  | .cvti _ => some (cvtiJob s)
  | .cvti2 _ => some (cvti2Job s)

/-- The first false precondition of a command. -/
def faultOf (i : Instr) (s : State) : Option Fault :=
  match i with
  | .cvts => none
  | .cvtm _ => cvtmFault s
  | .cvti _ => cvtiFault s
  | .cvti2 _ => cvti2Fault s

/-- The destination elements of a job that are numbered in `landed` hold their new value, the others their old one
(70_reset_and_hazards.md R211); element `e` is frame `e / C` of channel `e % C` (20_memory.md R54). -/
def landElements (j : Job) (landed : List Nat) (m : Memory) : Memory :=
  m.writeHalves j.order ((landed.filter (fun e => decide (e < j.chans * j.count))).map (fun e =>
    (j.dest + 2 * e, int16 (cvt (m.readWord j.order (srcAddr j.bases (e % j.chans) (e / j.chans)))))))

/-- Reset while context `issuer` runs the command of `word`: the command is abandoned with the elements of `landed` written,
and all registers take their reset values (70_reset_and_hazards.md R211). The command must have kept its contract, and its
registers to itself, until then (log entries 12 and 27). -/
def abandon (word : Word) (landed : List Nat) (s : State) : Host.Outcome State Fault Refusal :=
  match decode word with
  | .error _ => .next s.resetRegs
  | .ok i =>
    match (faultOf i s).or (registerFault s) with
    | some f => .fault f
    | none =>
      match jobOf i s with
      | none => .next s.resetRegs
      | some j => .next (s.withMem (landElements j landed s.mem)).resetRegs

/-- One host action, from the state in which it is taken. -/
def perform (a : HostAction) (s : State) : Host.Outcome State Fault Refusal :=
  match a with
  | .write space addr bytes => hostWrite space addr bytes s
  | .read space addr len => hostRead space addr len s
  | .reset => .next s.resetRegs
  | .resetDuring ctx word landed =>
    if ctx < s.ctxs.length then abandon word landed (s.withIssuer ctx)
    else .refused (.regAccess (s.cfg.regBase.getD ctx 0) 4)

/-- The state in which the event at the head of the queue is performed: it leaves the queue, its overlapping accesses are in
place, and its outcome is `OK` unless the action says otherwise (60_exceptions.md R191). -/
def State.takeEvent (s : State) (e : Event) (rest : List Event) : State :=
  { s with pending := rest, overlap := e.overlap, report := .ok }

/-- The word of an instruction whose bits are `w`, with the bits above `nbits` zero. -/
def tableWord (nbits w : Nat) : Word := BitVec.ofNat 32 (w % 2 ^ nbits)

/-- The address of `CMD` of context 0 (10_state.md R22). -/
def cmdAddr0 (g : Config) : Nat := g.regBase.getD 0 0 + Reg.cmd.offset

end Sys2Proof.Machine
end

