-- ==== Sys2Proof/Machine/Step.lean ====
section
/-! DEFINITION. One step: the next host action (44_host_access.md, log entry 4). A command is the whole of its `CMD` write
(R183(d), log entry 6). -/

namespace Sys2Proof.Machine

/-- The next host action is performed; with none left the machine idles (44_host_access.md R186, 60_exceptions.md R200). -/
def step (s : State) : Host.Outcome State Fault Refusal :=
  match s.pending with
  | [] => .next s
  | e :: rest => perform e.action (s.takeEvent e rest)

/-- `s` with a write of the word to `CMD` of context 0 as the next host action: the block fetches no instruction, its
commands are what the host writes (10_state.md R35, 20_memory.md R71). -/
def State.withFetchWord (s : State) (nbits w : Nat) : State :=
  { s with pending := ⟨.write .regs (cmdAddr0 s.cfg) (wordBytes (tableWord nbits w)), []⟩ :: s.pending }

end Sys2Proof.Machine
end

