-- ==== Sys2Proof/Machine/Assembler.lean ====
section
/-! DEFINITION. The assembler notation of 30_encoding.md R87 and its pseudo-instructions (R88), as the host actions they
stand for; context `c` is the notation's `@ctx`. -/

namespace Sys2Proof.Machine

/-- The byte address of register `r` of context `c` (10_state.md R22). -/
def regAddr (g : Config) (c : Nat) (r : Reg) : Nat := g.regBase.getD c 0 + r.offset

/-- `SET <reg>, <value>`: a 32-bit bus write (R87, 44_host_access.md R180). -/
def asmSet (g : Config) (c : Nat) (r : Reg) (v : Word) : Event :=
  ⟨.write .regs (regAddr g c r) (wordBytes v), []⟩

/-- `GET <reg>`: a 32-bit bus read (R87, 44_host_access.md R181). -/
def asmGet (g : Config) (c : Nat) (r : Reg) : Event :=
  ⟨.read .regs (regAddr g c r) 4, []⟩

/-- `CMDW <word>`: an arbitrary word written to `CMD` (R87). -/
def asmCmdw (g : Config) (c : Nat) (w : Word) : Event := asmSet g c .cmd w

/-- `CVTS`, `CVTM`, `CVTM.S`, …: the command word written to `CMD` (R87). -/
def asmCommand (g : Config) (c : Nat) (i : Instr) : Event := asmCmdw g c (encode i)

/-- `CONVERT_MONO dest, src, count`, with the `.S` form for `sc` (R88). -/
def asmConvertMono (g : Config) (c : Nat) (sc : Bool) (dest src count : Word) : List Event :=
  [asmSet g c .dest dest, asmSet g c .src0 src, asmSet g c .count count, asmCommand g c (.cvtm sc)]

/-- `CONVERT_INTERLEAVED dest, table, channels, count`, with the `.S` form for `sc` (R88). -/
def asmConvertInterleaved (g : Config) (c : Nat) (sc : Bool) (dest table channels count : Word) : List Event :=
  [asmSet g c .dest dest, asmSet g c .src0 table, asmSet g c .channels channels, asmSet g c .count count,
   asmCommand g c (.cvti sc)]

/-- `CONVERT_INTERLEAVED_STEREO dest, left, right, count`, with the `.S` form for `sc` (R88). -/
def asmConvertInterleavedStereo (g : Config) (c : Nat) (sc : Bool) (dest left right count : Word) : List Event :=
  [asmSet g c .dest dest, asmSet g c .src0 left, asmSet g c .src1 right, asmSet g c .count count,
   asmCommand g c (.cvti2 sc)]

/-- `CONVERT_SAMPLE bits`, with the `.S` form for `sc` (R88). `.S` sets `SC = 1` (R87) and `CVTS` has no such word, so that
form writes the reserved word 0x00000101, which the block refuses (R81, R85): DEDUCED. It keeps the final
`GET RESULT` of the table of R88, whose text has a `.S` form end in the `.S` command: DESIGN CHOICE (both log entry 26). -/
def asmConvertSample (g : Config) (c : Nat) (sc : Bool) (bits : Word) : List Event :=
  [asmSet g c .sample bits, asmCmdw g c { Instr.cvts.fields with sc := sc }.join, asmGet g c .result]

end Sys2Proof.Machine
end

