-- ==== Sys2Proof/Safety.lean ====
section
/-! DEFINITION. The terms claims are stated in: the outcome codes of 60_exceptions.md R191, the preconditions of
20_memory.md R59 read as the spec words them, a context that is ready for a command, and the invariant of the machine. -/

namespace Sys2Proof.Machine

/-! ### Outcome codes (60_exceptions.md R191) -/

def Report.code (r : Report) : Nat :=
  match r with
  | .ok => 0
  | .illegalCmd _ => 1

def Fault.code (f : Fault) : Nat :=
  match f with
  | .cvCount => 2
  | .cvChannels => 3
  | .cvAlign _ => 4
  | .cvSize _ => 5
  | .cvOverlap => 6
  | .cvRace => 7

/-- The spec's code of a refusal; `none` for the model's own (log entry 10). -/
def Refusal.code (r : Refusal) : Option Nat :=
  match r with
  | .regAccess _ _ => some 8
  | _ => none

/-! ### The contract of a command (20_memory.md R59) -/

/-- No byte of `r` lies in `q`. -/
abbrev Span.disjoint (r q : Span) : Prop := ∀ k < r.len, q.contains (r.base + k) = false

/-- The platform admits the access to every byte of `r`. -/
abbrev Span.admitted (g : Config) (d : Dir) (r : Span) : Prop := ∀ k < r.len, admits g d (r.base + k) = true

/-- R59(a): every element the command accesses lies in admitted memory (R57, R58). -/
abbrev Job.sized (g : Config) (j : Job) : Prop :=
  (∀ r ∈ j.loadSpans, r.admitted g .load) ∧ j.destSpan.admitted g .store

/-- R59(b), R62: destination, sources and table are pairwise disjoint, and none meets a mapped register block. -/
abbrev Job.separate (g : Config) (j : Job) : Prop :=
  (j.destSpan :: j.readSpans).Pairwise Span.disjoint ∧
  ∀ r ∈ j.destSpan :: j.readSpans, ∀ q ∈ mappedBlocks g, r.disjoint q

/-- R59(c), 44_host_access.md R184: no other agent writes a buffer, reads the destination, or touches the context's
registers. -/
abbrev Job.stable (s : State) (j : Job) : Prop :=
  ∀ a ∈ s.overlap, a.interferes s.cfg s.issuer j = false

/-- R59(a) to (c). -/
abbrev Job.contract (s : State) (j : Job) : Prop :=
  j.sized s.cfg ∧ j.separate s.cfg ∧ j.stable s

/-- The preconditions of `CVTM` (41_batch_convert.md R137): R59, `COUNT >= 0`, natural alignment. -/
abbrev CvtmPre (s : State) : Prop :=
  0 ≤ s.cur.count.toInt ∧ s.cur.dest.toNat % 2 = 0 ∧ s.cur.src0.toNat % 4 = 0 ∧ (cvtmJob s).contract s

/-- The preconditions of `CVTI2` (42_stereo_interleave.md R151): R59, `COUNT >= 0`, natural and stereo alignment. -/
abbrev Cvti2Pre (s : State) : Prop :=
  0 ≤ s.cur.count.toInt ∧
  s.cur.dest.toNat % 2 = 0 ∧ s.cur.src0.toNat % 4 = 0 ∧ s.cur.src1.toNat % 4 = 0 ∧
  s.cur.dest.toNat % s.cfg.stereoAlign = 0 ∧ s.cur.src0.toNat % s.cfg.stereoAlign = 0 ∧
  s.cur.src1.toNat % s.cfg.stereoAlign = 0 ∧ (cvti2Job s).contract s

/-- The preconditions of `CVTI` (43_multichannel_interleave.md R166): R59, `COUNT >= 0`, `CHANNELS >= 1`, natural alignment of
the destination, the table and every channel's buffer. -/
abbrev CvtiPre (s : State) : Prop :=
  0 ≤ s.cur.count.toInt ∧ 0 < s.cur.channels.toInt ∧
  s.cur.dest.toNat % 2 = 0 ∧ s.cur.src0.toNat % 4 = 0 ∧ (∀ b ∈ (cvtiJob s).bases, b % 4 = 0) ∧
  (cvtiJob s).contract s

/-- The preconditions of a command; `CVTS` has none (40_scalar_convert.md R113). -/
abbrev Pre (i : Instr) (s : State) : Prop :=
  match i with
  | .cvts => True
  | .cvtm _ => CvtmPre s
  | .cvti _ => CvtiPre s
  | .cvti2 _ => Cvti2Pre s

/-! ### States a command starts from, and the invariant -/

/-- The issuing context exists and runs no command (44_host_access.md R183). -/
abbrev Ready (s : State) : Prop := s.issuer < s.ctxs.length ∧ s.cur.work = none

/-- A context between commands: no transient state (10_state.md R38), and `RESULT` one of the words R29 allows. -/
abbrev Context.settled (k : Context) : Prop :=
  k.work = none ∧ -32767 ≤ k.result.toInt ∧ k.result.toInt ≤ 32767

/-- The invariant of the machine: memory is canonical and lies in the address space (20_memory.md R50), there are `NCTX`
contexts (10_state.md R21), and every one is settled. -/
abbrev Inv (s : State) : Prop :=
  s.mem.wf ∧ (∀ c ∈ s.mem, c.1 < 2 ^ s.cfg.addrWidth) ∧ s.ctxs.length = s.cfg.nctx ∧ ∀ k ∈ s.ctxs, k.settled

/-- The state with other values of the parameters no end state depends on, `IMPL`, `W` and `W2` (00_scope.md R6). -/
def State.withParams (s : State) (impl : Impl) (width width2 : Nat) : State :=
  { s with cfg := { s.cfg with impl := impl, width := width, width2 := width2 } }

/-- A step that is no contract violation: what every claim about a run takes as a premise (60_exceptions.md R191). -/
def SafeStep (s : State) : Prop := ∀ f, step s ≠ .fault f

end Sys2Proof.Machine
end

