-- ==== Sys2Proof/Certificates/Slice0/Obligations.lean ====
section
/-! DEFINITION. The statements for the provers. Addresses and counts are written out from the spec's formulas; `mag` and
`sval` give a binary32 value in units of `2^-149` (00_scope.md R9), so that `2^149` stands for 1.0. -/

open Sys2Proof Sys2Proof.Machine

/-! ### Encoding -/

/-- 30_encoding.md R81, R85, 95_test_vectors.md V-H5: the seven legal words, and reserved ones with their reasons. -/
def Obligations.CommandWordsDecode : Prop :=
  decode 0x00000001 = .ok .cvts ∧
  decode 0x00000002 = .ok (.cvtm false) ∧ decode 0x00000102 = .ok (.cvtm true) ∧
  decode 0x00000003 = .ok (.cvti false) ∧ decode 0x00000103 = .ok (.cvti true) ∧
  decode 0x00000004 = .ok (.cvti2 false) ∧ decode 0x00000104 = .ok (.cvti2 true) ∧
  decode 0x00000000 = .error .opcode ∧ decode 0x00000005 = .error .opcode ∧ decode 0x000000FF = .error .opcode ∧
  decode 0x00000101 = .error .scOnCvts ∧
  decode 0x00000202 = .error .rsvNotZero ∧ decode 0x80000002 = .error .rsvNotZero ∧ decode 0xFFFFFFFF = .error .rsvNotZero

/-- 30_encoding.md R80, R81: a word decodes to a command exactly when it is that command's encoding, for all 2^32 words
and every command with either value of `SC`. -/
def Obligations.DecodeInvertsEncode : Prop :=
  ∀ (w : Word) (i : Instr), decode w = .ok i ↔ w = encode i

/-- 30_encoding.md R81: a word selects the row with `(w AND mask) = match`, `SC` is bit 8, the opcodes 0x00 and 0x05 to
0xFF are reserved, and at most one row matches any word. -/
def Obligations.OpcodeTableSelects : Prop :=
  (∀ w : Word, decode w = .ok .cvts ↔ w &&& 0xFFFFFFFF = 0x00000001) ∧
  (∀ (w : Word) (sc : Bool), decode w = .ok (.cvtm sc) ↔ w &&& 0xFFFFFEFF = 0x00000002 ∧ sc = w.getLsbD 8) ∧
  (∀ (w : Word) (sc : Bool), decode w = .ok (.cvti sc) ↔ w &&& 0xFFFFFEFF = 0x00000003 ∧ sc = w.getLsbD 8) ∧
  (∀ (w : Word) (sc : Bool), decode w = .ok (.cvti2 sc) ↔ w &&& 0xFFFFFEFF = 0x00000004 ∧ sc = w.getLsbD 8) ∧
  (∀ w : Word, w.toNat % 2 ^ 8 = 0 ∨ 5 ≤ w.toNat % 2 ^ 8 → ∃ e, decode w = .error e) ∧
  (∀ (w : Word) (r r' : OpRow), r ∈ opTable → r' ∈ opTable → r.selects w = true → r'.selects w = true → r = r')

/-- 30_encoding.md R85: the reserved words are those with `RSV != 0`, `OPC = 0`, `OPC >= 5`, or `OPC = 1` and `SC = 1`;
such a word sets `STATUS.ILL` of its context, is recorded with its outcome by the model (log entry 11), and changes
nothing else. -/
def Obligations.ReservedWordsRefused : Prop :=
  ∀ (w : Word),
    ((∃ e, decode w = .error e) ↔
      (w.toNat / 2 ^ 9 ≠ 0 ∨ w.toNat % 2 ^ 8 = 0 ∨ 5 ≤ w.toNat % 2 ^ 8 ∨
        (w.toNat % 2 ^ 8 = 1 ∧ w.getLsbD 8 = true))) ∧
    ∀ (s : State) (e : Reserved), s.issuer < s.ctxs.length → decode w = .error e →
      ∃ t, issue w s = .next t ∧ t.report = .illegalCmd w ∧
        t.cur = s.cur.withIll true ∧ (∀ c, c ≠ s.issuer → t.ctx c = s.ctx c) ∧
        t.mem = s.mem ∧ t.cfg = s.cfg ∧ t.pending = s.pending ∧ t.issuer = s.issuer ∧ t.overlap = s.overlap ∧
        t.busData = s.busData

/-! ### The register block -/

/-- 10_state.md R22: the byte address of a register is `REG_BASE[ctx] + offset`, and no other address of register space
reaches it. In data memory the address is the same, for the contexts whose block the platform maps there: the model's choice
(log entry 21). -/
def Obligations.RegisterBlockAddress : Prop :=
  ∀ (g : Config), g.wellFormed = true → ∀ (space : Space) (addr c off : Nat),
    route g space addr = some (c, off) ↔
      c < g.nctx ∧ off < 64 ∧ addr = g.regBase.getD c 0 + off ∧ (space = .data → g.mapped c = true)

/-- 44_host_access.md R180: a 32-bit host write to each offset of a context's block. `DEST` to `SAMPLE` take the value,
`RMODE` keeps bits [1:0], a one in bit 0 of `STATUS` clears `ILL`, `RESULT` and the reserved offsets ignore it, `CMD`
issues it. That the host action spells the value as four bytes, the least significant first under either `BYTE_ORDER`, is the
model's choice (log entry 28). The same write through a mapped block is in `MappedAccessReachesRegisters`. -/
def Obligations.SetWritesRegister : Prop :=
  ∀ (s : State) (c off : Nat) (v : Word) (ov : List Access) (rest : List Event),
    s.cfg.wellFormed = true → s.ctxs.length = s.cfg.nctx → c < s.cfg.nctx → off < 64 → off % 4 = 0 →
    s.pending = ⟨.write .regs (s.cfg.regBase.getD c 0 + off) (wordBytes v), ov⟩ :: rest →
    (off = 0x1C →
      step s = issue v { s with pending := rest, overlap := ov, report := .ok, issuer := c }) ∧
    (off ≠ 0x1C → ∃ t, step s = .next t ∧ t.mem = s.mem ∧ t.pending = rest ∧ t.report = .ok ∧ t.cfg = s.cfg ∧
      (∀ d, d ≠ c → t.ctx d = s.ctx d) ∧
      t.ctx c =
        if off = 0x00 then { s.ctx c with dest := v }
        else if off = 0x04 then { s.ctx c with src0 := v }
        else if off = 0x08 then { s.ctx c with src1 := v }
        else if off = 0x0C then { s.ctx c with count := v }
        else if off = 0x10 then { s.ctx c with channels := v }
        else if off = 0x14 then { s.ctx c with sample := v }
        else if off = 0x20 ∧ v.getLsbD 0 = true then { s.ctx c with ill := false }
        else if off = 0x24 then { s.ctx c with rmode := v.extractLsb' 0 2 }
        else s.ctx c)

/-- 44_host_access.md R181: what a 32-bit host read of each offset returns; it changes no register and no memory. The bus
data register is the model's own (log entry 10), and that it holds the value's bytes, the least significant first under either
`BYTE_ORDER`, is the model's choice (log entry 28). The same read through a mapped block is in `MappedAccessReachesRegisters`. -/
def Obligations.GetReadsRegister : Prop :=
  ∀ (s : State) (c off : Nat) (ov : List Access) (rest : List Event),
    s.cfg.wellFormed = true → s.ctxs.length = s.cfg.nctx → c < s.cfg.nctx → off < 64 → off % 4 = 0 →
    s.pending = ⟨.read .regs (s.cfg.regBase.getD c 0 + off) 4, ov⟩ :: rest →
    ∃ t, step s = .next t ∧ t.ctxs = s.ctxs ∧ t.mem = s.mem ∧ t.pending = rest ∧ t.report = .ok ∧ t.cfg = s.cfg ∧
      t.busData = wordBytes
        (if off = 0x00 then (s.ctx c).dest
         else if off = 0x04 then (s.ctx c).src0
         else if off = 0x08 then (s.ctx c).src1
         else if off = 0x0C then (s.ctx c).count
         else if off = 0x10 then (s.ctx c).channels
         else if off = 0x14 then (s.ctx c).sample
         else if off = 0x18 then (s.ctx c).result
         else if off = 0x20 then (if (s.ctx c).ill then 1 else 0)
         else if off = 0x24 then (s.ctx c).rmode.zeroExtend 32
         else 0)

/-- 10_state.md R33, 60_exceptions.md R191: an access of another width, a misaligned one, or in register space one beyond
every block, is refused as `REG_ACCESS`, written or read. So is an access of data memory that touches a mapped register block
unaligned or in another width, wherever it starts and whatever its other bytes are: this clause is the model's choice (log
entries 10 and 21). -/
def Obligations.UnsupportedAccessRefused : Prop :=
  ∀ (s : State) (addr len : Nat) (bytes : List Byte) (ov : List Access) (rest : List Event),
    s.cfg.wellFormed = true → bytes.length = len →
    (len ≠ 4 ∨ addr % 4 ≠ 0 ∨ ∀ b ∈ s.cfg.regBase, addr < b ∨ b + 64 ≤ addr) →
    ((s.pending = ⟨.write .regs addr bytes, ov⟩ :: rest → step s = .refused (.regAccess addr len)) ∧
     (s.pending = ⟨.read .regs addr len, ov⟩ :: rest → step s = .refused (.regAccess addr len))) ∧
    (len ≠ 4 ∨ addr % 4 ≠ 0 → ∀ k < len, (∃ q ∈ mappedBlocks s.cfg, q.contains (addr + k) = true) →
      (s.pending = ⟨.write .data addr bytes, ov⟩ :: rest → step s = .refused (.regAccess addr len)) ∧
      (s.pending = ⟨.read .data addr len, ov⟩ :: rest → step s = .refused (.regAccess addr len)))

/-! ### Numbers -/

/-- 40_scalar_convert.md R102: `mul32` for all words. A NaN operand gives a NaN. An infinity times a nonzero gives the
infinity of the product's sign. For finite operands, with the exact product `n * 2^-298`: a zero product is a zero, a
product of `2^128 - 2^103` or more is the infinity, and any other gives the finite number nearest to it, subnormals
included, the even fraction at a tie; the sign is the exclusive or of the signs. -/
def Obligations.MultiplyIsNearestEven : Prop :=
  ∀ (a b : Word),
    (isNaN a = true ∨ isNaN b = true → isNaN (mul32 a b) = true) ∧
    (isNaN a = false → isNaN b = false → isZero a = false → isZero b = false → isInf a = true ∨ isInf b = true →
      isInf (mul32 a b) = true ∧ (mul32 a b).msb = (a.msb != b.msb)) ∧
    (isFinite a = true → isFinite b = true →
      (mul32 a b).msb = (a.msb != b.msb) ∧
      (mag a * mag b = 0 → isZero (mul32 a b) = true) ∧
      (2 ^ 426 - 2 ^ 401 ≤ mag a * mag b → isInf (mul32 a b) = true) ∧
      (mag a * mag b < 2 ^ 426 - 2 ^ 401 → isFinite (mul32 a b) = true ∧
        ∀ y : Word, isFinite y = true →
          ((mag (mul32 a b) * 2 ^ 149 : Int) - mag a * mag b).natAbs ≤ ((mag y * 2 ^ 149 : Int) - mag a * mag b).natAbs ∧
          (mag y ≠ mag (mul32 a b) →
            ((mag (mul32 a b) * 2 ^ 149 : Int) - mag a * mag b).natAbs = ((mag y * 2 ^ 149 : Int) - mag a * mag b).natAbs →
            fracField (mul32 a b) % 2 = 0)))

/-- 40_scalar_convert.md R103: `rha` is `floor(v + 1/2)` for `v >= 0` and `-floor(-v + 1/2)` below; it is the nearest
integer, and a tie goes to the larger magnitude. -/
def Obligations.RoundHalfAwayFromZero : Prop :=
  ∀ (y : Word), isFinite y = true →
    (0 ≤ sval y → rha y * 2 ^ 149 ≤ sval y + 2 ^ 148 ∧ sval y + 2 ^ 148 < (rha y + 1) * 2 ^ 149) ∧
    (sval y < 0 → -(rha y) * 2 ^ 149 ≤ -(sval y) + 2 ^ 148 ∧ -(sval y) + 2 ^ 148 < (-(rha y) + 1) * 2 ^ 149) ∧
    (2 * (rha y * 2 ^ 149 - sval y)).natAbs ≤ 2 ^ 149 ∧
    ((2 * (rha y * 2 ^ 149 - sval y)).natAbs = 2 ^ 149 → (sval y).natAbs < (rha y * 2 ^ 149).natAbs)

/-- 40_scalar_convert.md R106: every result lies in `-32767 .. 32767`, on every path, and no command produces the word
`0x8000`: not `CVTS` in `RESULT`, and no memory command in any destination element. -/
def Obligations.ResultsStayInRange : Prop :=
  (∀ b : Word, -32767 ≤ cvt b ∧ cvt b ≤ 32767 ∧ int16 (cvt b) ≠ 0x8000) ∧
  (∀ (impl : Impl) (b : Word), -32767 ≤ blane impl b ∧ blane impl b ≤ 32767 ∧ int16 (blane impl b) ≠ 0x8000) ∧
  (∀ (i : Instr) (s t : State), s.mem.wf → Ready s → exec i s = .next t →
    (i = .cvts → t.cur.result ≠ 0xFFFF8000) ∧
    ∀ j, jobOf i s = some j → ∀ e < j.chans * j.count, t.mem.readHalf s.cfg.byteOrder (j.dest + 2 * e) ≠ 0x8000)

/-- 40_scalar_convert.md R108: on every path `+infinity` gives 32767, `-infinity` gives -32767, and every NaN gives 32767,
whatever its sign, quiet bit and payload; no command sets a flag or reports anything, whatever its samples. -/
def Obligations.NonFiniteInputs : Prop :=
  cvt 0x7F800000 = 32767 ∧ cvt 0xFF800000 = -32767 ∧ (∀ b : Word, isNaN b = true → cvt b = 32767) ∧
  (∀ impl : Impl, blane impl 0x7F800000 = 32767 ∧ blane impl 0xFF800000 = -32767 ∧
    ∀ b : Word, isNaN b = true → blane impl b = 32767) ∧
  ∀ (i : Instr) (s t : State), s.mem.wf → Ready s → exec i s = .next t →
    (∀ c, (t.ctx c).ill = (s.ctx c).ill) ∧ t.report = s.report

/-- 40_scalar_convert.md R115: the source's testable properties of the scalar contract. -/
def Obligations.ScalarContract : Prop :=
  (∀ x : Word, isFinite x = true → -(2 ^ 149) ≤ sval x → sval x ≤ 2 ^ 149 →
    cvt x = max (-32767) (min (rha (mul32 x K32767)) 32767)) ∧
  (∀ x : Word, isNaN x = false → sval x < -(2 ^ 149) → cvt x = -32767) ∧
  (∀ x : Word, isNaN x = false → 2 ^ 149 < sval x → cvt x = 32767)

/-- 40_scalar_convert.md R107: the boundary values take the in-range branch and give the saturation values, and for inputs
that are no NaN the three tests may be made in any of their six orders, which the spec marks as its own inference. -/
def Obligations.BranchOrderDoesNotMatter : Prop :=
  (lt MONE MONE = false ∧ le ONE ONE = true ∧ rha (mul32 MONE K32767) = -32767 ∧ rha (mul32 ONE K32767) = 32767 ∧
    cvt MONE = -32767 ∧ cvt ONE = 32767) ∧
  ∀ b : Word, isNaN b = false →
    cvt b = (if lt b MONE then -32767 else if le MONE b && le b ONE then rha (mul32 b K32767) else 32767) ∧
    cvt b = (if lt b MONE then -32767 else if lt ONE b then 32767 else rha (mul32 b K32767)) ∧
    cvt b = (if le MONE b && le b ONE then rha (mul32 b K32767) else if lt b MONE then -32767 else 32767) ∧
    cvt b = (if le MONE b && le b ONE then rha (mul32 b K32767) else if lt ONE b then 32767 else -32767) ∧
    cvt b = (if lt ONE b then 32767 else if lt b MONE then -32767 else rha (mul32 b K32767)) ∧
    cvt b = (if lt ONE b then 32767 else if le MONE b && le b ONE then rha (mul32 b K32767) else -32767)

/-- 40_scalar_convert.md R110(a), an inference of the spec: odd symmetry. -/
def Obligations.ConversionIsOdd : Prop :=
  ∀ b : Word, isNaN b = false → cvt (b ^^^ SIGNMASK) = -cvt b

/-- 40_scalar_convert.md R110(b), an inference of the spec: monotone. -/
def Obligations.ConversionIsMonotone : Prop :=
  ∀ a b : Word, isNaN a = false → isNaN b = false → sval a ≤ sval b → cvt a ≤ cvt b

/-- 40_scalar_convert.md R110(c), (e), inferences of the spec: the product of an in-range sample stays within 32767.0, and
where the top value begins. -/
def Obligations.ProductStaysInRange : Prop :=
  (∀ b : Word, isFinite b = true → (sval b).natAbs ≤ 2 ^ 149 →
    isFinite (mul32 b K32767) = true ∧ (sval (mul32 b K32767)).natAbs ≤ 32767 * 2 ^ 149) ∧
  (∀ b : Word, isNaN b = false → sval 0x3F7FFF00 ≤ sval b → cvt b = 32767) ∧ cvt 0x3F7FFEFF = 32766

/-- 40_scalar_convert.md R110(d), an inference of the spec: for the words of the samples in [-1, 1], the exact product with
32767 is a tie exactly for those of +0.5 and -0.5; another tie is one of the rounded product. -/
def Obligations.ExactTiesOnlyAtHalf : Prop :=
  (∀ b : Word, isFinite b = true → mag b ≤ 2 ^ 149 →
    ((∃ k : Nat, 2 * (mag b * 32767) = (2 * k + 1) * 2 ^ 149) ↔ b &&& ABSMASK = HALF)) ∧
  2 * sval (mul32 0x38A00140 K32767) = 5 * 2 ^ 149

/-- 40_scalar_convert.md R114, an inference of the spec: tiny inputs, zeros and subnormals among them, give 0 whatever
their sign; `0x37800100` is the smallest positive input that gives 1, by a tie of the rounded product. -/
def Obligations.TinyInputsGiveZero : Prop :=
  (∀ b : Word, mag b ≤ mag 0x378000FF →
    2 * mag (mul32 b K32767) < 2 ^ 149 ∧ cvt b = 0 ∧ int16 (cvt b) = 0x0000) ∧
  (∀ b : Word, expField b = 0 → mag b ≤ mag 0x378000FF) ∧
  mul32 0x378000FF K32767 = 0x3EFFFFFE ∧ mul32 0x37800100 K32767 = 0x3F000000 ∧ cvt 0x37800100 = 1 ∧
  ∀ b : Word, cvt b = 1 → sval 0x37800100 ≤ sval b

/-- 41_batch_convert.md R133, for samples that are no NaN an inference of the spec: the lane algorithm equals the scalar
conversion on every word, under each strategy. -/
def Obligations.LaneEqualsScalar : Prop :=
  ∀ (impl : Impl) (x : Word), blane impl x = cvt x

/-- 41_batch_convert.md R131, R132: the clamped lane value never exceeds 32767.0 in magnitude, and on finite values both
compensations give `sign * floor(|v| + 1/2)`, which is `rha`. -/
def Obligations.CompensationsAgree : Prop :=
  (∀ x : Word, isFinite (laneClamped x) = true ∧ mag (laneClamped x) ≤ 32767 * 2 ^ 149) ∧
  ∀ (impl : Impl) (q : Word), isFinite q = true →
    laneToInt impl q = rha q ∧
    laneToInt impl q = (if q.msb then -1 else 1) * (((mag q + 2 ^ 148) / 2 ^ 149 : Nat) : Int)

/-- 41_batch_convert.md R142, an inference of the spec: no product has the magnitude 0.5 - 2^-25, and on every lane value the
truncation of a bias sum rounded to binary32 gives the integer of the exact sum. The rounded sum is any binary32 number `r`
nearest to `m' + 1/2`, so that the claim holds however a tie is resolved. -/
def Obligations.RoundedBiasIsHarmless : Prop :=
  (∀ x : Word, (mul32 x K32767) &&& ABSMASK ≠ 0x3EFFFFFF) ∧
  ∀ x r : Word, isFinite r = true →
    (∀ y : Word, isFinite y = true →
      ((mag r : Int) - (mag (laneClamped x) + 2 ^ 148)).natAbs ≤
        ((mag y : Int) - (mag (laneClamped x) + 2 ^ 148)).natAbs) →
    biasTruncate (laneClamped x) = (if (laneClamped x).msb then -1 else 1) * ((mag r / 2 ^ 149 : Nat) : Int)

/-! ### The commands -/

/-- 40_scalar_convert.md R113: `CVTS` in any state writes `sext_32(int16(CVT(SAMPLE)))` to `RESULT` and nothing else. -/
def Obligations.CvtsConvertsSample : Prop :=
  decode 0x00000001 = .ok .cvts ∧ (∃ e, decode 0x00000101 = .error e) ∧
  (∀ s : State, s.issuer < s.ctxs.length →
    ∃ t, exec .cvts s = .next t ∧
      t.cur = { s.cur with result := (int16 (cvt s.cur.sample)).signExtend 32 } ∧
      (∀ c, c ≠ s.issuer → t.ctx c = s.ctx c) ∧ t.mem = s.mem ∧ t.cfg = s.cfg ∧ t.pending = s.pending ∧
      t.issuer = s.issuer ∧ t.overlap = s.overlap ∧ t.busData = s.busData ∧ t.report = s.report) ∧
  (int16 (cvt 0x80000000)).signExtend 32 = (0x00000000 : Word) ∧
  (int16 (cvt 0xBF800000)).signExtend 32 = (0xFFFF8001 : Word) ∧
  (int16 (cvt 0x7FC00000)).signExtend 32 = (0x00007FFF : Word) ∧
  mul32 0x3F000000 K32767 = 0x467FFE00 ∧ (int16 (cvt 0x3F000000)).signExtend 32 = (0x00004000 : Word)

/-- 41_batch_convert.md R137, whose end state the spec marks as its own inference: `CVTM` and `CVTM.S`. Under the
preconditions element `i` of the destination becomes the conversion of sample `i`, every other byte and all registers
stay, for every `IMPL` and `W`; otherwise the model faults. The preconditions have three choices of the model in them: the
accesses of other agents are the event's list (log entry 7), admission is by byte (log entry 19), and a mapped register block
lies at its `REG_BASE` (log entry 21). -/
def Obligations.CvtmConvertsBuffer : Prop :=
  decode 0x00000002 = .ok (.cvtm false) ∧ decode 0x00000102 = .ok (.cvtm true) ∧
  ∀ (sc : Bool) (s : State), s.mem.wf → Ready s →
    (CvtmPre s → ∃ m : Memory, exec (.cvtm sc) s = .next { s with mem := m } ∧ m.wf ∧
      (∀ i < s.cur.count.toNat,
        m.readHalf s.cfg.byteOrder (s.cur.dest.toNat + 2 * i) = int16 (cvt (s.mem.readWord s.cfg.byteOrder (s.cur.src0.toNat + 4 * i)))) ∧
      ∀ a, (a < s.cur.dest.toNat ∨ s.cur.dest.toNat + 2 * s.cur.count.toNat ≤ a) → m.read a = s.mem.read a) ∧
    (¬ CvtmPre s → ∃ f, exec (.cvtm sc) s = .fault f)

/-- 43_multichannel_interleave.md R166, whose end state the spec marks as its own inference: `CVTI` and `CVTI.S`. Under
the preconditions element `f*CHANNELS + c` of the destination becomes the conversion of sample `f` of the buffer that
table entry `c` names, every other byte and all registers stay; otherwise the model faults. Choices of the model in the
preconditions: with `COUNT = 0` no table entry is read and none need be a multiple of 4 (log entry 16, unsafe there), while the
unread table is still a buffer of `4*CHANNELS` bytes (log entry 25); two sources that share a byte overlap (log entry 14); the
accesses of other agents are the event's list (log entry 7), admission is by byte (log entry 19), and a mapped register block
lies at its `REG_BASE` (log entry 21). -/
def Obligations.CvtiInterleavesChannels : Prop :=
  decode 0x00000003 = .ok (.cvti false) ∧ decode 0x00000103 = .ok (.cvti true) ∧
  ∀ (sc : Bool) (s : State), s.mem.wf → Ready s →
    (CvtiPre s → ∃ m : Memory, exec (.cvti sc) s = .next { s with mem := m } ∧ m.wf ∧
      (∀ c < s.cur.channels.toNat, ∀ f < s.cur.count.toNat,
        m.readHalf s.cfg.byteOrder (s.cur.dest.toNat + 2 * (f * s.cur.channels.toNat + c)) =
          int16 (cvt (s.mem.readWord s.cfg.byteOrder ((s.mem.readWord s.cfg.byteOrder (s.cur.src0.toNat + 4 * c)).toNat + 4 * f)))) ∧
      ∀ a, (a < s.cur.dest.toNat ∨ s.cur.dest.toNat + 2 * (s.cur.channels.toNat * s.cur.count.toNat) ≤ a) →
        m.read a = s.mem.read a) ∧
    (¬ CvtiPre s → ∃ f, exec (.cvti sc) s = .fault f)

/-- 42_stereo_interleave.md R151, whose end state the spec marks as its own inference: `CVTI2` and `CVTI2.S`. Under the
preconditions the words at `DEST + 4f` and `DEST + 4f + 2` become the conversions of the left and right samples of frame
`f`, every other byte and all registers stay; otherwise the model faults. Choices of the model in the preconditions: two sources
that share a byte overlap (log entry 14), the accesses of other agents are the event's list (log entry 7), admission is by byte
(log entry 19), and a mapped register block lies at its `REG_BASE` (log entry 21). -/
def Obligations.Cvti2InterleavesStereo : Prop :=
  decode 0x00000004 = .ok (.cvti2 false) ∧ decode 0x00000104 = .ok (.cvti2 true) ∧
  ∀ (sc : Bool) (s : State), s.mem.wf → Ready s →
    (Cvti2Pre s → ∃ m : Memory, exec (.cvti2 sc) s = .next { s with mem := m } ∧ m.wf ∧
      (∀ f < s.cur.count.toNat,
        m.readHalf s.cfg.byteOrder (s.cur.dest.toNat + 4 * f) = int16 (cvt (s.mem.readWord s.cfg.byteOrder (s.cur.src0.toNat + 4 * f))) ∧
        m.readHalf s.cfg.byteOrder (s.cur.dest.toNat + 4 * f + 2) = int16 (cvt (s.mem.readWord s.cfg.byteOrder (s.cur.src1.toNat + 4 * f)))) ∧
      ∀ a, (a < s.cur.dest.toNat ∨ s.cur.dest.toNat + 4 * s.cur.count.toNat ≤ a) → m.read a = s.mem.read a) ∧
    (¬ Cvti2Pre s → ∃ f, exec (.cvti2 sc) s = .fault f)

/-- 41_batch_convert.md R140: the batch path and the scalar path end in the same state, for every value of `SC`, `IMPL`,
`W` and `W2`; a contract violation is one on both. Of the admissible access orders the model has one on each path, its choice
(log entry 8), so that the rule's 'every admissible access order' is stated of those only. -/
def Obligations.PathsAreEquivalent : Prop :=
  ∀ (s : State) (sc sc' : Bool) (impl : Impl) (w w2 : Nat), s.mem.wf → Ready s →
    ∀ i i', (i, i') ∈ [(Instr.cvtm sc, Instr.cvtm sc'), (.cvti sc, .cvti sc'), (.cvti2 sc, .cvti2 sc')] →
      (∀ t, exec i s = .next t → exec i' (s.withParams impl w w2) = .next (t.withParams impl w w2)) ∧
      (∀ f, exec i s = .fault f → exec i' (s.withParams impl w w2) = .fault f)

/-- 60_exceptions.md R194: of several false preconditions the first in the order `CV_COUNT`, `CV_CHANNELS`, `CV_ALIGN`,
`CV_SIZE`, `CV_OVERLAP`, `CV_RACE` is reported. Of the table of `CVTI` the alignment of those entries counts that are read and
can be, whatever else is not admitted: the model's choice (log entry 16). So are that two sources that share a byte overlap (log
entry 14), that with `COUNT = 0` the table is still a buffer (log entry 25), the event's list of the accesses of other agents
(log entry 7), admission by byte (log entry 19), and a mapped register block at its `REG_BASE` (log entry 21). -/
def Obligations.FaultsInOrder : Prop :=
  ∀ (sc : Bool) (s : State),
    (s.cur.count.toInt < 0 →
      exec (.cvtm sc) s = .fault .cvCount ∧ exec (.cvti sc) s = .fault .cvCount ∧ exec (.cvti2 sc) s = .fault .cvCount) ∧
    (0 ≤ s.cur.count.toInt →
      -- `CVTM`
      (s.cur.dest.toNat % 2 ≠ 0 ∨ s.cur.src0.toNat % 4 ≠ 0 → ∃ a, exec (.cvtm sc) s = .fault (.cvAlign a)) ∧
      (s.cur.dest.toNat % 2 = 0 → s.cur.src0.toNat % 4 = 0 →
        (¬ (cvtmJob s).sized s.cfg → ∃ a, exec (.cvtm sc) s = .fault (.cvSize a)) ∧
        ((cvtmJob s).sized s.cfg → ¬ (cvtmJob s).separate s.cfg → exec (.cvtm sc) s = .fault .cvOverlap) ∧
        ((cvtmJob s).sized s.cfg → (cvtmJob s).separate s.cfg → ¬ (cvtmJob s).stable s →
          exec (.cvtm sc) s = .fault .cvRace)) ∧
      -- `CVTI2`
      (s.cur.dest.toNat % 2 ≠ 0 ∨ s.cur.src0.toNat % 4 ≠ 0 ∨ s.cur.src1.toNat % 4 ≠ 0 ∨
        s.cur.dest.toNat % s.cfg.stereoAlign ≠ 0 ∨ s.cur.src0.toNat % s.cfg.stereoAlign ≠ 0 ∨
        s.cur.src1.toNat % s.cfg.stereoAlign ≠ 0 → ∃ a, exec (.cvti2 sc) s = .fault (.cvAlign a)) ∧
      (s.cur.dest.toNat % 2 = 0 → s.cur.src0.toNat % 4 = 0 → s.cur.src1.toNat % 4 = 0 →
        s.cur.dest.toNat % s.cfg.stereoAlign = 0 → s.cur.src0.toNat % s.cfg.stereoAlign = 0 →
        s.cur.src1.toNat % s.cfg.stereoAlign = 0 →
        (¬ (cvti2Job s).sized s.cfg → ∃ a, exec (.cvti2 sc) s = .fault (.cvSize a)) ∧
        ((cvti2Job s).sized s.cfg → ¬ (cvti2Job s).separate s.cfg → exec (.cvti2 sc) s = .fault .cvOverlap) ∧
        ((cvti2Job s).sized s.cfg → (cvti2Job s).separate s.cfg → ¬ (cvti2Job s).stable s →
          exec (.cvti2 sc) s = .fault .cvRace)) ∧
      -- `CVTI`
      (s.cur.channels.toInt ≤ 0 → exec (.cvti sc) s = .fault .cvChannels) ∧
      (0 < s.cur.channels.toInt →
        (s.cur.dest.toNat % 2 ≠ 0 ∨ s.cur.src0.toNat % 4 ≠ 0 ∨
          (s.cur.count ≠ 0 ∧ ∃ c < s.cur.channels.toNat,
            entryAdmitted s.cfg s.cur.src0.toNat c = true ∧ tableEntry s.mem s.cfg.byteOrder s.cur.src0.toNat c % 4 ≠ 0) →
          ∃ a, exec (.cvti sc) s = .fault (.cvAlign a)) ∧
        (s.cur.dest.toNat % 2 = 0 → s.cur.src0.toNat % 4 = 0 →
          (s.cur.count ≠ 0 → ∀ c < s.cur.channels.toNat,
            entryAdmitted s.cfg s.cur.src0.toNat c = true → tableEntry s.mem s.cfg.byteOrder s.cur.src0.toNat c % 4 = 0) →
          (¬ (cvtiJob s).sized s.cfg → ∃ a, exec (.cvti sc) s = .fault (.cvSize a)) ∧
          ((cvtiJob s).sized s.cfg → ¬ (cvtiJob s).separate s.cfg → exec (.cvti sc) s = .fault .cvOverlap) ∧
          ((cvtiJob s).sized s.cfg → (cvtiJob s).separate s.cfg → ¬ (cvtiJob s).stable s →
            exec (.cvti sc) s = .fault .cvRace))))

/-- 60_exceptions.md R191: which command raises which outcome. No command is refused, `CVTS` never faults, and only `CVTI`
raises `CV_CHANNELS`; the codes are the spec's. What a step adds around a command is in `StepRunsDecodedCommand`. -/
def Obligations.OutcomesOfCommands : Prop :=
  (∀ (i : Instr) (s : State) (r : Refusal), exec i s ≠ .refused r) ∧
  (∀ (s : State) (f : Fault), exec .cvts s ≠ .fault f) ∧
  (∀ (i : Instr) (s : State), exec i s = .fault .cvChannels → ∃ sc, i = .cvti sc) ∧
  (∀ (i : Instr) (s : State) (f : Fault), exec i s = .fault f → 2 ≤ f.code ∧ f.code ≤ 7)

/-- 20_memory.md R58: with `COUNT = 0` a memory command whose registers are aligned changes nothing, whatever the
addresses and whatever memory the platform admits. The table of `CVTI` is not looked at and need not be admitted, and its
entries need not be multiples of 4, where R64 and R166 ask this of every entry: the model's choice, unsafe if an unread entry had
to be aligned (log entry 16). As a buffer of `4*CHANNELS` bytes (43_multichannel_interleave.md R166) it may be written by no
other agent and meet no mapped register block: the model's reading (log entry 25). The event's list of the accesses of other
agents (log entry 7) and a mapped register block at its `REG_BASE` (log entry 21) are the model's choices. -/
def Obligations.EmptyCommandDoesNothing : Prop :=
  ∀ (sc : Bool) (s : State), Ready s → s.cur.count = 0 →
    (∀ a ∈ s.overlap, a.touchesRegs s.cfg s.issuer = false) →
    s.cur.dest.toNat % 2 = 0 → s.cur.src0.toNat % 4 = 0 →
    exec (.cvtm sc) s = .next s ∧
    (0 < s.cur.channels.toInt →
      ((∀ q ∈ mappedBlocks s.cfg, (Span.mk s.cur.src0.toNat (4 * s.cur.channels.toNat)).disjoint q) →
        (∀ addr len, .write addr len ∈ s.overlap →
          (Span.mk s.cur.src0.toNat (4 * s.cur.channels.toNat)).disjoint ⟨addr, len⟩) →
        exec (.cvti sc) s = .next s) ∧
      (∀ q ∈ mappedBlocks s.cfg, ¬ (Span.mk s.cur.src0.toNat (4 * s.cur.channels.toNat)).disjoint q →
        exec (.cvti sc) s = .fault .cvOverlap) ∧
      ((∀ q ∈ mappedBlocks s.cfg, (Span.mk s.cur.src0.toNat (4 * s.cur.channels.toNat)).disjoint q) →
        ∀ addr len, .write addr len ∈ s.overlap →
          ¬ (Span.mk s.cur.src0.toNat (4 * s.cur.channels.toNat)).disjoint ⟨addr, len⟩ →
          exec (.cvti sc) s = .fault .cvRace)) ∧
    (s.cur.src1.toNat % 4 = 0 → s.cur.dest.toNat % s.cfg.stereoAlign = 0 → s.cur.src0.toNat % s.cfg.stereoAlign = 0 →
      s.cur.src1.toNat % s.cfg.stereoAlign = 0 → exec (.cvti2 sc) s = .next s)

/-- 42_stereo_interleave.md R154: from the same memory `CVTI2` and `CVTI` with `CHANNELS = 2` and a table of the same two
addresses leave the same memory, and its elements `2f` and `2f+1` are those `CVTM` makes of each buffer. -/
def Obligations.StereoEqualsGeneric : Prop :=
  ∀ (s : State) (table dl dr : Word) (sc sc' scl scr : Bool), s.mem.wf → Ready s → Cvti2Pre s →
    CvtiPre (s.setCur { s.cur with src0 := table, channels := 2 }) →
    s.mem.readWord s.cfg.byteOrder table.toNat = s.cur.src0 → s.mem.readWord s.cfg.byteOrder (table.toNat + 4) = s.cur.src1 →
    ∃ m : Memory,
      exec (.cvti2 sc) s = .next { s with mem := m } ∧
      exec (.cvti sc') (s.setCur { s.cur with src0 := table, channels := 2 }) =
        .next { s.setCur { s.cur with src0 := table, channels := 2 } with mem := m } ∧
      (CvtmPre (s.setCur { s.cur with dest := dl }) →
        ∃ ml : Memory, exec (.cvtm scl) (s.setCur { s.cur with dest := dl }) =
            .next { s.setCur { s.cur with dest := dl } with mem := ml } ∧
          ∀ f < s.cur.count.toNat, m.readHalf s.cfg.byteOrder (s.cur.dest.toNat + 2 * (2 * f)) = ml.readHalf s.cfg.byteOrder (dl.toNat + 2 * f)) ∧
      (CvtmPre (s.setCur { s.cur with dest := dr, src0 := s.cur.src1 }) →
        ∃ mr : Memory, exec (.cvtm scr) (s.setCur { s.cur with dest := dr, src0 := s.cur.src1 }) =
            .next { s.setCur { s.cur with dest := dr, src0 := s.cur.src1 } with mem := mr } ∧
          ∀ f < s.cur.count.toNat, m.readHalf s.cfg.byteOrder (s.cur.dest.toNat + 2 * (2 * f + 1)) = mr.readHalf s.cfg.byteOrder (dr.toNat + 2 * f))

/-- 43_multichannel_interleave.md R170, an inference of the spec: `CVTI` with one channel leaves the same memory as `CVTM`
on that channel's buffer. -/
def Obligations.OneChannelEqualsMono : Prop :=
  ∀ (s : State) (table : Word) (sc sc' : Bool), s.mem.wf → Ready s → CvtmPre s →
    CvtiPre (s.setCur { s.cur with src0 := table, channels := 1 }) → s.mem.readWord s.cfg.byteOrder table.toNat = s.cur.src0 →
    ∃ m : Memory,
      exec (.cvtm sc) s = .next { s with mem := m } ∧
      exec (.cvti sc') (s.setCur { s.cur with src0 := table, channels := 1 }) =
        .next { s.setCur { s.cur with src0 := table, channels := 1 } with mem := m }

/-- 10_state.md R34, R40, R42: a command changes `RESULT` (`CVTS` only) or destination elements of memory (the others
only); every operand register, `STATUS`, `RMODE`, every other context and every other byte stay. -/
def Obligations.CommandFrame : Prop :=
  ∀ (i : Instr) (s t : State), s.mem.wf → Ready s → exec i s = .next t →
    t.cur = { s.cur with result := t.cur.result } ∧ (i ≠ .cvts → t.cur.result = s.cur.result) ∧
    (∀ c, c ≠ s.issuer → t.ctx c = s.ctx c) ∧ t.ctxs.length = s.ctxs.length ∧
    t.cfg = s.cfg ∧ t.pending = s.pending ∧ t.issuer = s.issuer ∧ t.overlap = s.overlap ∧ t.busData = s.busData ∧
    t.report = s.report ∧
    (jobOf i s = none → t.mem = s.mem) ∧
    ∀ j, jobOf i s = some j → ∀ a, (a < j.dest ∨ j.dest + 2 * (j.chans * j.count) ≤ a) → t.mem.read a = s.mem.read a

/-- 10_state.md R32, 40_scalar_convert.md R109: the value of `RMODE` influences nothing a command does. -/
def Obligations.RmodeHasNoInfluence : Prop :=
  ∀ (i : Instr) (s : State) (r : BitVec 2), s.mem.wf → Ready s →
    (∀ t, exec i s = .next t →
      exec i (s.setCur { s.cur with rmode := r }) = .next (t.setCur { t.cur with rmode := r })) ∧
    (∀ f, exec i s = .fault f → exec i (s.setCur { s.cur with rmode := r }) = .fault f)

/-- 10_state.md R21, 60_exceptions.md R198: no register of another context influences a command or is touched by it. -/
def Obligations.OtherContextsHaveNoInfluence : Prop :=
  ∀ (i : Instr) (s : State) (c : Nat) (k : Context), s.mem.wf → Ready s → c ≠ s.issuer →
    (∀ t, exec i s = .next t → exec i (s.setCtx c k) = .next (t.setCtx c k)) ∧
    (∀ f, exec i s = .fault f → exec i (s.setCtx c k) = .fault f)

/-- 10_state.md R34: the same command can be issued again at once, and leaves what it left. -/
def Obligations.CommandRepeats : Prop :=
  ∀ (i : Instr) (s t : State), Inv s → s.issuer < s.ctxs.length → exec i s = .next t → exec i t = .next t

/-- 20_memory.md R68: commands of different contexts on independent buffers give the same state in either order, and each
gives its destination what it would alone. That their accesses may also interleave is left out of the model (log entry 24). -/
def Obligations.IndependentCommandsCommute : Prop :=
  ∀ (s : State) (i1 i2 : Instr) (c1 c2 : Nat) (t1 t2 : State), Inv s → c1 < s.ctxs.length → c2 < s.ctxs.length → c1 ≠ c2 →
    exec i1 (s.withIssuer c1) = .next t1 → exec i2 (s.withIssuer c2) = .next t2 →
    (∀ j1 j2, jobOf i1 (s.withIssuer c1) = some j1 → jobOf i2 (s.withIssuer c2) = some j2 →
      (∀ r ∈ j2.destSpan :: j2.readSpans, j1.destSpan.disjoint r) ∧
      (∀ r ∈ j1.destSpan :: j1.readSpans, j2.destSpan.disjoint r)) →
    ∃ u : State,
      exec i2 (t1.withIssuer c2) = .next (u.withIssuer c2) ∧ exec i1 (t2.withIssuer c1) = .next (u.withIssuer c1) ∧
      u.ctx c1 = t1.ctx c1 ∧ u.ctx c2 = t2.ctx c2 ∧
      (∀ j1, jobOf i1 (s.withIssuer c1) = some j1 → ∀ a, j1.destSpan.contains a = true → u.mem.read a = t1.mem.read a) ∧
      (∀ j2, jobOf i2 (s.withIssuer c2) = some j2 → ∀ a, j2.destSpan.contains a = true → u.mem.read a = t2.mem.read a)

/-! ### Steps -/

/-- 44_host_access.md R182, R183: when the next host action writes a legal command word to `CMD` of context `c`, the step
is that command in that context, with the event taken from the queue; with no action left the machine idles. The write may
come through a mapped block, at the same address: the model's choice (log entry 21). In either space the four bytes spell the
word with the least significant first, under either `BYTE_ORDER`: the model's choice, unsafe for a big-endian platform that
reverses the registers of a mapped block (log entry 28). The queue is the model's own (log entry 4). If another agent touches the registers
of `c` meanwhile (R184), every command faults, `CVTS` with `CV_RACE`: the model's reading (log entry 27). -/
def Obligations.StepRunsDecodedCommand : Prop :=
  (∀ (s : State) (space : Space) (c : Nat) (w : Word) (i : Instr) (ov : List Access) (rest : List Event),
    s.cfg.wellFormed = true → c < s.cfg.nctx → (space = .data → s.cfg.mapped c = true) → decode w = .ok i →
    s.pending = ⟨.write space (s.cfg.regBase.getD c 0 + 0x1C) (wordBytes w), ov⟩ :: rest →
    ((∀ a ∈ ov, a.touchesRegs s.cfg c = false) →
      step s = exec i { s with pending := rest, overlap := ov, report := .ok, issuer := c }) ∧
    (∀ a ∈ ov, a.touchesRegs s.cfg c = true → (∃ f, step s = .fault f) ∧ (i = .cvts → step s = .fault .cvRace))) ∧
  (∀ s : State, s.pending = [] → step s = .next s)

/-- 10_state.md R41, 20_memory.md R50: the invariant holds after reset, with any configuration and contents of memory. -/
def Obligations.InvariantAtReset : Prop :=
  Inv State.reset ∧ ∀ (g : Config) (m : Memory), m.wf → (∀ c ∈ m, c.1 < 2 ^ g.addrWidth) → Inv (State.resetWith g m)

/-- Every step keeps the invariant: memory stays canonical and in the address space (20_memory.md R50), there stay `NCTX`
contexts, no transient state survives a command (10_state.md R38), and `RESULT` stays one of the words R29 allows. -/
def Obligations.StepKeepsInvariant : Prop :=
  ∀ s t : State, Inv s → step s = .next t → Inv t

/-- 10_state.md R32, 41_batch_convert.md R135: `RMODE` of a context changes only by a host write to that register or by
reset; no command leaves it changed. That a mapped register block lies at its `REG_BASE` in data memory, so that a write there
reaches the register, is the model's choice, unsafe for a platform that shows it elsewhere (log entry 21). -/
def Obligations.RmodeChangesOnlyByHost : Prop :=
  ∀ (s t : State) (c : Nat), Inv s → step s = .next t → (t.ctx c).rmode ≠ (s.ctx c).rmode →
    ∃ e rest, s.pending = e :: rest ∧
      (e.action = .reset ∨ (∃ d w l, e.action = .resetDuring d w l) ∨
       ∃ space addr bytes, e.action = .write space addr bytes ∧ route s.cfg space addr = some (c, 0x24))

/-- 60_exceptions.md R192: `STATUS.ILL` is set by outcome `ILLEGAL_CMD` and by nothing else, and is cleared only by a host
write of 1 to `STATUS` bit 0 or by reset. The record of the outcome is the model's own (log entry 11); where a mapped block lies
and that a write's bytes spell its value with the least significant first are the model's choices (log entries 21 and 28). -/
def Obligations.IllChangesOnly : Prop :=
  ∀ (s t : State) (c : Nat), Inv s → step s = .next t →
    ((s.ctx c).ill = false → (t.ctx c).ill = true →
      ∃ space addr bytes w e ov rest, s.pending = ⟨.write space addr bytes, ov⟩ :: rest ∧
        route s.cfg space addr = some (c, 0x1C) ∧ bytesWord bytes = some w ∧ decode w = .error e ∧
        t.report = .illegalCmd w) ∧
    ((s.ctx c).ill = true → (t.ctx c).ill = false →
      ∃ ev rest, s.pending = ev :: rest ∧
        (ev.action = .reset ∨ (∃ d w l, ev.action = .resetDuring d w l) ∨
         ∃ space addr bytes v, ev.action = .write space addr bytes ∧ route s.cfg space addr = some (c, 0x20) ∧
           bytesWord bytes = some v ∧ v.getLsbD 0 = true))

/-- 10_state.md R20: the parameters are configuration; no step changes them. -/
def Obligations.StepKeepsConfig : Prop :=
  ∀ s t : State, step s = .next t → t.cfg = s.cfg

/-- 20_memory.md R57(c), R61: a byte of memory changes only by a host store to it, or as a byte of the destination of a
command that runs. Where a mapped block lies, and that the bytes written to `CMD` spell the word with the least significant
first, are the model's choices (log entries 21 and 28). -/
def Obligations.MemoryChangesOnlyWhereWritten : Prop :=
  ∀ (s t : State) (a : Nat), Inv s → step s = .next t → t.mem.read a ≠ s.mem.read a →
    ∃ e rest, s.pending = e :: rest ∧
      ((∃ addr bytes, e.action = .write .data addr bytes ∧ addr ≤ a ∧ a < addr + bytes.length) ∨
       ∃ c w i j, decode w = .ok i ∧ jobOf i (s.withIssuer c) = some j ∧ j.destSpan.contains a = true ∧
         ((∃ space addr bytes, e.action = .write space addr bytes ∧ bytesWord bytes = some w ∧
            route s.cfg space addr = some (c, 0x1C)) ∨
          ∃ l, e.action = .resetDuring c w l))

/-! ### Reset -/

/-- 10_state.md R41: every context after reset; no command is pending or running, so no transient state is held, and memory
is neither cleared nor initialised. -/
def Obligations.RegistersAfterReset : Prop :=
  ∀ (g : Config) (m : Memory) (c : Nat), c < g.nctx →
    ((State.resetWith g m).ctx c).dest = 0 ∧ ((State.resetWith g m).ctx c).src0 = 0 ∧
    ((State.resetWith g m).ctx c).src1 = 0 ∧ ((State.resetWith g m).ctx c).count = 0 ∧
    ((State.resetWith g m).ctx c).channels = 0 ∧ ((State.resetWith g m).ctx c).sample = 0 ∧
    ((State.resetWith g m).ctx c).result = 0 ∧ ((State.resetWith g m).ctx c).ill = false ∧
    ((State.resetWith g m).ctx c).rmode = g.rmodeReset ∧ ((State.resetWith g m).ctx c).work = none ∧
    (State.resetWith g m).pending = [] ∧ (State.resetWith g m).mem = m

/-- 70_reset_and_hazards.md R210, 10_state.md R41: one reset for all contexts; it gives every register its reset value,
leaves no command running, and neither reads nor writes memory. -/
def Obligations.ResetClearsRegisters : Prop :=
  ∀ (s : State) (ov : List Access) (rest : List Event), s.pending = ⟨.reset, ov⟩ :: rest →
    ∃ t, step s = .next t ∧ t.mem = s.mem ∧ t.cfg = s.cfg ∧ t.pending = rest ∧ t.ctxs.length = s.cfg.nctx ∧
      ∀ c, (t.ctx c).dest = 0 ∧ (t.ctx c).src0 = 0 ∧ (t.ctx c).src1 = 0 ∧ (t.ctx c).count = 0 ∧
        (t.ctx c).channels = 0 ∧ (t.ctx c).sample = 0 ∧ (t.ctx c).result = 0 ∧ (t.ctx c).ill = false ∧
        (t.ctx c).rmode = s.cfg.rmodeReset ∧ (t.ctx c).work = none

/-- 70_reset_and_hazards.md R211: reset during a command leaves each destination element old or new, no other byte changed,
and all registers at their reset values. Which elements are new is the input's set, the model's choice of how to leave it
open (log entry 12). A command with no buffer (`CVTS`) or a reserved word leaves all memory. The preconditions have the model's
choices of `CvtmConvertsBuffer`, `CvtiInterleavesChannels` and `Cvti2InterleavesStereo` in them (log entries 7, 14, 16, 19, 21
and 25), and that `CVTS` must keep its registers to itself is its reading (log entry 27). -/
def Obligations.ResetDuringCommand : Prop :=
  ∀ (s : State) (c : Nat) (w : Word) (landed : List Nat) (ov : List Access) (rest : List Event),
    Inv s → s.pending = ⟨.resetDuring c w landed, ov⟩ :: rest → c < s.ctxs.length →
    ((∃ e, decode w = .error e) ∨ (decode w = .ok .cvts ∧ ∀ a ∈ ov, a.touchesRegs s.cfg c = false) →
      ∃ t, step s = .next t ∧ (∀ d, t.ctx d = (State.resetWith s.cfg s.mem).ctx d) ∧ t.mem = s.mem ∧ t.cfg = s.cfg ∧
        t.pending = rest) ∧
    ∀ (i : Instr) (j : Job), decode w = .ok i →
      Pre i { s with pending := rest, overlap := ov, report := .ok, issuer := c } →
      jobOf i { s with pending := rest, overlap := ov, report := .ok, issuer := c } = some j →
      ∃ t, step s = .next t ∧ (∀ d, t.ctx d = (State.resetWith s.cfg s.mem).ctx d) ∧ t.cfg = s.cfg ∧ t.pending = rest ∧
        (∀ ch < j.chans, ∀ f < j.count,
          t.mem.readHalf s.cfg.byteOrder (j.dest + 2 * (f * j.chans + ch)) =
            if f * j.chans + ch ∈ landed then int16 (cvt (s.mem.readWord s.cfg.byteOrder (j.bases.getD ch 0 + 4 * f)))
            else s.mem.readHalf s.cfg.byteOrder (j.dest + 2 * (f * j.chans + ch))) ∧
        ∀ a, (a < j.dest ∨ j.dest + 2 * (j.chans * j.count) ≤ a) → t.mem.read a = s.mem.read a

/-! ### Memory -/

/-- 20_memory.md R52: little-endian, the value of `BYTE_ORDER` in the configuration of `State.reset`. A word is its four bytes
in ascending order of significance, of a halfword read or written byte `k` is at `a + k`, two outputs read as one word are the
second above the first, and no step switches the order. Samples, outputs and table entries are what `readWord` and
`writeHalf` move. -/
def Obligations.MemoryIsLittleEndian : Prop :=
  (∀ (m : Memory) (a : Nat), ∀ k < 4, (m.readWord .little a).extractLsb' (8 * k) 8 = m.read (a + k)) ∧
  (∀ (m : Memory) (a : Nat), ∀ k < 2, (m.readHalf .little a).extractLsb' (8 * k) 8 = m.read (a + k)) ∧
  (∀ (m : Memory) (a : Nat) (v : Half), m.wf → ∀ k < 2, (m.writeHalf .little a v).read (a + k) = v.extractLsb' (8 * k) 8) ∧
  (∀ (m : Memory) (a : Nat) (v v' : Half), m.wf →
    ((m.writeHalf .little a v).writeHalf .little (a + 2) v').readWord .little a = v' ++ v) ∧
  State.reset.cfg.byteOrder = .little ∧
  ∀ s t : State, step s = .next t → t.cfg.byteOrder = s.cfg.byteOrder

/-- 20_memory.md R61, R67: a host store to admitted memory is there for what follows and touches nothing else, and a host
load returns the bytes that are there, wherever the access meets no mapped register block. The bus data register is the
model's own, and that a host access is a string of bytes of any length is its choice (log entry 10); so are admission by byte (log
entry 19) and a mapped register block at its `REG_BASE` (log entry 21). -/
def Obligations.HostStoresAndLoads : Prop :=
  ∀ (s : State) (addr len : Nat) (bytes : List Byte) (ov : List Access) (rest : List Event),
    s.mem.wf → bytes.length = len → (∀ k < max 1 len, ∀ q ∈ mappedBlocks s.cfg, q.contains (addr + k) = false) →
    ((∀ k < len, admits s.cfg .store (addr + k) = true) → s.pending = ⟨.write .data addr bytes, ov⟩ :: rest →
      ∃ t, step s = .next t ∧ t.ctxs = s.ctxs ∧ t.pending = rest ∧
        (∀ k < len, t.mem.read (addr + k) = bytes.getD k 0) ∧
        ∀ a, (a < addr ∨ addr + len ≤ a) → t.mem.read a = s.mem.read a) ∧
    ((∀ k < len, admits s.cfg .load (addr + k) = true) → s.pending = ⟨.read .data addr len, ov⟩ :: rest →
      ∃ t, step s = .next t ∧ t.ctxs = s.ctxs ∧ t.mem = s.mem ∧ t.pending = rest ∧ t.busData.length = len ∧
        ∀ k < len, t.busData.getD k 0 = s.mem.read (addr + k))

/-! ### Register blocks mapped into data memory -/

/-- Through a register block that the platform maps into data memory (10_state.md R39, 20_memory.md R62), a host write or read
that starts at `REG_BASE[ctx] + offset` is the access of register space at that address, of any width: `SET`, `GET` and command
issue included. That the block lies at the same address in both spaces is the model's choice (log entry 21). Stated whole for
the 32-bit write and read as well: the register written, and the bytes returned. Those bytes are the least significant first
under either `BYTE_ORDER`: the model's choice, unsafe for a big-endian platform that reverses the registers of a mapped block
(log entry 28). The bus data register is the model's own (log entry 10). -/
def Obligations.MappedAccessReachesRegisters : Prop :=
  ∀ (s : State) (c off : Nat) (bytes : List Byte) (len : Nat) (ov : List Access) (rest : List Event),
    s.cfg.wellFormed = true → s.ctxs.length = s.cfg.nctx → c < s.cfg.nctx → off < 64 → s.cfg.mapped c = true →
    (s.pending = ⟨.write .data (s.cfg.regBase.getD c 0 + off) bytes, ov⟩ :: rest →
      step s = step { s with pending := ⟨.write .regs (s.cfg.regBase.getD c 0 + off) bytes, ov⟩ :: rest } ∧
      ∀ v : Word, bytes = wordBytes v → off % 4 = 0 →
        (off = 0x1C → step s = issue v { s with pending := rest, overlap := ov, report := .ok, issuer := c }) ∧
        (off ≠ 0x1C → step s = .next ({ s with pending := rest, overlap := ov, report := .ok }.setCtx c
          ((s.ctx c).writeReg (Reg.ofOffset off) v)))) ∧
    (s.pending = ⟨.read .data (s.cfg.regBase.getD c 0 + off) len, ov⟩ :: rest →
      step s = step { s with pending := ⟨.read .regs (s.cfg.regBase.getD c 0 + off) len, ov⟩ :: rest } ∧
      (len = 4 → off % 4 = 0 →
        step s = .next { s with
          pending := rest, overlap := ov, report := .ok,
          busData := wordBytes ((s.ctx c).readReg (Reg.ofOffset off)) }))

/-! ### The address width and the byte order as parameters -/

/-- 20_memory.md R63: addresses are unbounded integers and never wrap. A command whose earlier checks hold (60_exceptions.md
R194) and that must access a byte at or beyond `2^AW` faults with `CV_SIZE`, for every `AW`. Of the table of `CVTI` the
alignment of those entries counts that can be read: the model's choice (log entry 16). -/
def Obligations.AddressesDoNotWrap : Prop :=
  ∀ (sc : Bool) (s : State), 0 < s.cur.count.toInt → s.cur.dest.toNat % 2 = 0 → s.cur.src0.toNat % 4 = 0 →
    (2 ^ s.cfg.addrWidth < s.cur.dest.toNat + 2 * s.cur.count.toNat ∨
      2 ^ s.cfg.addrWidth < s.cur.src0.toNat + 4 * s.cur.count.toNat → ∃ a, exec (.cvtm sc) s = .fault (.cvSize a)) ∧
    (s.cur.src1.toNat % 4 = 0 → s.cur.dest.toNat % s.cfg.stereoAlign = 0 → s.cur.src0.toNat % s.cfg.stereoAlign = 0 →
      s.cur.src1.toNat % s.cfg.stereoAlign = 0 →
      2 ^ s.cfg.addrWidth < s.cur.dest.toNat + 2 * (2 * s.cur.count.toNat) ∨
      2 ^ s.cfg.addrWidth < s.cur.src0.toNat + 4 * s.cur.count.toNat ∨
      2 ^ s.cfg.addrWidth < s.cur.src1.toNat + 4 * s.cur.count.toNat → ∃ a, exec (.cvti2 sc) s = .fault (.cvSize a)) ∧
    (0 < s.cur.channels.toInt →
      (∀ c < s.cur.channels.toNat, entryAdmitted s.cfg s.cur.src0.toNat c = true →
        tableEntry s.mem s.cfg.byteOrder s.cur.src0.toNat c % 4 = 0) →
      (2 ^ s.cfg.addrWidth < s.cur.dest.toNat + 2 * (s.cur.channels.toNat * s.cur.count.toNat) ∨
        2 ^ s.cfg.addrWidth < s.cur.src0.toNat + 4 * s.cur.channels.toNat ∨
        ∃ c < s.cur.channels.toNat,
          2 ^ s.cfg.addrWidth < tableEntry s.mem s.cfg.byteOrder s.cur.src0.toNat c + 4 * s.cur.count.toNat) →
      ∃ a, exec (.cvti sc) s = .fault (.cvSize a))

/-- `BYTE_ORDER` as an argument (00_scope.md R6, 93_implementation_defined.md U14): in either order an output reads back as it
was written and touches only its two bytes, and the big-endian byte image is the little-endian one with the bytes of each datum
reversed. That the parameter is taken, and what its other value means, is the model's choice (log entry 28). -/
def Obligations.BigEndianMirrorsBytes : Prop :=
  (∀ (o : ByteOrder) (m : Memory) (a : Nat) (v : Half), m.wf →
    (m.writeHalf o a v).readHalf o a = v ∧
    ∀ c, (c < a ∨ a + 2 ≤ c) → (m.writeHalf o a v).read c = m.read c) ∧
  (∀ (m : Memory) (a : Nat), ∀ k < 4, (m.readWord .big a).extractLsb' (8 * k) 8 = m.read (a + (3 - k))) ∧
  (∀ (m : Memory) (a : Nat) (v : Half), m.wf → ∀ k < 2,
    (m.writeHalf .big a v).read (a + (1 - k)) = v.extractLsb' (8 * k) 8)
end

