-- ==== Sys2Proof/Laws/State.lean ====
section
/-! SUPPORT. One lemma per field per update of State, true by `rfl`, and the laws of the context accessors; later proofs
unfold no record update. -/

namespace Sys2Proof.Machine

/-! ### `setCtx` -/

section
variable (s : State) (c : Nat) (k : Context)

@[simp] theorem State.setCtx_cfg : (s.setCtx c k).cfg = s.cfg := rfl
@[simp] theorem State.setCtx_mem : (s.setCtx c k).mem = s.mem := rfl
@[simp] theorem State.setCtx_pending : (s.setCtx c k).pending = s.pending := rfl
@[simp] theorem State.setCtx_issuer : (s.setCtx c k).issuer = s.issuer := rfl
@[simp] theorem State.setCtx_overlap : (s.setCtx c k).overlap = s.overlap := rfl
@[simp] theorem State.setCtx_busData : (s.setCtx c k).busData = s.busData := rfl
@[simp] theorem State.setCtx_report : (s.setCtx c k).report = s.report := rfl
@[simp] theorem State.setCtx_length : (s.setCtx c k).ctxs.length = s.ctxs.length := by simp [State.setCtx]

theorem State.ctx_setCtx_same (h : c < s.ctxs.length) : (s.setCtx c k).ctx c = k := by
  simp [State.ctx, State.setCtx, List.getD_eq_getElem?_getD, h]

theorem State.ctx_setCtx_other {d : Nat} (h : d ≠ c) : (s.setCtx c k).ctx d = s.ctx d := by
  simp [State.ctx, State.setCtx, List.getD_eq_getElem?_getD, Ne.symm h]

theorem State.setCtx_setCtx (k' : Context) : (s.setCtx c k).setCtx c k' = s.setCtx c k' := by
  simp [State.setCtx]

theorem State.setCtx_self : s.setCtx c (s.ctx c) = s := by
  by_cases h : c < s.ctxs.length
  · simp [State.setCtx, State.ctx, List.getD_eq_getElem?_getD, h]
  · rw [State.setCtx, List.set_eq_of_length_le (by omega)]

/-- The contexts of an updated state are the new one and old ones. -/
theorem State.mem_setCtx {k' : Context} (h : k' ∈ (s.setCtx c k).ctxs) : k' = k ∨ k' ∈ s.ctxs :=
  (List.mem_or_eq_of_mem_set h).symm

end

/-- The contexts numbered below the length are the contexts of the list. -/
theorem State.ctx_mem {s : State} {c : Nat} (h : c < s.ctxs.length) : s.ctx c ∈ s.ctxs := by
  simp [State.ctx, List.getD_eq_getElem?_getD, h]

/-! ### `setCur` -/

section
variable (s : State) (k : Context)

@[simp] theorem State.setCur_cfg : (s.setCur k).cfg = s.cfg := rfl
@[simp] theorem State.setCur_mem : (s.setCur k).mem = s.mem := rfl
@[simp] theorem State.setCur_pending : (s.setCur k).pending = s.pending := rfl
@[simp] theorem State.setCur_issuer : (s.setCur k).issuer = s.issuer := rfl
@[simp] theorem State.setCur_overlap : (s.setCur k).overlap = s.overlap := rfl
@[simp] theorem State.setCur_busData : (s.setCur k).busData = s.busData := rfl
@[simp] theorem State.setCur_report : (s.setCur k).report = s.report := rfl
@[simp] theorem State.setCur_length : (s.setCur k).ctxs.length = s.ctxs.length := s.setCtx_length _ _

theorem State.cur_setCur (h : s.issuer < s.ctxs.length) : (s.setCur k).cur = k :=
  s.ctx_setCtx_same _ k h

theorem State.setCur_setCur (k' : Context) : (s.setCur k).setCur k' = s.setCur k' :=
  s.setCtx_setCtx _ k k'

theorem State.setCur_self : s.setCur s.cur = s := s.setCtx_self _

end

/-! ### The named updates -/

section
variable (s : State)

@[simp] theorem State.withMem_cfg (m : Memory) : (s.withMem m).cfg = s.cfg := rfl
@[simp] theorem State.withMem_ctxs (m : Memory) : (s.withMem m).ctxs = s.ctxs := rfl
@[simp] theorem State.withMem_mem (m : Memory) : (s.withMem m).mem = m := rfl
@[simp] theorem State.withMem_pending (m : Memory) : (s.withMem m).pending = s.pending := rfl
@[simp] theorem State.withMem_issuer (m : Memory) : (s.withMem m).issuer = s.issuer := rfl
@[simp] theorem State.withMem_overlap (m : Memory) : (s.withMem m).overlap = s.overlap := rfl
@[simp] theorem State.withMem_busData (m : Memory) : (s.withMem m).busData = s.busData := rfl
@[simp] theorem State.withMem_report (m : Memory) : (s.withMem m).report = s.report := rfl
@[simp] theorem State.withMem_ctx (m : Memory) (c : Nat) : (s.withMem m).ctx c = s.ctx c := rfl
@[simp] theorem State.withMem_cur (m : Memory) : (s.withMem m).cur = s.cur := rfl
theorem State.setCtx_withMem (m : Memory) (c : Nat) (k : Context) : (s.withMem m).setCtx c k = (s.setCtx c k).withMem m := rfl
theorem State.setCur_withMem (m : Memory) (k : Context) : (s.withMem m).setCur k = (s.setCur k).withMem m := rfl
@[simp] theorem State.withMem_self : s.withMem s.mem = s := rfl
@[simp] theorem State.withMem_withMem (m m' : Memory) : (s.withMem m).withMem m' = s.withMem m' := rfl

@[simp] theorem State.withIssuer_cfg (n : Nat) : (s.withIssuer n).cfg = s.cfg := rfl
@[simp] theorem State.withIssuer_ctxs (n : Nat) : (s.withIssuer n).ctxs = s.ctxs := rfl
@[simp] theorem State.withIssuer_mem (n : Nat) : (s.withIssuer n).mem = s.mem := rfl
@[simp] theorem State.withIssuer_pending (n : Nat) : (s.withIssuer n).pending = s.pending := rfl
@[simp] theorem State.withIssuer_issuer (n : Nat) : (s.withIssuer n).issuer = n := rfl
@[simp] theorem State.withIssuer_overlap (n : Nat) : (s.withIssuer n).overlap = s.overlap := rfl
@[simp] theorem State.withIssuer_busData (n : Nat) : (s.withIssuer n).busData = s.busData := rfl
@[simp] theorem State.withIssuer_report (n : Nat) : (s.withIssuer n).report = s.report := rfl
@[simp] theorem State.withIssuer_ctx (n : Nat) (c : Nat) : (s.withIssuer n).ctx c = s.ctx c := rfl
@[simp] theorem State.withIssuer_cur (n : Nat) : (s.withIssuer n).cur = s.ctx n := rfl
theorem State.setCtx_withIssuer (n : Nat) (c : Nat) (k : Context) : (s.withIssuer n).setCtx c k = (s.setCtx c k).withIssuer n := rfl
@[simp] theorem State.withIssuer_self : s.withIssuer s.issuer = s := rfl
@[simp] theorem State.withIssuer_withIssuer (n n' : Nat) : (s.withIssuer n).withIssuer n' = s.withIssuer n' := rfl

@[simp] theorem State.withBusData_cfg (b : List Byte) : (s.withBusData b).cfg = s.cfg := rfl
@[simp] theorem State.withBusData_ctxs (b : List Byte) : (s.withBusData b).ctxs = s.ctxs := rfl
@[simp] theorem State.withBusData_mem (b : List Byte) : (s.withBusData b).mem = s.mem := rfl
@[simp] theorem State.withBusData_pending (b : List Byte) : (s.withBusData b).pending = s.pending := rfl
@[simp] theorem State.withBusData_issuer (b : List Byte) : (s.withBusData b).issuer = s.issuer := rfl
@[simp] theorem State.withBusData_overlap (b : List Byte) : (s.withBusData b).overlap = s.overlap := rfl
@[simp] theorem State.withBusData_busData (b : List Byte) : (s.withBusData b).busData = b := rfl
@[simp] theorem State.withBusData_report (b : List Byte) : (s.withBusData b).report = s.report := rfl
@[simp] theorem State.withBusData_ctx (b : List Byte) (c : Nat) : (s.withBusData b).ctx c = s.ctx c := rfl
@[simp] theorem State.withBusData_cur (b : List Byte) : (s.withBusData b).cur = s.cur := rfl
theorem State.setCtx_withBusData (b : List Byte) (c : Nat) (k : Context) : (s.withBusData b).setCtx c k = (s.setCtx c k).withBusData b := rfl
theorem State.setCur_withBusData (b : List Byte) (k : Context) : (s.withBusData b).setCur k = (s.setCur k).withBusData b := rfl
@[simp] theorem State.withBusData_self : s.withBusData s.busData = s := rfl
@[simp] theorem State.withBusData_withBusData (b b' : List Byte) : (s.withBusData b).withBusData b' = s.withBusData b' := rfl

@[simp] theorem State.withReport_cfg (r : Report) : (s.withReport r).cfg = s.cfg := rfl
@[simp] theorem State.withReport_ctxs (r : Report) : (s.withReport r).ctxs = s.ctxs := rfl
@[simp] theorem State.withReport_mem (r : Report) : (s.withReport r).mem = s.mem := rfl
@[simp] theorem State.withReport_pending (r : Report) : (s.withReport r).pending = s.pending := rfl
@[simp] theorem State.withReport_issuer (r : Report) : (s.withReport r).issuer = s.issuer := rfl
@[simp] theorem State.withReport_overlap (r : Report) : (s.withReport r).overlap = s.overlap := rfl
@[simp] theorem State.withReport_busData (r : Report) : (s.withReport r).busData = s.busData := rfl
@[simp] theorem State.withReport_report (r : Report) : (s.withReport r).report = r := rfl
@[simp] theorem State.withReport_ctx (r : Report) (c : Nat) : (s.withReport r).ctx c = s.ctx c := rfl
@[simp] theorem State.withReport_cur (r : Report) : (s.withReport r).cur = s.cur := rfl
theorem State.setCtx_withReport (r : Report) (c : Nat) (k : Context) : (s.withReport r).setCtx c k = (s.setCtx c k).withReport r := rfl
theorem State.setCur_withReport (r : Report) (k : Context) : (s.withReport r).setCur k = (s.setCur k).withReport r := rfl
@[simp] theorem State.withReport_self : s.withReport s.report = s := rfl
@[simp] theorem State.withReport_withReport (r r' : Report) : (s.withReport r).withReport r' = s.withReport r' := rfl

end

section
variable (k : Context)

@[simp] theorem Context.withWork_dest (w : Option Work) : (k.withWork w).dest = k.dest := rfl
@[simp] theorem Context.withWork_src0 (w : Option Work) : (k.withWork w).src0 = k.src0 := rfl
@[simp] theorem Context.withWork_src1 (w : Option Work) : (k.withWork w).src1 = k.src1 := rfl
@[simp] theorem Context.withWork_count (w : Option Work) : (k.withWork w).count = k.count := rfl
@[simp] theorem Context.withWork_channels (w : Option Work) : (k.withWork w).channels = k.channels := rfl
@[simp] theorem Context.withWork_sample (w : Option Work) : (k.withWork w).sample = k.sample := rfl
@[simp] theorem Context.withWork_result (w : Option Work) : (k.withWork w).result = k.result := rfl
@[simp] theorem Context.withWork_ill (w : Option Work) : (k.withWork w).ill = k.ill := rfl
@[simp] theorem Context.withWork_rmode (w : Option Work) : (k.withWork w).rmode = k.rmode := rfl
@[simp] theorem Context.withWork_work (w : Option Work) : (k.withWork w).work = w := rfl
@[simp] theorem Context.withWork_self : k.withWork k.work = k := rfl
@[simp] theorem Context.withWork_withWork (w w' : Option Work) : (k.withWork w).withWork w' = k.withWork w' := rfl

@[simp] theorem Context.withRmode_dest (r : BitVec 2) : (k.withRmode r).dest = k.dest := rfl
@[simp] theorem Context.withRmode_src0 (r : BitVec 2) : (k.withRmode r).src0 = k.src0 := rfl
@[simp] theorem Context.withRmode_src1 (r : BitVec 2) : (k.withRmode r).src1 = k.src1 := rfl
@[simp] theorem Context.withRmode_count (r : BitVec 2) : (k.withRmode r).count = k.count := rfl
@[simp] theorem Context.withRmode_channels (r : BitVec 2) : (k.withRmode r).channels = k.channels := rfl
@[simp] theorem Context.withRmode_sample (r : BitVec 2) : (k.withRmode r).sample = k.sample := rfl
@[simp] theorem Context.withRmode_result (r : BitVec 2) : (k.withRmode r).result = k.result := rfl
@[simp] theorem Context.withRmode_ill (r : BitVec 2) : (k.withRmode r).ill = k.ill := rfl
@[simp] theorem Context.withRmode_rmode (r : BitVec 2) : (k.withRmode r).rmode = r := rfl
@[simp] theorem Context.withRmode_work (r : BitVec 2) : (k.withRmode r).work = k.work := rfl
@[simp] theorem Context.withRmode_self : k.withRmode k.rmode = k := rfl
@[simp] theorem Context.withRmode_withRmode (r r' : BitVec 2) : (k.withRmode r).withRmode r' = k.withRmode r' := rfl

@[simp] theorem Context.withIll_dest (b : Bool) : (k.withIll b).dest = k.dest := rfl
@[simp] theorem Context.withIll_src0 (b : Bool) : (k.withIll b).src0 = k.src0 := rfl
@[simp] theorem Context.withIll_src1 (b : Bool) : (k.withIll b).src1 = k.src1 := rfl
@[simp] theorem Context.withIll_count (b : Bool) : (k.withIll b).count = k.count := rfl
@[simp] theorem Context.withIll_channels (b : Bool) : (k.withIll b).channels = k.channels := rfl
@[simp] theorem Context.withIll_sample (b : Bool) : (k.withIll b).sample = k.sample := rfl
@[simp] theorem Context.withIll_result (b : Bool) : (k.withIll b).result = k.result := rfl
@[simp] theorem Context.withIll_ill (b : Bool) : (k.withIll b).ill = b := rfl
@[simp] theorem Context.withIll_rmode (b : Bool) : (k.withIll b).rmode = k.rmode := rfl
@[simp] theorem Context.withIll_work (b : Bool) : (k.withIll b).work = k.work := rfl
@[simp] theorem Context.withIll_self : k.withIll k.ill = k := rfl
@[simp] theorem Context.withIll_withIll (b b' : Bool) : (k.withIll b).withIll b' = k.withIll b' := rfl

@[simp] theorem Context.withResult_dest (v : Word) : (k.withResult v).dest = k.dest := rfl
@[simp] theorem Context.withResult_src0 (v : Word) : (k.withResult v).src0 = k.src0 := rfl
@[simp] theorem Context.withResult_src1 (v : Word) : (k.withResult v).src1 = k.src1 := rfl
@[simp] theorem Context.withResult_count (v : Word) : (k.withResult v).count = k.count := rfl
@[simp] theorem Context.withResult_channels (v : Word) : (k.withResult v).channels = k.channels := rfl
@[simp] theorem Context.withResult_sample (v : Word) : (k.withResult v).sample = k.sample := rfl
@[simp] theorem Context.withResult_result (v : Word) : (k.withResult v).result = v := rfl
@[simp] theorem Context.withResult_ill (v : Word) : (k.withResult v).ill = k.ill := rfl
@[simp] theorem Context.withResult_rmode (v : Word) : (k.withResult v).rmode = k.rmode := rfl
@[simp] theorem Context.withResult_work (v : Word) : (k.withResult v).work = k.work := rfl
@[simp] theorem Context.withResult_self : k.withResult k.result = k := rfl
@[simp] theorem Context.withResult_withResult (v v' : Word) : (k.withResult v).withResult v' = k.withResult v' := rfl

theorem Context.withRmode_withWork (r : BitVec 2) (w : Option Work) :
    (k.withRmode r).withWork w = (k.withWork w).withRmode r := rfl

end

section
variable (w : Work) (r : Option (BitVec 2))

@[simp] theorem Work.withSaved_dest : (w.withSaved r).dest = w.dest := rfl
@[simp] theorem Work.withSaved_bases : (w.withSaved r).bases = w.bases := rfl
@[simp] theorem Work.withSaved_count : (w.withSaved r).count = w.count := rfl
@[simp] theorem Work.withSaved_savedRmode : (w.withSaved r).savedRmode = r := rfl
@[simp] theorem Work.withSaved_index : (w.withSaved r).index = w.index := rfl
@[simp] theorem Work.withSaved_chan : (w.withSaved r).chan = w.chan := rfl
@[simp] theorem Work.withSaved_doneUpto : (w.withSaved r).doneUpto = w.doneUpto := rfl
@[simp] theorem Work.withSaved_lanes : (w.withSaved r).lanes = w.lanes := rfl
@[simp] theorem Work.withSaved_results : (w.withSaved r).results = w.results := rfl
@[simp] theorem Work.withSaved_self : w.withSaved w.savedRmode = w := rfl
@[simp] theorem Work.withSaved_withSaved (r' : Option (BitVec 2)) : (w.withSaved r).withSaved r' = w.withSaved r' := rfl

end

section
variable (s : State)

@[simp] theorem State.takeEvent_cfg (e : Event) (r : List Event) : (s.takeEvent e r).cfg = s.cfg := rfl
@[simp] theorem State.takeEvent_ctxs (e : Event) (r : List Event) : (s.takeEvent e r).ctxs = s.ctxs := rfl
@[simp] theorem State.takeEvent_mem (e : Event) (r : List Event) : (s.takeEvent e r).mem = s.mem := rfl
@[simp] theorem State.takeEvent_pending (e : Event) (r : List Event) : (s.takeEvent e r).pending = r := rfl
@[simp] theorem State.takeEvent_issuer (e : Event) (r : List Event) : (s.takeEvent e r).issuer = s.issuer := rfl
@[simp] theorem State.takeEvent_overlap (e : Event) (r : List Event) : (s.takeEvent e r).overlap = e.overlap := rfl
@[simp] theorem State.takeEvent_busData (e : Event) (r : List Event) : (s.takeEvent e r).busData = s.busData := rfl
@[simp] theorem State.takeEvent_report (e : Event) (r : List Event) : (s.takeEvent e r).report = .ok := rfl
@[simp] theorem State.takeEvent_ctx (e : Event) (r : List Event) (c : Nat) : (s.takeEvent e r).ctx c = s.ctx c := rfl

@[simp] theorem State.resetRegs_cfg : s.resetRegs.cfg = s.cfg := rfl
@[simp] theorem State.resetRegs_ctxs :
    s.resetRegs.ctxs = List.replicate s.cfg.nctx (Context.reset s.cfg.rmodeReset) := rfl
@[simp] theorem State.resetRegs_mem : s.resetRegs.mem = s.mem := rfl
@[simp] theorem State.resetRegs_pending : s.resetRegs.pending = s.pending := rfl
@[simp] theorem State.resetRegs_issuer : s.resetRegs.issuer = s.issuer := rfl
@[simp] theorem State.resetRegs_overlap : s.resetRegs.overlap = s.overlap := rfl
@[simp] theorem State.resetRegs_busData : s.resetRegs.busData = s.busData := rfl
@[simp] theorem State.resetRegs_report : s.resetRegs.report = s.report := rfl

end

/-- After reset every context is as 10_state.md R41 says. -/
theorem State.resetRegs_ctx (s : State) (c : Nat) : s.resetRegs.ctx c = Context.reset s.cfg.rmodeReset := by
  simp only [State.ctx, State.resetRegs_ctxs, State.resetRegs_cfg, List.getD_eq_getElem?_getD, List.getElem?_replicate]
  split <;> rfl

/-! ### Register writes: the fields a write leaves alone -/

section
variable (k : Context) (r : Reg) (v : Word)

/-- No register write touches `RESULT` (10_state.md R29). -/
@[simp] theorem Context.writeReg_result : (k.writeReg r v).result = k.result := by cases r <;> rfl
/-- No register write touches the transient state. -/
@[simp] theorem Context.writeReg_work : (k.writeReg r v).work = k.work := by cases r <;> rfl

theorem Context.writeReg_rmode : (k.writeReg r v).rmode = if r = .rmode then v.extractLsb' 0 2 else k.rmode := by
  cases r <;> rfl

theorem Context.writeReg_ill : (k.writeReg r v).ill = if r = .status then k.ill && !v.getLsbD 0 else k.ill := by
  cases r <;> rfl

@[simp] theorem Context.writeReg_cmd : k.writeReg .cmd v = k := rfl
@[simp] theorem Context.writeReg_readOnly : k.writeReg .result v = k := rfl
@[simp] theorem Context.writeReg_reserved : k.writeReg .reserved v = k := rfl

end

/-! ### A reserved command word -/

section
variable (word : Word) (s : State)

@[simp] theorem illegalCommand_cfg : (illegalCommand word s).cfg = s.cfg := rfl
@[simp] theorem illegalCommand_mem : (illegalCommand word s).mem = s.mem := rfl
@[simp] theorem illegalCommand_pending : (illegalCommand word s).pending = s.pending := rfl
@[simp] theorem illegalCommand_issuer : (illegalCommand word s).issuer = s.issuer := rfl
@[simp] theorem illegalCommand_report : (illegalCommand word s).report = .illegalCmd word := rfl
@[simp] theorem illegalCommand_busData : (illegalCommand word s).busData = s.busData := rfl
@[simp] theorem illegalCommand_overlap : (illegalCommand word s).overlap = s.overlap := rfl
theorem illegalCommand_cur (h : s.issuer < s.ctxs.length) : (illegalCommand word s).cur = s.cur.withIll true :=
  s.cur_setCur _ h
theorem illegalCommand_ctx_other {c : Nat} (h : c ≠ s.issuer) : (illegalCommand word s).ctx c = s.ctx c :=
  s.ctx_setCtx_other _ _ h
@[simp] theorem illegalCommand_length : (illegalCommand word s).ctxs.length = s.ctxs.length := s.setCur_length _

end

end Sys2Proof.Machine
end

