-- ==== Sys2Proof/Laws/Checks.lean ====
section
/-! SUPPORT. The checks of Operands.lean against the preconditions as Safety.lean words them: each command's check finds no
fault exactly when its preconditions hold. -/

namespace Sys2Proof.Machine

/-! ### One check at a time -/

theorem Span.contains_iff (r : Span) (a : Nat) : r.contains a = true ↔ r.base ≤ a ∧ a < r.base + r.len := by
  simp [Span.contains]

/-- Two spans overlap when some byte of the first lies in the second. -/
theorem Span.overlaps_false_iff (r q : Span) : r.overlaps q = false ↔ r.disjoint q := by
  simp only [Span.disjoint, Span.overlaps, Span.contains, Bool.and_eq_false_iff, decide_eq_false_iff_not]
  constructor
  · intro h k hk; omega
  · intro h hlt
    rcases Nat.le_total r.base q.base with hle | hle
    · have := h (q.base - r.base) (by omega); omega
    · have := h 0 (by omega); omega

theorem Span.disjoint_comm (r q : Span) : r.disjoint q ↔ q.disjoint r := by
  rw [← Span.overlaps_false_iff, ← Span.overlaps_false_iff]
  simp only [Span.overlaps, Nat.max_comm r.base, Nat.min_comm (r.base + r.len)]

/-- Disjoint spans by their addresses. -/
theorem Span.disjoint_apart {r q : Span} (h : r.disjoint q) {a : Nat} (hr : r.base ≤ a ∧ a < r.base + r.len) :
    a < q.base ∨ q.base + q.len ≤ a := by
  have := h (a - r.base) (by omega)
  rw [show r.base + (a - r.base) = a by omega] at this
  simp only [Span.contains, Bool.and_eq_false_iff, decide_eq_false_iff_not] at this
  omega

theorem firstUnadmitted_none_iff (g : Config) (d : Dir) (r : Span) :
    firstUnadmitted g d r = none ↔ r.admitted g d := by
  simp [firstUnadmitted, List.find?_eq_none]

/-- Admitted bytes lie in the address space (20_memory.md R63). -/
theorem admits_inSpace {g : Config} {d : Dir} {a : Nat} (h : admits g d a = true) : a < 2 ^ g.addrWidth := by
  simp only [admits, Bool.and_eq_true, decide_eq_true_eq] at h
  exact h.1

theorem alignFault_none_iff (reqs : List AlignReq) : alignFault reqs = none ↔ ∀ r ∈ reqs, r.addr % r.multiple = 0 := by
  simp [alignFault, AlignReq.met, List.find?_eq_none]

theorem sizeFault_none_iff (g : Config) (j : Job) : sizeFault g j = none ↔ j.sized g := by
  simp only [sizeFault, Option.map_eq_none_iff, List.findSome?_eq_none_iff, List.mem_append, List.mem_map,
    List.mem_singleton, Job.sized]
  constructor
  · intro h
    exact ⟨fun r hr => (firstUnadmitted_none_iff g _ r).mp (h (.load, r) (.inl ⟨r, hr, rfl⟩)),
      (firstUnadmitted_none_iff g _ _).mp (h (.store, j.destSpan) (.inr rfl))⟩
  · rintro ⟨h1, h2⟩ u (⟨r, hr, rfl⟩ | rfl)
    · exact (firstUnadmitted_none_iff g _ r).mpr (h1 r hr)
    · exact (firstUnadmitted_none_iff g _ _).mpr h2

theorem anyOverlap_false_iff (l : List Span) : anyOverlap l = false ↔ l.Pairwise Span.disjoint := by
  induction l with
  | nil => simp [anyOverlap]
  | cons r rest ih =>
    rw [anyOverlap, Bool.or_eq_false_iff, ih, List.pairwise_cons]
    refine and_congr_left' ?_
    rw [List.any_eq_false]
    exact forall₂_congr fun q _ => by rw [Bool.not_eq_true, Span.overlaps_false_iff]

theorem overlapFault_none_iff (g : Config) (j : Job) : overlapFault g j = none ↔ j.separate g := by
  have hblocks : ((j.destSpan :: j.readSpans).any (fun r => (mappedBlocks g).any (fun q => r.overlaps q))) = false ↔
      ∀ r ∈ j.destSpan :: j.readSpans, ∀ q ∈ mappedBlocks g, r.disjoint q := by
    simp only [List.any_eq_false, Bool.not_eq_true]
    exact forall₂_congr fun r _ => forall₂_congr fun q _ => Span.overlaps_false_iff r q
  rw [Job.separate, ← hblocks, ← anyOverlap_false_iff, overlapFault]
  cases anyOverlap (j.destSpan :: j.readSpans) <;> simp

theorem raceFault_none_iff (s : State) (j : Job) : raceFault s j = none ↔ j.stable s := by
  simp [raceFault, Job.stable]

theorem countFault_none_iff (k : Context) : countFault k = none ↔ 0 ≤ k.count.toInt := by
  simp [countFault]

theorem channelsFault_none_iff (k : Context) : channelsFault k = none ↔ 0 < k.channels.toInt := by
  simp [channelsFault]

/-! ### Which fault a false precondition gives (60_exceptions.md R191, R194) -/

theorem alignFault_some {reqs : List AlignReq} (h : ∃ r ∈ reqs, r.addr % r.multiple ≠ 0) :
    ∃ a, alignFault reqs = some (.cvAlign a) := by
  rcases h0 : alignFault reqs with _ | f
  · obtain ⟨r, hr, hn⟩ := h
    exact absurd ((alignFault_none_iff reqs).mp h0 r hr) hn
  · rw [alignFault, Option.map_eq_some_iff] at h0
    obtain ⟨r, -, rfl⟩ := h0
    exact ⟨_, rfl⟩

theorem sizeFault_some {g : Config} {j : Job} (h : ¬ j.sized g) : ∃ a, sizeFault g j = some (.cvSize a) := by
  rcases h0 : sizeFault g j with _ | f
  · exact absurd ((sizeFault_none_iff g j).mp h0) h
  · rw [sizeFault, Option.map_eq_some_iff] at h0
    obtain ⟨r, -, rfl⟩ := h0
    exact ⟨_, rfl⟩

theorem overlapFault_some {g : Config} {j : Job} (h : ¬ j.separate g) : overlapFault g j = some .cvOverlap := by
  rcases h0 : overlapFault g j with _ | f
  · exact absurd ((overlapFault_none_iff g j).mp h0) h
  · rw [overlapFault] at h0
    split at h0 <;> cases h0
    rfl

theorem raceFault_some {s : State} {j : Job} (h : ¬ j.stable s) : raceFault s j = some .cvRace := by
  rcases h0 : raceFault s j with _ | f
  · exact absurd ((raceFault_none_iff s j).mp h0) h
  · rw [raceFault] at h0
    split at h0 <;> cases h0
    rfl

/-- The registers of the issuing context are left alone, or a running command suffers `CV_RACE` (44_host_access.md R184). -/
theorem registerFault_none_iff (s : State) :
    registerFault s = none ↔ ∀ a ∈ s.overlap, a.touchesRegs s.cfg s.issuer = false := by
  simp [registerFault]

theorem registerFault_some {s : State} {f : Fault} (h : registerFault s = some f) : f = .cvRace := by
  rw [registerFault] at h
  split at h <;> cases h
  rfl

/-- A stable job's context has its registers to itself. -/
theorem Job.stable_registers {s : State} {j : Job} (h : j.stable s) : registerFault s = none :=
  (registerFault_none_iff s).mpr (fun a ha => (Bool.or_eq_false_iff.mp (h a ha)).1)

/-! ### The checks of a command -/

theorem jobFault_none_iff (s : State) (reqs : List AlignReq) (j : Job) :
    jobFault s reqs j = none ↔ (∀ r ∈ reqs, r.addr % r.multiple = 0) ∧ j.contract s := by
  rw [← alignFault_none_iff, Job.contract, ← sizeFault_none_iff, ← overlapFault_none_iff, ← raceFault_none_iff, jobFault]
  cases alignFault reqs <;> cases sizeFault s.cfg j <;> cases overlapFault s.cfg j <;> simp

/-- `CVTM` finds no fault exactly under its preconditions. -/
theorem cvtmFault_none_iff (s : State) : cvtmFault s = none ↔ CvtmPre s := by
  rw [CvtmPre, ← countFault_none_iff, cvtmFault]
  cases countFault s.cur with
  | some f => simp
  | none => simp [jobFault_none_iff, cvtmAligns, and_assoc]

/-- `CVTI2` finds no fault exactly under its preconditions. -/
theorem cvti2Fault_none_iff (s : State) : cvti2Fault s = none ↔ Cvti2Pre s := by
  rw [Cvti2Pre, ← countFault_none_iff, cvti2Fault]
  cases countFault s.cur with
  | some f => simp
  | none => simp [jobFault_none_iff, cvti2Aligns, and_assoc]

/-! ### The jobs -/

section
variable (s : State)

@[simp] theorem cvtmJob_order : (cvtmJob s).order = s.cfg.byteOrder := rfl
@[simp] theorem cvtmJob_dest : (cvtmJob s).dest = s.cur.dest.toNat := rfl
@[simp] theorem cvtmJob_bases : (cvtmJob s).bases = [s.cur.src0.toNat] := rfl
@[simp] theorem cvtmJob_count : (cvtmJob s).count = s.cur.count.toNat := rfl
@[simp] theorem cvtmJob_chans : (cvtmJob s).chans = 1 := rfl
@[simp] theorem cvti2Job_order : (cvti2Job s).order = s.cfg.byteOrder := rfl
@[simp] theorem cvti2Job_dest : (cvti2Job s).dest = s.cur.dest.toNat := rfl
@[simp] theorem cvti2Job_bases : (cvti2Job s).bases = [s.cur.src0.toNat, s.cur.src1.toNat] := rfl
@[simp] theorem cvti2Job_count : (cvti2Job s).count = s.cur.count.toNat := rfl
@[simp] theorem cvti2Job_chans : (cvti2Job s).chans = 2 := rfl
@[simp] theorem cvtiJob_order : (cvtiJob s).order = s.cfg.byteOrder := rfl
@[simp] theorem cvtiJob_dest : (cvtiJob s).dest = s.cur.dest.toNat := rfl
@[simp] theorem cvtiJob_count : (cvtiJob s).count = s.cur.count.toNat := rfl

end

theorem tableBases_length (m : Memory) (o : ByteOrder) (t n : Nat) : (tableBases m o t n).length = n := by simp [tableBases]

theorem cvtiJob_bases_empty {s : State} (h : s.cur.count = 0) : (cvtiJob s).bases = [] := if_pos h

theorem cvtiJob_bases {s : State} (h : s.cur.count ≠ 0) :
    (cvtiJob s).bases = tableBases s.mem s.cfg.byteOrder s.cur.src0.toNat s.cur.channels.toNat := if_neg h

/-- The bases of `CVTI` are the table's entries. -/
theorem cvtiJob_bases_mem {s : State} {b : Nat} :
    b ∈ (cvtiJob s).bases ↔ ∃ c < (cvtiJob s).chans, tableEntry s.mem s.cfg.byteOrder s.cur.src0.toNat c = b := by
  by_cases h : s.cur.count = 0
  · simp [Job.chans, cvtiJob_bases_empty h]
  · simp [Job.chans, cvtiJob_bases h, tableBases]

theorem cvtiJob_table (s : State) : (cvtiJob s).table = some ⟨s.cur.src0.toNat, 4 * s.cur.channels.toNat⟩ := rfl

/-- The buffers of which a command reads every byte are those it only reads, or none. -/
theorem Job.loadSpans_subset {j : Job} {r : Span} (h : r ∈ j.loadSpans) : r ∈ j.readSpans := by
  rw [Job.loadSpans] at h
  split at h
  · cases h
  · exact h

theorem Job.loadSpans_empty {j : Job} (h : j.count = 0) : j.loadSpans = [] := if_pos h

theorem Job.loadSpans_pos {j : Job} (h : j.count ≠ 0) : j.loadSpans = j.readSpans := if_neg h

/-- A job of `CVTI` that has a channel reads its table, entry by entry. -/
theorem cvtiJob_reads {s : State} {c : Nat} (hc : c < (cvtiJob s).chans) :
    c < s.cur.channels.toNat ∧ ⟨s.cur.src0.toNat, 4 * s.cur.channels.toNat⟩ ∈ (cvtiJob s).loadSpans := by
  by_cases h : s.cur.count = 0
  · rw [Job.chans, cvtiJob_bases_empty h] at hc
    cases hc
  · rw [Job.chans, cvtiJob_bases h, tableBases_length] at hc
    have h0 : (cvtiJob s).count ≠ 0 := fun h' => h (BitVec.eq_of_toNat_eq h')
    exact ⟨hc, by simp [Job.loadSpans_pos h0, Job.readSpans, cvtiJob_table]⟩

/-- A sized table can be read entry by entry. -/
theorem entryAdmitted_of_sized {s : State} (h : (cvtiJob s).sized s.cfg) {c : Nat} (hc : c < (cvtiJob s).chans) :
    entryAdmitted s.cfg s.cur.src0.toNat c = true := by
  rw [entryAdmitted, Option.isNone_iff_eq_none, firstUnadmitted_none_iff]
  intro k hk
  obtain ⟨hlt, hmem⟩ := cvtiJob_reads hc
  have ht := h.1 _ hmem (4 * c + k) (by simp only at hk ⊢; omega)
  simpa [Nat.add_assoc] using ht

/-- `CVTI` finds no fault exactly under its preconditions. -/
theorem cvtiFault_none_iff (s : State) : cvtiFault s = none ↔ CvtiPre s := by
  rw [CvtiPre, ← countFault_none_iff, ← channelsFault_none_iff, cvtiFault]
  cases countFault s.cur with
  | some f => simp
  | none =>
    cases channelsFault s.cur with
    | some f => simp
    | none =>
      simp only [jobFault_none_iff, true_and]
      constructor
      · rintro ⟨hr, hj⟩
        refine ⟨hr ⟨s.cur.dest.toNat, 2⟩ (by simp [cvtiAligns]), hr ⟨s.cur.src0.toNat, 4⟩ (by simp [cvtiAligns]),
          fun b hb => ?_, hj⟩
        obtain ⟨c, hc, rfl⟩ := cvtiJob_bases_mem.mp hb
        refine hr ⟨_, 4⟩ ?_
        simp only [cvtiAligns, List.mem_append, List.mem_map, List.mem_filter, List.mem_range]
        exact .inr ⟨c, ⟨hc, entryAdmitted_of_sized hj.1 hc⟩, rfl⟩
      · rintro ⟨hd, ht, hb, hj⟩
        refine ⟨fun r hr => ?_, hj⟩
        simp only [cvtiAligns, List.mem_append, List.mem_map, List.mem_filter, List.mem_range, List.mem_cons,
          List.not_mem_nil, or_false] at hr
        rcases hr with (rfl | rfl) | ⟨c, ⟨hc, -⟩, rfl⟩
        · exact hd
        · exact ht
        · exact hb _ (cvtiJob_bases_mem.mpr ⟨c, hc, rfl⟩)

end Sys2Proof.Machine
end

