-- ==== Sys2Proof/Laws/Memory.lean ====
section
/-! SUPPORT. The laws of data memory: every operation keeps the canonical form and the address space, a read after a write,
and memories that read alike are equal. -/

namespace Sys2Proof

@[simp] theorem ByteOrder.place_little (n k : Nat) : ByteOrder.little.place n k = k := rfl
@[simp] theorem ByteOrder.place_big (n k : Nat) : ByteOrder.big.place n k = n - 1 - k := rfl

/-- The two bytes of an element are at `a` and `a + 1`, in either order. -/
theorem ByteOrder.place_two (o : ByteOrder) :
    (o.place 2 0 = 0 ∧ o.place 2 1 = 1) ∨ (o.place 2 0 = 1 ∧ o.place 2 1 = 0) := by
  cases o <;> decide

/-- The bytes of a datum are within it. -/
theorem ByteOrder.place_lt (o : ByteOrder) {n k : Nat} (h : k < n) : o.place n k < n := by
  cases o <;> simp only [ByteOrder.place] <;> omega

end Sys2Proof

namespace Sys2Proof.Machine

/-! ### Bytes -/

theorem Memory.read_nil (a : Nat) : Memory.read [] a = unlistedByte := rfl

/-- Below the first listed address everything reads as unlisted. -/
theorem Memory.read_below {m : Memory} {a : Nat} (h : ∀ c ∈ m, a < c.1) : m.read a = unlistedByte := by
  cases m with
  | nil => rfl
  | cons c rest =>
    have hc := h c (by simp)
    obtain ⟨b, v⟩ := c
    simp only [Memory.read]
    rw [if_neg (by simp at hc; omega), if_pos (by simpa using hc)]

theorem Memory.wf_tail {c : Host.Cell} {m : Memory} (h : Memory.wf (c :: m)) : Memory.wf m :=
  ⟨(List.pairwise_cons.mp h.1).2, fun d hd => h.2 d (List.mem_cons_of_mem _ hd)⟩

theorem Memory.wf_head {c : Host.Cell} {m : Memory} (h : Memory.wf (c :: m)) : ∀ d ∈ m, c.1 < d.1 :=
  (List.pairwise_cons.mp h.1).1

/-- Every cell of a written memory is the cell written or one that stood there before. -/
theorem Memory.mem_write {m : Memory} {a : Nat} {x : Byte} {c : Host.Cell} (h : c ∈ m.write a x) :
    (c = (a, x) ∧ x ≠ unlistedByte) ∨ c ∈ m := by
  induction m with
  | nil =>
    simp only [Memory.write] at h
    split at h <;> simp_all
  | cons d rest ih =>
    obtain ⟨b, v⟩ := d
    simp only [Memory.write] at h
    split at h
    · split at h <;> simp_all
    · split at h
      · split at h
        · exact .inr (List.mem_cons_of_mem _ h)
        · rcases List.mem_cons.mp h with h | h
          · exact .inl ⟨h, ‹_›⟩
          · exact .inr (List.mem_cons_of_mem _ h)
      · rcases List.mem_cons.mp h with h | h
        · exact .inr (h ▸ List.mem_cons_self)
        · exact (ih h).imp id (List.mem_cons_of_mem _)

/-- A write keeps the canonical form. -/
theorem Memory.write_wf {m : Memory} (h : m.wf) (a : Nat) (x : Byte) : (m.write a x).wf := by
  refine ⟨?_, fun c hc => (Memory.mem_write hc).elim (fun e => e.1 ▸ e.2) (h.2 c)⟩
  induction m with
  | nil => simp only [Memory.write]; split <;> simp
  | cons d rest ih =>
    obtain ⟨b, v⟩ := d
    have hr := Memory.wf_tail h
    have hh := Memory.wf_head h
    simp only [Memory.write]
    split
    · split
      · exact h.1
      · refine List.pairwise_cons.mpr ⟨fun c hc => ?_, h.1⟩
        rcases List.mem_cons.mp hc with rfl | hc
        · assumption
        · exact Nat.lt_trans (by assumption) (hh c hc)
    · split
      · split
        · exact hr.1
        · subst_vars; exact List.pairwise_cons.mpr ⟨hh, hr.1⟩
      · refine List.pairwise_cons.mpr ⟨fun c hc => ?_, ih hr⟩
        rcases Memory.mem_write hc with ⟨rfl, -⟩ | hc
        · simp only; omega
        · exact hh c hc

/-- A read of the byte just written. -/
theorem Memory.read_write_same {m : Memory} (h : m.wf) (a : Nat) (x : Byte) : (m.write a x).read a = x := by
  induction m with
  | nil =>
    simp only [Memory.write]
    split
    · simp_all [Memory.read]
    · simp [Memory.read]
  | cons d rest ih =>
    obtain ⟨b, v⟩ := d
    simp only [Memory.write]
    split
    · split
      · rename_i hlt hx
        rw [Memory.read_below, hx]
        intro c hc
        rcases List.mem_cons.mp hc with rfl | hc
        · exact hlt
        · exact Nat.lt_trans hlt (Memory.wf_head h c hc)
      · simp [Memory.read]
    · split
      · split
        · rename_i he hx
          subst he
          rw [Memory.read_below (Memory.wf_head h), hx]
        · simp [Memory.read]
      · rename_i h1 h2
        simp only [Memory.read]
        rw [if_neg h2, if_neg h1, ih (Memory.wf_tail h)]

/-- A write leaves every other byte alone. -/
theorem Memory.read_write_other {m : Memory} (h : m.wf) {a c : Nat} (hac : c ≠ a) (x : Byte) :
    (m.write a x).read c = m.read c := by
  induction m with
  | nil => simp only [Memory.write]; split <;> simp [Memory.read, hac]
  | cons d rest ih =>
    obtain ⟨b, v⟩ := d
    simp only [Memory.write]
    split
    · split
      · rfl
      · rename_i hlt _
        simp only [Memory.read]
        rw [if_neg hac]
        split
        · rw [if_neg (by omega), if_pos (by omega)]
        · rfl
    · split
      · rename_i _ he
        subst he
        split
        · simp only [Memory.read]
          rw [if_neg hac]
          split
          · exact Memory.read_below (fun e he => Nat.lt_trans (by assumption) (Memory.wf_head h e he))
          · rfl
        · simp only [Memory.read]; rw [if_neg hac, if_neg hac]
      · simp only [Memory.read]
        rw [ih (Memory.wf_tail h)]

theorem Memory.read_write {m : Memory} (h : m.wf) (a c : Nat) (x : Byte) :
    (m.write a x).read c = if c = a then x else m.read c := by
  split
  · subst_vars; exact Memory.read_write_same h _ x
  · exact Memory.read_write_other h (by assumption) x

/-- Canonical memories that read alike at every address are equal. -/
theorem Memory.ext_read {m n : Memory} (hm : m.wf) (hn : n.wf) (h : ∀ a, m.read a = n.read a) : m = n := by
  induction m generalizing n with
  | nil =>
    cases n with
    | nil => rfl
    | cons d rest =>
      exact absurd (by simpa [Memory.read] using (h d.1).symm) (hn.2 d (by simp))
  | cons c rest ih =>
    cases n with
    | nil => exact absurd (by simpa [Memory.read] using h c.1) (hm.2 c (by simp))
    | cons d rest' =>
      obtain ⟨a, v⟩ := c
      obtain ⟨b, u⟩ := d
      have hv : v ≠ unlistedByte := hm.2 (a, v) (by simp)
      have hu : u ≠ unlistedByte := hn.2 (b, u) (by simp)
      have ha := h a
      have hb := h b
      simp only [Memory.read, if_true] at ha hb
      have hab : a = b := by
        by_contra hne
        rcases Nat.lt_or_gt_of_ne hne with hlt | hlt
        · rw [if_neg hne, if_pos hlt] at ha; exact hv ha
        · rw [if_neg (Ne.symm hne), if_pos hlt] at hb; exact hu hb.symm
      subst hab
      rw [if_pos rfl] at ha
      subst ha
      congr 1
      refine ih (Memory.wf_tail hm) (Memory.wf_tail hn) (fun e => ?_)
      have he := h e
      simp only [Memory.read] at he
      rcases Nat.lt_trichotomy e a with hlt | rfl | hgt
      · rw [Memory.read_below (fun c hc => Nat.lt_trans hlt (Memory.wf_head hm c hc)),
          Memory.read_below (fun c hc => Nat.lt_trans hlt (Memory.wf_head hn c hc))]
      · rw [Memory.read_below (Memory.wf_head hm), Memory.read_below (Memory.wf_head hn)]
      · rwa [if_neg (by omega), if_neg (by omega), if_neg (by omega), if_neg (by omega)] at he

/-! ### The address space (20_memory.md R50) -/

/-- Every listed address lies below `2^32`. -/
abbrev Memory.inSpace (m : Memory) (n : Nat) : Prop := ∀ c ∈ m, c.1 < n

theorem Memory.write_inSpace {m : Memory} {n : Nat} (h : m.inSpace n) {a : Nat} (ha : a < n) (x : Byte) :
    (m.write a x).inSpace n := by
  intro c hc
  rcases Memory.mem_write hc with ⟨rfl, -⟩ | hc
  · exact ha
  · exact h c hc

/-- A listed byte reads as it is listed. -/
theorem Memory.read_mem {m : Memory} (h : m.wf) {c : Host.Cell} (hc : c ∈ m) : m.read c.1 = c.2 := by
  induction m with
  | nil => cases hc
  | cons d rest ih =>
    obtain ⟨b, v⟩ := d
    rw [Memory.read]
    rcases List.mem_cons.mp hc with rfl | hc'
    · exact if_pos rfl
    · have hlt : b < c.1 := Memory.wf_head h c hc'
      rw [if_neg (by omega), if_neg (by omega)]
      exact ih (Memory.wf_tail h) hc'

/-- A canonical memory lies in the address space when nothing beyond it reads as written. -/
theorem Memory.inSpace_iff {m : Memory} {n : Nat} (h : m.wf) : m.inSpace n ↔ ∀ a, n ≤ a → m.read a = unlistedByte := by
  constructor
  · intro hs a ha
    by_contra hne
    have key : ∀ l : Memory, (∀ c ∈ l, c.1 < n) → l.read a = unlistedByte := by
      intro l hl
      induction l with
      | nil => rfl
      | cons d rest ih =>
        obtain ⟨b, v⟩ := d
        have hb : b < n := hl (b, v) (by simp)
        rw [Memory.read, if_neg (by omega), if_neg (by omega)]
        exact ih (fun c hc => hl c (by simp [hc]))
    exact hne (key m hs)
  · intro hs c hc
    by_contra hge
    exact h.2 c hc ((Memory.read_mem h hc).symm.trans (hs c.1 (by omega)))

/-! ### Byte strings -/

theorem Memory.writeBytes_wf {m : Memory} (h : m.wf) (a : Nat) (bs : List Byte) : (m.writeBytes a bs).wf := by
  induction bs generalizing m a with
  | nil => exact h
  | cons b rest ih => exact ih (Memory.write_wf h a b) (a + 1)

theorem Memory.writeBytes_inSpace {m : Memory} {n : Nat} (h : m.inSpace n) {a : Nat} {bs : List Byte}
    (ha : ∀ k < bs.length, a + k < n) : (m.writeBytes a bs).inSpace n := by
  induction bs generalizing m a with
  | nil => exact h
  | cons b rest ih =>
    refine ih (Memory.write_inSpace h (by simpa using ha 0 (by simp)) b) (fun k hk => ?_)
    have := ha (k + 1) (by simpa using hk)
    omega

/-- A byte after a string of bytes is stored: the string's own byte inside, the old byte outside. -/
theorem Memory.read_writeBytes {m : Memory} (h : m.wf) (a : Nat) (bs : List Byte) (c : Nat) :
    (m.writeBytes a bs).read c =
      if a ≤ c ∧ c < a + bs.length then bs.getD (c - a) unlistedByte else m.read c := by
  induction bs generalizing m a with
  | nil => rw [if_neg (by simp)]; rfl
  | cons b rest ih =>
    rw [Memory.writeBytes, ih (Memory.write_wf h a b), Memory.read_write h]
    simp only [List.length_cons]
    rcases Nat.lt_trichotomy c a with hlt | rfl | hgt
    · rw [if_neg (by omega), if_neg (by omega), if_neg (by omega)]
    · rw [if_neg (by omega), if_pos rfl, if_pos (by omega)]; simp
    · by_cases hin : c < a + 1 + rest.length
      · rw [if_pos (by omega), if_pos (by omega), show c - a = (c - (a + 1)) + 1 by omega]; simp
      · rw [if_neg (by omega), if_neg (by omega), if_neg (by omega)]

/-! ### Elements -/

section
variable {m : Memory} (o : ByteOrder)

theorem Memory.writeHalf_wf (h : m.wf) (a : Nat) (v : Half) : (m.writeHalf o a v).wf :=
  Memory.write_wf (Memory.write_wf h _ _) _ _

theorem Memory.writeHalf_inSpace {n : Nat} (h : m.inSpace n) {a : Nat} (ha : a + 1 < n) (v : Half) :
    (m.writeHalf o a v).inSpace n := by
  have := o.place_two
  exact Memory.write_inSpace (Memory.write_inSpace h (by omega) _) (by omega) _

/-- A byte after an element is stored. -/
theorem Memory.read_writeHalf (h : m.wf) (a : Nat) (v : Half) (c : Nat) :
    (m.writeHalf o a v).read c =
      if c = a + o.place 2 0 then v.extractLsb' 0 8 else if c = a + o.place 2 1 then v.extractLsb' 8 8 else m.read c := by
  rw [Memory.writeHalf, Memory.read_write (Memory.write_wf h _ _), Memory.read_write h]
  by_cases h1 : c = a + o.place 2 0
  · have := o.place_two
    rw [if_neg (by omega), if_pos h1, if_pos h1]
  · rw [if_neg h1, if_neg h1]

theorem Memory.read_writeHalf_other (h : m.wf) {a c : Nat} (v : Half) (hc : c < a ∨ a + 1 < c) :
    (m.writeHalf o a v).read c = m.read c := by
  have := o.place_two
  rw [Memory.read_writeHalf o h, if_neg (by omega), if_neg (by omega)]

/-- An element read back (20_memory.md R52). -/
theorem Memory.readHalf_writeHalf_same (h : m.wf) (a : Nat) (v : Half) : (m.writeHalf o a v).readHalf o a = v := by
  have := o.place_two
  rw [Memory.readHalf, Memory.read_writeHalf o h, Memory.read_writeHalf o h, if_neg (by omega), if_pos rfl, if_pos rfl]
  refine BitVec.eq_of_getLsbD_eq (fun i hi => ?_)
  rw [BitVec.getLsbD_append]
  rcases Nat.lt_or_ge i 8 with h8 | h8
  · simp [h8]
  · simp [show ¬ i < 8 by omega, show i - 8 < 8 by omega, show 8 + (i - 8) = i by omega]

/-- Equal elements have equal bytes. -/
theorem Memory.read_of_readHalf {n : Memory} {a : Nat} (h : m.readHalf o a = n.readHalf o a) :
    m.read a = n.read a ∧ m.read (a + 1) = n.read (a + 1) := by
  have hbits : ∀ i, (m.readHalf o a).getLsbD i = (n.readHalf o a).getLsbD i := fun i => by rw [h]
  simp only [Memory.readHalf, BitVec.getLsbD_append] at hbits
  have h0 : m.read (a + o.place 2 0) = n.read (a + o.place 2 0) :=
    BitVec.eq_of_getLsbD_eq (fun i hi => by simpa [hi] using hbits i)
  have h1 : m.read (a + o.place 2 1) = n.read (a + o.place 2 1) :=
    BitVec.eq_of_getLsbD_eq (fun i hi => by simpa [hi] using hbits (8 + i))
  rcases o.place_two with ⟨e0, e1⟩ | ⟨e0, e1⟩ <;> rw [e0] at h0 <;> rw [e1] at h1
  · exact ⟨h0, h1⟩
  · exact ⟨h1, h0⟩

/-- An element depends on its two bytes alone. -/
theorem Memory.readHalf_congr {n : Memory} {a : Nat} (h0 : m.read a = n.read a) (h1 : m.read (a + 1) = n.read (a + 1)) :
    m.readHalf o a = n.readHalf o a := by
  rw [Memory.readHalf, Memory.readHalf]
  rcases o.place_two with ⟨e0, e1⟩ | ⟨e0, e1⟩ <;> simp only [e0, e1, Nat.add_zero, h0, h1]

/-- Two halves at addresses two or more apart do not touch. -/
theorem Memory.readHalf_writeHalf_other (h : m.wf) {a b : Nat} (v : Half) (hab : b + 1 < a ∨ a + 1 < b) :
    (m.writeHalf o a v).readHalf o b = m.readHalf o b :=
  Memory.readHalf_congr o (Memory.read_writeHalf_other o h v (by omega)) (Memory.read_writeHalf_other o h v (by omega))

/-- A word depends on its four bytes alone. -/
theorem Memory.readWord_congr {n : Memory} {a : Nat} (h : ∀ k < 4, m.read (a + k) = n.read (a + k)) :
    m.readWord o a = n.readWord o a := by
  have hk : ∀ k < 4, m.read (a + o.place 4 k) = n.read (a + o.place 4 k) := fun k hk => h _ (o.place_lt hk)
  simp only [Memory.readWord, hk 0 (by omega), hk 1 (by omega), hk 2 (by omega), hk 3 (by omega)]

/-- An element read is unchanged by a store that shares no byte with it. -/
theorem Memory.readWord_writeHalf_other (h : m.wf) {a b : Nat} (v : Half) (hab : b + 3 < a ∨ a + 1 < b) :
    (m.writeHalf o a v).readWord o b = m.readWord o b :=
  Memory.readWord_congr o (fun _ hk => Memory.read_writeHalf_other o h v (by omega))

/-! ### Lists of elements -/

@[simp] theorem Memory.writeHalves_nil : m.writeHalves o [] = m := rfl

@[simp] theorem Memory.writeHalves_cons (p : Nat × Half) (l : List (Nat × Half)) :
    m.writeHalves o (p :: l) = (m.writeHalf o p.1 p.2).writeHalves o l := rfl

theorem Memory.writeHalves_append (l k : List (Nat × Half)) :
    m.writeHalves o (l ++ k) = (m.writeHalves o l).writeHalves o k := by
  simp [Memory.writeHalves, List.foldl_append]

end

theorem Memory.writeHalves_wf {m : Memory} (o : ByteOrder) (h : m.wf) (l : List (Nat × Half)) : (m.writeHalves o l).wf := by
  induction l generalizing m with
  | nil => exact h
  | cons p rest ih => exact ih (Memory.writeHalf_wf o h _ _)

theorem Memory.writeHalves_inSpace {m : Memory} {n : Nat} (o : ByteOrder) (h : m.inSpace n) {l : List (Nat × Half)}
    (hl : ∀ p ∈ l, p.1 + 1 < n) : (m.writeHalves o l).inSpace n := by
  induction l generalizing m with
  | nil => exact h
  | cons p rest ih =>
    exact ih (Memory.writeHalf_inSpace o h (hl p (by simp)) _) (fun q hq => hl q (by simp [hq]))

/-- A byte outside every element stored is unchanged. -/
theorem Memory.read_writeHalves_other {m : Memory} (o : ByteOrder) (h : m.wf) {l : List (Nat × Half)} {c : Nat}
    (hc : ∀ p ∈ l, c < p.1 ∨ p.1 + 1 < c) : (m.writeHalves o l).read c = m.read c := by
  induction l generalizing m with
  | nil => rfl
  | cons p rest ih =>
    rw [Memory.writeHalves_cons, ih (Memory.writeHalf_wf o h _ _) (fun q hq => hc q (by simp [hq])),
      Memory.read_writeHalf_other o h _ (hc p (by simp))]

end Sys2Proof.Machine
end

