-- ==== Sys2Proof/Laws/Flow.lean ====
section
/-! SUPPORT. What a running command does, said once: the loops by their invariants, and a whole command as one change of
memory with the rounding mode restored. -/

namespace Sys2Proof.Machine

/-! ### The loops -/

/-- What holds before the batch loop and is kept by each block of a full `width` holds after it. -/
theorem batchLoop_inv {P : Work → Memory → Prop} {block : Work → Memory → Work × Memory} {width : Nat}
    (hstep : ∀ w m, P w m → width ≤ w.count - w.index → P (block w m).1 (block w m).2) :
    ∀ (fuel : Nat) (w : Work) (m : Memory), P w m →
      P (batchLoop block width fuel w m).1 (batchLoop block width fuel w m).2 := by
  intro fuel
  induction fuel with
  | zero => exact fun _ _ h => h
  | succ k ih =>
    intro w m h
    rw [batchLoop]
    split
    · exact ih _ _ (hstep w m h ‹_›)
    · exact h

/-- What holds before the tail loop and is kept by each remaining frame holds after it. -/
theorem tailLoop_inv {P : Work → Memory → Prop} {frame : Work → Memory → Work × Memory}
    (hstep : ∀ w m, P w m → w.index < w.count → P (frame w m).1 (frame w m).2) :
    ∀ (fuel : Nat) (w : Work) (m : Memory), P w m →
      P (tailLoop frame fuel w m).1 (tailLoop frame fuel w m).2 := by
  intro fuel
  induction fuel with
  | zero => exact fun _ _ h => h
  | succ k ih =>
    intro w m h
    rw [tailLoop]
    split
    · exact ih _ _ (hstep w m h ‹_›)
    · exact h

/-- With enough fuel the tail loop leaves no frame. -/
theorem tailLoop_done {frame : Work → Memory → Work × Memory}
    (hi : ∀ w m, (frame w m).1.index = w.index + 1) (hn : ∀ w m, (frame w m).1.count = w.count) :
    ∀ (fuel : Nat) (w : Work) (m : Memory), w.count - w.index ≤ fuel →
      (tailLoop frame fuel w m).1.count ≤ (tailLoop frame fuel w m).1.index := by
  intro fuel
  induction fuel with
  | zero => intro w m h; simp only [tailLoop]; omega
  | succ k ih =>
    intro w m h
    rw [tailLoop]
    split
    · exact ih _ _ (by rw [hi, hn]; omega)
    · exact Nat.le_of_not_lt ‹_›

/-- With enough fuel the batch loop leaves less than a full block (41_batch_convert.md R134). -/
theorem batchLoop_done {block : Work → Memory → Work × Memory} {width : Nat} (hw : 1 ≤ width)
    (hi : ∀ w m, (block w m).1.index = w.index + width) (hn : ∀ w m, (block w m).1.count = w.count) :
    ∀ (fuel : Nat) (w : Work) (m : Memory), w.count - w.index ≤ fuel →
      (batchLoop block width fuel w m).1.count - (batchLoop block width fuel w m).1.index < width := by
  intro fuel
  induction fuel with
  | zero => intro w m h; simp only [batchLoop]; omega
  | succ k ih =>
    intro w m h
    rw [batchLoop]
    split
    · exact ih _ _ (by rw [hi, hn]; omega)
    · exact Nat.lt_of_not_le ‹_›

/-- A stage run channel by channel: an invariant that may speak of the channels done. -/
theorem overChannels_inv {P : Nat → Work → Memory → Prop} {stage : Nat → Work → Memory → Work × Memory} {w : Work}
    {m : Memory} (h0 : P 0 w m)
    (hstep : ∀ c w' m', c < w.bases.length → P c w' m' → P (c + 1) (stage c w' m').1 (stage c w' m').2) :
    P w.bases.length (overChannels stage w m).1 (overChannels stage w m).2 := by
  have key : ∀ k, k ≤ w.bases.length → P k ((List.range k).foldl (fun r c => stage c r.1 r.2) (w, m)).1
      ((List.range k).foldl (fun r c => stage c r.1 r.2) (w, m)).2 := by
    intro k
    induction k with
    | zero => exact fun _ => h0
    | succ k ih =>
      intro hk
      rw [List.range_succ, List.foldl_append]
      exact hstep k _ _ (by omega) (ih (by omega))
  exact key _ (Nat.le_refl _)

/-! ### A whole command -/

section
variable (s : State)

@[simp] theorem State.startWork_cfg (w : Work) : (s.startWork w).cfg = s.cfg := rfl
@[simp] theorem State.endWork_cfg : s.endWork.cfg = s.cfg := rfl

@[simp] theorem State.onWork_cfg (stage : Work → Memory → Work × Memory) : (s.onWork stage).cfg = s.cfg := by
  unfold State.onWork; split <;> rfl

@[simp] theorem State.installMode_cfg : s.installMode.cfg = s.cfg := by
  unfold State.installMode; split
  · split <;> rfl
  · rfl

@[simp] theorem State.restoreMode_cfg : s.restoreMode.cfg = s.cfg := by
  unfold State.restoreMode; split
  · rfl
  · split <;> rfl

end

/-- A command changes no parameter, from any state (10_state.md R20). -/
@[simp] theorem runCommand_cfg (sc : Bool) (w : Work) (batch tail : Work → Memory → Work × Memory) (s : State) :
    (runCommand sc w batch tail s).cfg = s.cfg := by
  unfold runCommand
  by_cases hb : usesBatch s.cfg sc <;> simp [hb]

/-- The memory a command ends with. -/
def commandMem (sc : Bool) (w : Work) (batch tail : Work → Memory → Work × Memory) (s : State) : Memory :=
  if usesBatch s.cfg sc then
    let w0 := if s.cfg.impl = .vecModeSwitch then w.withSaved (some s.cur.rmode) else w
    (tail ((batch w0 s.mem).1.withSaved none) (batch w0 s.mem).2).2
  else (tail w s.mem).2

/-- A command that starts in an idle context changes memory and nothing else: operands stay, the rounding mode is restored
whatever the strategy, and no transient state is left (10_state.md R34, R38, R40, 41_batch_convert.md R135). -/
theorem runCommand_eq {sc : Bool} {w : Work} {batch tail : Work → Memory → Work × Memory} {s : State}
    (hi : s.issuer < s.ctxs.length) (hwork : s.cur.work = none) (hsaved : w.savedRmode = none)
    (hbatch : ∀ w m, (batch w m).1.savedRmode = w.savedRmode) :
    runCommand sc w batch tail s = s.withMem (commandMem sc w batch tail s) := by
  have hcur : s.cur.withWork none = s.cur := by rw [← hwork]; rfl
  have hnone : ∀ m, (batch w m).1.withSaved none = (batch w m).1 := fun m => by
    rw [← hsaved, ← hbatch w m]; rfl
  by_cases hb : usesBatch s.cfg sc
  · by_cases hm : s.cfg.impl = .vecModeSwitch
    · simp [runCommand, commandMem, hb, hm, State.startWork, State.installMode, State.onWork, State.restoreMode,
        State.endWork, State.cur_setCur, State.setCur_setCur, State.setCur_withMem, hi, hbatch, hcur,
        Context.withRmode_withWork, State.setCur_self]
    · simp [runCommand, commandMem, hb, hm, State.startWork, State.installMode, State.onWork, State.restoreMode,
        State.endWork, State.cur_setCur, State.setCur_setCur, State.setCur_withMem, hi, hbatch, hsaved, hcur, hnone,
        State.setCur_self]
  · simp [runCommand, commandMem, hb, State.startWork, State.onWork, State.endWork, State.cur_setCur,
      State.setCur_setCur, State.setCur_withMem, hi, hcur, State.setCur_self]

end Sys2Proof.Machine
end

