-- ==== Sys2Proof/Laws/Elements.lean ====
section
/-! SUPPORT. Which elements a command has converted: `Converted` says it of a memory, and each stage of the commands is
shown to extend it. The batch stages take as a premise that the lane algorithm agrees with the scalar conversion
(41_batch_convert.md R133). -/

namespace Sys2Proof.Machine

/-- The address of destination element `(c, f)` of a job. -/
abbrev Job.dst (j : Job) (c f : Nat) : Nat := dstAddr j.dest j.chans c f

/-- The address of source element `(c, f)` of a job. -/
abbrev Job.src (j : Job) (c f : Nat) : Nat := srcAddr j.bases c f

/-- The word a destination element receives, from the memory the command started with. -/
abbrev Job.out (j : Job) (m0 : Memory) (c f : Nat) : Half := int16 (cvt (m0.readWord j.order (j.src c f)))

/-- `m` is `m0` with exactly the destination elements in `S` converted. -/
structure Converted (j : Job) (m0 m : Memory) (S : Nat → Nat → Prop) : Prop where
  wf : m.wf
  done : ∀ c f, c < j.chans → f < j.count → S c f → m.readHalf j.order (j.dst c f) = j.out m0 c f
  rest : ∀ a, (∀ c f, c < j.chans → f < j.count → S c f → a < j.dst c f ∨ j.dst c f + 1 < a) → m.read a = m0.read a

/-- No source element shares a byte with a destination element. -/
def Job.apart (j : Job) : Prop :=
  ∀ c f c' f', c < j.chans → f < j.count → c' < j.chans → f' < j.count →
    j.src c f + 3 < j.dst c' f' ∨ j.dst c' f' + 1 < j.src c f

/-! ### Addresses -/

theorem elem_lt {n k c f : Nat} (hc : c < n) (hf : f < k) : f * n + c < n * k := by
  calc f * n + c < f * n + n := by omega
    _ = (f + 1) * n := by rw [Nat.succ_mul]
    _ ≤ k * n := Nat.mul_le_mul_right n hf
    _ = n * k := Nat.mul_comm k n

theorem elem_inj {n c c' f f' : Nat} (hc : c < n) (hc' : c' < n) (h : f * n + c = f' * n + c') : c = c' ∧ f = f' := by
  have hm := congrArg (· % n) h
  have hd := congrArg (· / n) h
  simp only [Nat.mul_comm _ n, Nat.mul_add_mod, Nat.mod_eq_of_lt hc, Nat.mod_eq_of_lt hc',
    Nat.mul_add_div (Nat.lt_of_le_of_lt (Nat.zero_le _) hc), Nat.div_eq_of_lt hc, Nat.div_eq_of_lt hc', Nat.add_zero]
    at hm hd
  exact ⟨hm, hd⟩

/-- Different destination elements share no byte (20_memory.md R57). -/
theorem Job.dst_apart {j : Job} {c f c' f' : Nat} (hc : c < j.chans) (hc' : c' < j.chans) (h : ¬ (c = c' ∧ f = f')) :
    j.dst c f + 1 < j.dst c' f' ∨ j.dst c' f' + 1 < j.dst c f := by
  have hne : f * j.chans + c ≠ f' * j.chans + c' := fun e => h (elem_inj hc hc' e)
  simp only [Job.dst, dstAddr]
  omega

/-- A destination element lies in the destination buffer. -/
theorem Job.dst_in {j : Job} {c f : Nat} (hc : c < j.chans) (hf : f < j.count) :
    j.dest ≤ j.dst c f ∧ j.dst c f + 1 < j.dest + j.destSpan.len := by
  have := elem_lt hc hf
  simp only [Job.dst, dstAddr, Job.destSpan]
  omega

/-- Buffers that keep the contract are apart (20_memory.md R59(b)). -/
theorem Job.apart_of_separate {j : Job} {g : Config} (h : j.separate g) : j.apart := by
  intro c f c' f' hc hf hc' hf'
  have hd := Job.dst_in hc' hf'
  have hbase : j.bases.getD c 0 = j.bases[c] := by simp [List.getD_eq_getElem?_getD, hc]
  have hmem : (⟨j.bases[c], 4 * j.count⟩ : Span) ∈ j.readSpans := by
    simp only [Job.readSpans, Job.srcSpans, List.mem_append, List.mem_map]
    exact .inr ⟨_, List.getElem_mem hc, rfl⟩
  have hsep := (List.pairwise_cons.mp h.1).1 _ hmem
  have h1 := Span.disjoint_apart hsep (a := j.dst c' f') ⟨hd.1, by simp only [Job.destSpan] at hd ⊢; omega⟩
  have h2 := Span.disjoint_apart hsep (a := j.dst c' f' + 1)
    ⟨Nat.le_succ_of_le hd.1, by simp only [Job.destSpan] at hd ⊢; omega⟩
  simp only [Job.src, srcAddr, hbase] at *
  omega

/-! ### Elements -/

theorem Converted.start {j : Job} {m0 : Memory} (h : m0.wf) : Converted j m0 m0 (fun _ _ => False) :=
  ⟨h, fun _ _ _ _ h => h.elim, fun _ _ => rfl⟩

/-- Membership in the set of elements counts only inside the job. -/
theorem Converted.congr {j : Job} {m0 m : Memory} {S T : Nat → Nat → Prop} (h : Converted j m0 m S)
    (hST : ∀ c f, c < j.chans → f < j.count → (S c f ↔ T c f)) : Converted j m0 m T :=
  ⟨h.wf, fun c f hc hf ht => h.done c f hc hf ((hST c f hc hf).mpr ht),
    fun a ha => h.rest a (fun c f hc hf hs => ha c f hc hf ((hST c f hc hf).mp hs))⟩

/-- The sources read as they did at the start. -/
theorem Converted.source {j : Job} {m0 m : Memory} {S : Nat → Nat → Prop} (h : Converted j m0 m S) (ha : j.apart)
    {c f : Nat} (hc : c < j.chans) (hf : f < j.count) : m.readWord j.order (j.src c f) = m0.readWord j.order (j.src c f) := by
  refine Memory.readWord_congr _ (fun k hk => h.rest _ (fun c' f' hc' hf' _ => ?_))
  have := ha c f c' f' hc hf hc' hf'
  omega

/-- Storing one more element's word. -/
theorem Converted.store {j : Job} {m0 m : Memory} {S : Nat → Nat → Prop} (h : Converted j m0 m S)
    {c f : Nat} (hc : c < j.chans) (hf : f < j.count) :
    Converted j m0 (m.writeHalf j.order (j.dst c f) (j.out m0 c f)) (fun c' f' => S c' f' ∨ (c' = c ∧ f' = f)) where
  wf := Memory.writeHalf_wf _ h.wf _ _
  done := by
    intro c' f' hc' hf' hS
    by_cases he : c' = c ∧ f' = f
    · obtain ⟨rfl, rfl⟩ := he
      exact Memory.readHalf_writeHalf_same _ h.wf _ _
    · rw [Memory.readHalf_writeHalf_other _ h.wf _ (Job.dst_apart hc' hc he)]
      exact h.done c' f' hc' hf' (hS.resolve_right he)
  rest := by
    intro a ha
    rw [Memory.read_writeHalf_other _ h.wf _ (ha c f hc hf (.inr ⟨rfl, rfl⟩))]
    exact h.rest a (fun c' f' hc' hf' hS => ha c' f' hc' hf' (.inl hS))

/-- Storing a list of elements' words. -/
theorem Converted.stores {j : Job} {m0 : Memory} (l : List (Nat × Nat)) :
    ∀ {m : Memory} {S : Nat → Nat → Prop}, Converted j m0 m S → (∀ p ∈ l, p.1 < j.chans ∧ p.2 < j.count) →
      Converted j m0 (m.writeHalves j.order (l.map (fun p => (j.dst p.1 p.2, j.out m0 p.1 p.2))))
        (fun c f => S c f ∨ (c, f) ∈ l) := by
  induction l with
  | nil => exact fun h _ => h.congr (by simp)
  | cons p rest ih =>
    intro m S h hl
    have hp := hl p (by simp)
    rw [List.map_cons, Memory.writeHalves_cons]
    refine (ih (h.store hp.1 hp.2) (fun q hq => hl q (by simp [hq]))).congr (fun c f _ _ => ?_)
    rw [List.mem_cons, or_assoc, Prod.ext_iff]

/-- Two memories with all elements converted from the same start are equal. -/
theorem Converted.unique {j : Job} {m0 m m' : Memory} (h : Converted j m0 m (fun _ _ => True))
    (h' : Converted j m0 m' (fun _ _ => True)) : m = m' := by
  refine Memory.ext_read h.wf h'.wf (fun a => ?_)
  by_cases ha : ∀ c f, c < j.chans → f < j.count → True → a < j.dst c f ∨ j.dst c f + 1 < a
  · rw [h.rest a ha, h'.rest a ha]
  · simp only [not_forall] at ha
    obtain ⟨c, f, hc, hf, -, hin⟩ := ha
    have he := (h.done c f hc hf trivial).trans (h'.done c f hc hf trivial).symm
    rcases show a = j.dst c f ∨ a = j.dst c f + 1 by omega with rfl | rfl
    · exact (Memory.read_of_readHalf _ he).1
    · exact (Memory.read_of_readHalf _ he).2

/-! ### The working state of a job -/

/-- The working copies are those of the job. -/
structure WorksOn (j : Job) (w : Work) : Prop where
  dest : w.dest = j.dest
  bases : w.bases = j.bases
  count : w.count = j.count

/-- A block of a channel converts the block's frames of that channel. -/
theorem channelBlock_converted {j : Job} {m0 : Memory} (ha : j.apart) {impl : Impl} (hb : ∀ x, blane impl x = cvt x)
    {width : Nat} {w : Work} {m : Memory} {S : Nat → Nat → Prop} (hw : WorksOn j w) (hc : w.chan < j.chans)
    (hf : w.index + width ≤ j.count) (h : Converted j m0 m S) :
    Converted j m0 (channelBlock j.order impl width w m).2
      (fun c f => S c f ∨ (c = w.chan ∧ w.index ≤ f ∧ f < w.index + width)) := by
  have hl : ∀ p ∈ (blockFrames w.index width).map (fun f => (w.chan, f)), p.1 < j.chans ∧ p.2 < j.count := by
    simp only [blockFrames, List.map_map, List.mem_map, List.mem_range]
    rintro _ ⟨l, hl, rfl⟩
    exact ⟨hc, by simp only [Function.comp]; omega⟩
  have hlist : ((blockFrames w.index width).map (fun f => dstAddr w.dest w.bases.length w.chan f)).zip
      (((blockFrames w.index width).map (fun f => m.readWord j.order (srcAddr w.bases w.chan f))).map
        (fun b => int16 (blane impl b))) =
      ((blockFrames w.index width).map (fun f => (w.chan, f))).map
        (fun p => (j.dst p.1 p.2, j.out m0 p.1 p.2)) := by
    rw [List.map_map, List.zip_map', List.map_map]
    refine List.map_congr_left (fun f hfm => ?_)
    have hf' := (hl (w.chan, f) (List.mem_map.mpr ⟨f, hfm, rfl⟩)).2
    simp only [Function.comp, hb, hw.dest, hw.bases, Job.dst, Job.out, Job.src, h.source ha hc hf']
  rw [channelBlock]
  simp only [hlist]
  refine (h.stores _ hl).congr (fun c f _ _ => or_congr_right ?_)
  simp only [blockFrames, List.map_map, List.mem_map, List.mem_range, Function.comp, Prod.mk.injEq]
  constructor
  · rintro ⟨l, hl, rfl, rfl⟩; exact ⟨rfl, by omega, by omega⟩
  · rintro ⟨rfl, h1, h2⟩; exact ⟨f - w.index, by omega, rfl, by omega⟩

/-- The scalar converter converts one element. -/
theorem convertSample_converted {j : Job} {m0 : Memory} (ha : j.apart) {w : Work} {m : Memory} {S : Nat → Nat → Prop}
    (hw : WorksOn j w) {c f : Nat} (hc : c < j.chans) (hf : f < j.count) (h : Converted j m0 m S) :
    Converted j m0 (convertSample j.order w c f m) (fun c' f' => S c' f' ∨ (c' = c ∧ f' = f)) := by
  have hv : m.readWord j.order (srcAddr j.bases c f) = m0.readWord j.order (srcAddr j.bases c f) := h.source ha hc hf
  rw [convertSample, hw.dest, hw.bases, hv]
  exact h.store hc hf

/-! ### The stages of the commands -/

/-- Where each channel stands while channel `w.chan` is in progress. -/
def progress (w : Work) (c f : Nat) : Prop := f < if c = w.chan then w.index else w.doneUpto.getD c 0

/-- A channel in progress, as the loops over its frames keep it. -/
structure ChannelRun (j : Job) (m0 : Memory) (c : Nat) (w0 w : Work) (m : Memory) : Prop where
  works : WorksOn j w
  chan : w.chan = c
  doneUpto : w.doneUpto = w0.doneUpto
  saved : w.savedRmode = w0.savedRmode
  index : w.index ≤ j.count
  conv : Converted j m0 m (progress w)

theorem channelBlock_run {j : Job} {m0 : Memory} (ha : j.apart) {impl : Impl} (hb : ∀ x, blane impl x = cvt x)
    {width c : Nat} (hc : c < j.chans) {w0 w : Work} {m : Memory} (h : ChannelRun j m0 c w0 w m)
    (hf : width ≤ w.count - w.index) :
    ChannelRun j m0 c w0 (channelBlock j.order impl width w m).1 (channelBlock j.order impl width w m).2 := by
  have hcount := h.works.count
  have hi := h.index
  refine ⟨⟨h.works.dest, h.works.bases, h.works.count⟩, h.chan, h.doneUpto, h.saved,
    by simp only [channelBlock]; omega, ?_⟩
  refine (channelBlock_converted ha hb h.works (h.chan ▸ hc) (by omega) h.conv).congr (fun c' f _ _ => ?_)
  simp only [progress, channelBlock]
  split
  · simp_all; omega
  · simp_all

theorem channelFrame_run {j : Job} {m0 : Memory} (ha : j.apart) {c : Nat} (hc : c < j.chans) {w0 w : Work} {m : Memory}
    (h : ChannelRun j m0 c w0 w m) (hf : w.index < w.count) :
    ChannelRun j m0 c w0 (channelFrame j.order w m).1 (channelFrame j.order w m).2 := by
  have hcount := h.works.count
  refine ⟨⟨h.works.dest, h.works.bases, h.works.count⟩, h.chan, h.doneUpto, h.saved,
    by simp only [channelFrame]; omega, ?_⟩
  refine (convertSample_converted ha h.works (h.chan ▸ hc) (by omega) h.conv).congr (fun c' f _ _ => ?_)
  simp only [progress, channelFrame]
  split
  · simp_all; omega
  · simp_all

/-- The channel is complete when its tail loop ends. -/
theorem channelTail_run {j : Job} {m0 : Memory} (ha : j.apart) {c : Nat} (hc : c < j.chans) {w0 w : Work} {m : Memory}
    (h : ChannelRun j m0 c w0 w m) :
    ChannelRun j m0 c w0 (tailLoop (channelFrame j.order) w.count w m).1 (tailLoop (channelFrame j.order) w.count w m).2 ∧
    (tailLoop (channelFrame j.order) w.count w m).1.index = j.count := by
  have hrun := tailLoop_inv (P := ChannelRun j m0 c w0) (fun w m h hf => channelFrame_run ha hc h hf) w.count w m h
  have hdone := tailLoop_done (frame := channelFrame j.order) (fun _ _ => rfl) (fun _ _ => rfl) w.count w m (by omega)
  exact ⟨hrun, Nat.le_antisymm hrun.index (hrun.works.count ▸ hdone)⟩

/-- Dropping the saved mode touches no progress. -/
theorem ChannelRun.withSaved {j : Job} {m0 : Memory} {c : Nat} {w0 w : Work} {m : Memory} (h : ChannelRun j m0 c w0 w m)
    (r : Option (BitVec 2)) : ChannelRun j m0 c (w0.withSaved r) (w.withSaved r) m :=
  ⟨⟨h.works.dest, h.works.bases, h.works.count⟩, h.chan, h.doneUpto, rfl, h.index, h.conv⟩

/-- `CVTM` converts every element, on either path. -/
theorem cvtm_converted {s : State} (hwf : s.mem.wf) (ha : (cvtmJob s).apart) (hb : ∀ x, blane s.cfg.impl x = cvt x)
    (sc : Bool) :
    Converted (cvtmJob s) s.mem (commandMem sc (cvtmWork s)
      (fun w m => batchLoop (channelBlock s.cfg.byteOrder s.cfg.impl s.cfg.width) s.cfg.width w.count w m)
      (fun w m => tailLoop (channelFrame s.cfg.byteOrder) w.count w m) s) (fun _ _ => True) := by
  have hc : 0 < (cvtmJob s).chans := Nat.one_pos
  have hstart : ∀ r, ChannelRun (cvtmJob s) s.mem 0 ((cvtmWork s).withSaved r) ((cvtmWork s).withSaved r) s.mem :=
    fun r => ⟨⟨rfl, rfl, rfl⟩, rfl, rfl, rfl, Nat.zero_le _, (Converted.start hwf).congr (fun c f hc' _ => by
      simp only [progress, cvtmWork, Work.start, Work.withSaved_chan, Work.withSaved_index, false_iff]
      have : c < 1 := hc'
      simp [show c = 0 by omega])⟩
  have hend : ∀ {w0 w m}, ChannelRun (cvtmJob s) s.mem 0 w0 w m →
      Converted (cvtmJob s) s.mem (tailLoop (channelFrame s.cfg.byteOrder) w.count w m).2 (fun _ _ => True) := by
    intro w0 w m h
    obtain ⟨hrun, hidx⟩ := channelTail_run ha hc h
    refine hrun.conv.congr (fun c f hc' hf => ?_)
    have : c < 1 := hc'
    rw [progress, hrun.chan, if_pos (by omega), hidx, iff_true]
    exact hf
  have hbatch : ∀ r, ChannelRun (cvtmJob s) s.mem 0 ((cvtmWork s).withSaved r)
      (batchLoop (channelBlock s.cfg.byteOrder s.cfg.impl s.cfg.width) s.cfg.width ((cvtmWork s).withSaved r).count
        ((cvtmWork s).withSaved r) s.mem).1
      (batchLoop (channelBlock s.cfg.byteOrder s.cfg.impl s.cfg.width) s.cfg.width ((cvtmWork s).withSaved r).count
        ((cvtmWork s).withSaved r) s.mem).2 := fun r =>
    batchLoop_inv (P := ChannelRun (cvtmJob s) s.mem 0 ((cvtmWork s).withSaved r))
      (fun w m h hf => channelBlock_run ha hb hc h hf) _ _ _ (hstart r)
  rw [commandMem]
  split
  · split
    · exact hend ((hbatch _).withSaved none)
    · exact hend ((hbatch none).withSaved none)
  · exact hend (hstart none)

/-! ### `CVTI` -/

/-- `CVTI` between channels: the channels' blocks are converted as far as `done_upto` says, and the first `k` channels
wholly if `full`. -/
structure TableRun (j : Job) (m0 : Memory) (full : Bool) (k : Nat) (w : Work) (m : Memory) : Prop where
  works : WorksOn j w
  length : w.doneUpto.length = j.chans
  bound : ∀ c, w.doneUpto.getD c 0 ≤ j.count
  todo : full = false → ∀ c, k ≤ c → w.doneUpto.getD c 0 = 0
  conv : Converted j m0 m (fun c f => (full = true ∧ c < k) ∨ f < w.doneUpto.getD c 0)

theorem channelBatch_run {j : Job} {m0 : Memory} (ha : j.apart) {impl : Impl} (hb : ∀ x, blane impl x = cvt x)
    {width c : Nat} (hc : c < j.chans) {w : Work} {m : Memory} (h : TableRun j m0 false c w m) :
    TableRun j m0 false (c + 1) (channelBatch j.order impl width c w m).1 (channelBatch j.order impl width c w m).2 ∧
    (channelBatch j.order impl width c w m).1.savedRmode = w.savedRmode := by
  have hstart : ChannelRun j m0 c { w with chan := c, index := 0 } { w with chan := c, index := 0 } m := by
    refine ⟨⟨h.works.dest, h.works.bases, h.works.count⟩, rfl, rfl, rfl, Nat.zero_le _, h.conv.congr (fun c' f _ _ => ?_)⟩
    simp only [progress]
    split
    · rename_i he
      rw [he, h.todo rfl c (Nat.le_refl _)]
      simp
    · simp
  have hrun := batchLoop_inv (P := ChannelRun j m0 c { w with chan := c, index := 0 })
    (fun w m h hf => channelBlock_run (width := width) ha hb hc h hf) w.count _ _ hstart
  have hget : ∀ c' i, (w.doneUpto.set c i).getD c' 0 = if c' = c then i else w.doneUpto.getD c' 0 := by
    intro c' i
    have := h.length
    by_cases he : c' = c
    · subst he; simp [List.getD_eq_getElem?_getD, show c' < w.doneUpto.length by omega]
    · simp [List.getD_eq_getElem?_getD, he, Ne.symm he]
  rw [channelBatch]
  refine ⟨⟨⟨hrun.works.dest, hrun.works.bases, hrun.works.count⟩, ?_, ?_, ?_, ?_⟩, hrun.saved⟩
  · simp only [hrun.doneUpto, List.length_set, h.length]
  · intro c'
    simp only [hrun.doneUpto, hget]
    split
    · exact hrun.index
    · exact h.bound c'
  · intro _ c' hc'
    simp only [hrun.doneUpto, hget]
    rw [if_neg (by omega)]
    exact h.todo rfl c' (by omega)
  · refine hrun.conv.congr (fun c' f _ _ => ?_)
    simp only [progress, hrun.chan, hrun.doneUpto, hget, false_and, false_or, Bool.false_eq_true]

theorem channelTail_table {j : Job} {m0 : Memory} (ha : j.apart) {c : Nat} (hc : c < j.chans) {w : Work} {m : Memory}
    (h : TableRun j m0 true c w m) :
    TableRun j m0 true (c + 1) (channelTail j.order c w m).1 (channelTail j.order c w m).2 := by
  have hstart : Converted j m0 m (fun c' f => c' < c ∨ progress { w with chan := c, index := w.doneUpto.getD c 0 } c' f) := by
    refine h.conv.congr (fun c' f _ _ => ?_)
    simp only [progress, true_and]
    split
    · subst_vars; rfl
    · rfl
  -- the loop over the frames of channel `c`, with the finished channels carried along
  have hloop := tailLoop_inv (frame := channelFrame j.order)
    (P := fun w' m' => WorksOn j w' ∧ w'.chan = c ∧ w'.doneUpto = w.doneUpto ∧ w'.index ≤ j.count ∧
      Converted j m0 m' (fun c' f => c' < c ∨ progress w' c' f))
    (by
      rintro w' m' ⟨hw, hch, hd, hi, hconv⟩ hf
      have hn := hw.count
      refine ⟨⟨hw.dest, hw.bases, hw.count⟩, hch, hd, by simp only [channelFrame]; omega, ?_⟩
      refine (convertSample_converted ha hw (hch ▸ hc) (by omega) hconv).congr (fun c' f _ _ => ?_)
      simp only [progress, channelFrame]
      split
      · simp_all; omega
      · simp_all)
    w.count { w with chan := c, index := w.doneUpto.getD c 0 } m
    ⟨⟨h.works.dest, h.works.bases, h.works.count⟩, rfl, rfl, h.bound c, hstart⟩
  have hdone := tailLoop_done (frame := channelFrame j.order) (fun _ _ => rfl) (fun _ _ => rfl) w.count
    { w with chan := c, index := w.doneUpto.getD c 0 } m (by simp only; omega)
  obtain ⟨hw, hch, hd, hi, hconv⟩ := hloop
  have hidx := Nat.le_antisymm hi (hw.count ▸ hdone)
  rw [channelTail]
  refine ⟨hw, by rw [hd]; exact h.length, by rw [hd]; exact h.bound, nofun,
    hconv.congr (fun c' f _ hf => ?_)⟩
  simp only [progress, hch, hd, hidx, true_and]
  split
  · subst_vars; simp [hf]
  · simp only [show c' < c + 1 ↔ c' < c by omega]

/-- `CVTI` converts every element, on either path. -/
theorem cvti_converted {s : State} (hwf : s.mem.wf) (ha : (cvtiJob s).apart) (hb : ∀ x, blane s.cfg.impl x = cvt x)
    (sc : Bool) :
    Converted (cvtiJob s) s.mem (commandMem sc (cvtiWork s)
      (overChannels (channelBatch s.cfg.byteOrder s.cfg.impl s.cfg.width)) (overChannels (channelTail s.cfg.byteOrder)) s) (fun _ _ => True) := by
  have hzero : ∀ c, (List.replicate (cvtiJob s).bases.length 0).getD c 0 = 0 := by
    intro c
    rw [List.getD_eq_getElem?_getD, List.getElem?_replicate]
    split <;> rfl
  have hstart : ∀ r full, TableRun (cvtiJob s) s.mem full 0 ((cvtiWork s).withSaved r) s.mem := fun r full =>
    ⟨⟨rfl, rfl, rfl⟩, List.length_replicate, fun c => (hzero c).le.trans (Nat.zero_le _), fun _ c _ => hzero c,
      (Converted.start hwf).congr (fun c f _ _ => by
        simp only [cvtiWork, Work.start, Work.withSaved_doneUpto, hzero, Nat.not_lt_zero, and_false, or_self])⟩
  have hend : ∀ {w m}, WorksOn (cvtiJob s) w → TableRun (cvtiJob s) s.mem true 0 w m →
      Converted (cvtiJob s) s.mem (overChannels (channelTail s.cfg.byteOrder) w m).2 (fun _ _ => True) := by
    intro w m hw h
    have hlen : w.bases.length = (cvtiJob s).chans := by rw [hw.bases]
    have := overChannels_inv (P := TableRun (cvtiJob s) s.mem true) h
      (fun c w' m' hc' h' => channelTail_table ha (hlen ▸ hc') h')
    exact this.conv.congr (fun c f hc _ => by simp [hlen, hc])
  have hbatch : ∀ r, TableRun (cvtiJob s) s.mem true 0
      ((overChannels (channelBatch s.cfg.byteOrder s.cfg.impl s.cfg.width) ((cvtiWork s).withSaved r) s.mem).1.withSaved none)
      (overChannels (channelBatch s.cfg.byteOrder s.cfg.impl s.cfg.width) ((cvtiWork s).withSaved r) s.mem).2 := by
    intro r
    have h := overChannels_inv (P := TableRun (cvtiJob s) s.mem false) (hstart r false)
      (fun c w' m' hc' h' => (channelBatch_run (width := s.cfg.width) ha hb hc' h').1)
    exact ⟨⟨h.works.dest, h.works.bases, h.works.count⟩, h.length, h.bound, nofun,
      h.conv.congr (fun c f _ _ => by simp)⟩
  rw [commandMem]
  split
  · split
    · exact hend (hbatch _).works (hbatch _)
    · exact hend (hbatch none).works (hbatch none)
  · exact hend (hstart none true).works (hstart none true)

/-! ### `CVTI2` -/

/-- Interleaving two lists of one length, element by element. -/
theorem interleave_map {α β : Type} (l : List α) (p q : α → β) :
    interleave (l.map p) (l.map q) = l.flatMap (fun a => [p a, q a]) := by
  induction l with
  | nil => rfl
  | cons a rest ih => simp [interleave, ih]

/-- The addresses of a block of stereo frames, frame by frame. -/
theorem stereo_addrs (base i n : Nat) :
    (List.range (2 * n)).map (fun k => base + 2 * (2 * i + k)) =
      (blockFrames i n).flatMap (fun f => [base + 2 * (f * 2 + 0), base + 2 * (f * 2 + 1)]) := by
  induction n with
  | zero => rfl
  | succ n ih =>
    rw [show 2 * (n + 1) = 2 * n + 1 + 1 by omega, List.range_succ, List.range_succ, List.map_append, List.map_append, ih,
      blockFrames, blockFrames, List.range_succ, List.map_append, List.flatMap_append]
    simp only [List.map_cons, List.map_nil, List.flatMap_cons, List.flatMap_nil, List.append_nil, List.append_assoc,
      List.cons_append, List.nil_append]
    congr 3
    · omega
    · congr 1; omega

theorem stereoBlock_converted {j : Job} {m0 : Memory} (ha : j.apart) (h2 : j.chans = 2) {impl : Impl}
    (hb : ∀ x, blane impl x = cvt x) {width : Nat} {w : Work} {m : Memory} {S : Nat → Nat → Prop} (hw : WorksOn j w)
    (hf : w.index + width ≤ j.count) (h : Converted j m0 m S) :
    Converted j m0 (stereoBlock j.order impl width w m).2 (fun c f => S c f ∨ (w.index ≤ f ∧ f < w.index + width)) := by
  have hl : ∀ p ∈ (blockFrames w.index width).flatMap (fun f => [(0, f), (1, f)]), p.1 < j.chans ∧ p.2 < j.count := by
    simp only [blockFrames, List.mem_flatMap, List.mem_map, List.mem_range, List.mem_cons, List.not_mem_nil, or_false]
    rintro p ⟨_, ⟨l, hl, rfl⟩, rfl | rfl⟩ <;> exact ⟨by omega, by simp only; omega⟩
  have hlist : ∀ (l : List Nat), (∀ f ∈ l, f < j.count) →
      (l.flatMap (fun f => [j.dest + 2 * (f * 2 + 0), j.dest + 2 * (f * 2 + 1)])).zip
      ((l.flatMap (fun f => [laneClamped (m.readWord j.order (srcAddr j.bases 0 f)),
        laneClamped (m.readWord j.order (srcAddr j.bases 1 f))])).map (fun v => int16 (laneToInt impl v))) =
      (l.flatMap (fun f => [(0, f), (1, f)])).map (fun p => (j.dst p.1 p.2, j.out m0 p.1 p.2)) := by
    intro l
    induction l with
    | nil => exact fun _ => rfl
    | cons f rest ih =>
      intro hin
      have hf' := hin f (by simp)
      have h0 : m.readWord j.order (srcAddr j.bases 0 f) = m0.readWord j.order (srcAddr j.bases 0 f) := h.source ha (by omega) hf'
      have h1 : m.readWord j.order (srcAddr j.bases 1 f) = m0.readWord j.order (srcAddr j.bases 1 f) := h.source ha (by omega) hf'
      have hlane : ∀ x, laneToInt impl (laneClamped x) = cvt x := hb
      simp only [List.flatMap_cons, List.cons_append, List.nil_append, List.map_cons, List.zip_cons_cons,
        ih (fun g hg => hin g (by simp [hg]))]
      refine congrArg₂ List.cons ?_ (congrArg₂ List.cons ?_ rfl)
      · simp only [hlane, h0, Job.dst, dstAddr, Job.out, Job.src, h2]
      · simp only [hlane, h1, Job.dst, dstAddr, Job.out, Job.src, h2]
  rw [stereoBlock]
  simp only [List.map_map, interleave_map, stereo_addrs]
  simp only [Function.comp, hw.dest, hw.bases]
  rw [hlist _ (fun f hfm => by
    simp only [blockFrames, List.mem_map, List.mem_range] at hfm
    omega)]
  refine (h.stores _ hl).congr (fun c f hc _ => or_congr_right ?_)
  simp only [blockFrames, List.mem_flatMap, List.mem_map, List.mem_range, List.mem_cons, List.not_mem_nil, or_false,
    Prod.mk.injEq]
  constructor
  · rintro ⟨_, ⟨l, hl, rfl⟩, ⟨-, rfl⟩ | ⟨-, rfl⟩⟩ <;> omega
  · rintro ⟨h1, h2'⟩
    exact ⟨f, ⟨f - w.index, by omega, by omega⟩, by omega⟩

/-- A stereo command in progress, as its loops keep it. -/
structure StereoRun (j : Job) (m0 : Memory) (w : Work) (m : Memory) : Prop where
  works : WorksOn j w
  index : w.index ≤ j.count
  conv : Converted j m0 m (fun _ f => f < w.index)

/-- `CVTI2` converts every element, on either path. -/
theorem cvti2_converted {s : State} (hwf : s.mem.wf) (ha : (cvti2Job s).apart) (hb : ∀ x, blane s.cfg.impl x = cvt x)
    (sc : Bool) :
    Converted (cvti2Job s) s.mem (commandMem sc (cvti2Work s)
      (fun w m => batchLoop (stereoBlock s.cfg.byteOrder s.cfg.impl s.cfg.width2) s.cfg.width2 w.count w m)
      (fun w m => tailLoop (stereoFrame s.cfg.byteOrder) w.count w m) s) (fun _ _ => True) := by
  have h2 : (cvti2Job s).chans = 2 := rfl
  have hstart : ∀ r, StereoRun (cvti2Job s) s.mem ((cvti2Work s).withSaved r) s.mem := fun r =>
    ⟨⟨rfl, rfl, rfl⟩, Nat.zero_le _, (Converted.start hwf).congr (fun c f _ _ => by simp [cvti2Work, Work.start])⟩
  have hbatch : ∀ r, StereoRun (cvti2Job s) s.mem
      ((batchLoop (stereoBlock s.cfg.byteOrder s.cfg.impl s.cfg.width2) s.cfg.width2 ((cvti2Work s).withSaved r).count
        ((cvti2Work s).withSaved r) s.mem).1.withSaved none)
      (batchLoop (stereoBlock s.cfg.byteOrder s.cfg.impl s.cfg.width2) s.cfg.width2 ((cvti2Work s).withSaved r).count
        ((cvti2Work s).withSaved r) s.mem).2 := by
    intro r
    have h := batchLoop_inv (P := StereoRun (cvti2Job s) s.mem) (width := s.cfg.width2)
      (block := stereoBlock s.cfg.byteOrder s.cfg.impl s.cfg.width2)
      (fun w m h hf => ⟨⟨h.works.dest, h.works.bases, h.works.count⟩,
        by have := h.works.count; have := h.index; simp only [stereoBlock]; omega,
        (stereoBlock_converted ha h2 hb h.works (by have := h.works.count; have := h.index; omega) h.conv).congr
          (fun c f _ _ => by simp only [stereoBlock]; omega)⟩)
      ((cvti2Work s).withSaved r).count _ _ (hstart r)
    exact ⟨⟨h.works.dest, h.works.bases, h.works.count⟩, h.index, h.conv⟩
  have hend : ∀ {w m}, StereoRun (cvti2Job s) s.mem w m →
      Converted (cvti2Job s) s.mem (tailLoop (stereoFrame s.cfg.byteOrder) w.count w m).2 (fun _ _ => True) := by
    intro w m h
    have hrun := tailLoop_inv (P := StereoRun (cvti2Job s) s.mem) (frame := stereoFrame s.cfg.byteOrder)
      (fun w m h hf => ⟨⟨h.works.dest, h.works.bases, h.works.count⟩,
        by have := h.works.count; simp only [stereoFrame]; omega,
        (convertSample_converted ha h.works (c := 1) (by omega) (by have := h.works.count; omega)
          (convertSample_converted ha h.works (c := 0) (by omega) (by have := h.works.count; omega) h.conv)).congr
          (fun c f hc _ => by simp only [stereoFrame]; omega)⟩)
      w.count w m h
    have hdone := tailLoop_done (frame := stereoFrame s.cfg.byteOrder) (fun _ _ => rfl) (fun _ _ => rfl) w.count w m (by omega)
    exact hrun.conv.congr (fun c f _ hf => by have := hrun.works.count; simp only [iff_true]; omega)
  rw [commandMem]
  split
  · split
    · exact hend (hbatch _)
    · exact hend (hbatch none)
  · exact hend (hstart none)

end Sys2Proof.Machine
end

