-- ==== Sys2Proof/Laws/Commands.lean ====
section
/-! SUPPORT. One spec lemma for each command: it faults with its first false precondition, or it changes memory alone, and
there converts the elements of its job. The lemmas about the elements take as a premise that the lane algorithm agrees with
the scalar conversion (41_batch_convert.md R133). -/

namespace Sys2Proof.Machine

/-! ### The batch stages leave the saved mode alone -/

theorem batchLoop_saved {block : Work → Memory → Work × Memory} {width : Nat}
    (h : ∀ w m, (block w m).1.savedRmode = w.savedRmode) (fuel : Nat) (w : Work) (m : Memory) :
    (batchLoop block width fuel w m).1.savedRmode = w.savedRmode :=
  batchLoop_inv (P := fun w' _ => w'.savedRmode = w.savedRmode) (fun _ _ h' _ => (h _ _).trans h') fuel w m rfl

theorem overChannels_saved {stage : Nat → Work → Memory → Work × Memory}
    (h : ∀ c w m, (stage c w m).1.savedRmode = w.savedRmode) (w : Work) (m : Memory) :
    (overChannels stage w m).1.savedRmode = w.savedRmode :=
  overChannels_inv (P := fun _ w' _ => w'.savedRmode = w.savedRmode) rfl (fun _ _ _ _ h' => (h _ _ _).trans h')

theorem channelBatch_saved (g : Config) (c : Nat) (w : Work) (m : Memory) :
    (channelBatch g.byteOrder g.impl g.width c w m).1.savedRmode = w.savedRmode :=
  batchLoop_saved (block := channelBlock g.byteOrder g.impl g.width) (fun _ _ => rfl) _ _ _

/-! ### The first false precondition -/

/-- A command finds no fault exactly under its preconditions (20_memory.md R59, R60). -/
theorem faultOf_none_iff (i : Instr) (s : State) : faultOf i s = none ↔ Pre i s := by
  cases i
  · simp [faultOf]
  · exact cvtmFault_none_iff s
  · exact cvtiFault_none_iff s
  · exact cvti2Fault_none_iff s

/-- `CVTS` writes `RESULT` and nothing else (40_scalar_convert.md R113). -/
theorem exec_cvts (s : State) :
    exec .cvts s = .next (s.setCur (s.cur.withResult ((int16 (cvt s.cur.sample)).signExtend 32))) := rfl

/-- A command with a false precondition faults, whatever the state. -/
theorem exec_fault {i : Instr} {s : State} {f : Fault} (h : faultOf i s = some f) : exec i s = .fault f := by
  cases i <;> simp only [faultOf] at h
  · cases h
  all_goals simp [exec, execCvtm, execCvti, execCvti2, h]

/-- A command without one answers a next state, whatever the state. -/
theorem exec_next {i : Instr} {s : State} (h : faultOf i s = none) : ∃ t, exec i s = .next t := by
  cases i <;> simp only [faultOf] at h
  · exact ⟨_, exec_cvts s⟩
  all_goals simp [exec, execCvtm, execCvti, execCvti2, h]

/-- No command changes a parameter, from any state (10_state.md R20). -/
theorem exec_cfg {i : Instr} {s t : State} (h : exec i s = .next t) : t.cfg = s.cfg := by
  cases i
  · rw [exec_cvts] at h; cases h; rfl
  all_goals
    simp only [exec, execCvtm, execCvti, execCvti2] at h
    split at h
    · cases h
    · rw [← Host.Outcome.next.inj h]; exact runCommand_cfg _ _ _ _ _

/-- The outcome of a command. -/
theorem exec_cases (i : Instr) (s : State) :
    (∃ f, faultOf i s = some f ∧ exec i s = .fault f) ∨ (faultOf i s = none ∧ ∃ t, exec i s = .next t) := by
  rcases h : faultOf i s with _ | f
  · exact .inr ⟨rfl, exec_next h⟩
  · exact .inl ⟨f, rfl, exec_fault h⟩

/-! ### What a memory command does -/

/-- The elements of a job are apart under the preconditions. -/
theorem apart_of_faultOf {i : Instr} {s : State} {j : Job} (hj : jobOf i s = some j) (h : faultOf i s = none) :
    j.apart := by
  have hp := (faultOf_none_iff i s).mp h
  cases i <;> simp only [jobOf, Option.some.injEq, reduceCtorEq] at hj <;> subst hj
  · exact Job.apart_of_separate hp.2.2.2.2.1
  · exact Job.apart_of_separate hp.2.2.2.2.2.2.1
  · exact Job.apart_of_separate hp.2.2.2.2.2.2.2.2.1

/-- A memory command that does not fault, from a context that is ready, changes memory alone, and converts every element of
its job (41_batch_convert.md R137, 43_multichannel_interleave.md R166, 42_stereo_interleave.md R151). -/
theorem exec_memory {i : Instr} {s : State} {j : Job} (hb : ∀ x, blane s.cfg.impl x = cvt x) (hwf : s.mem.wf)
    (hr : Ready s) (hj : jobOf i s = some j) (h : faultOf i s = none) :
    ∃ m, exec i s = .next (s.withMem m) ∧ Converted j s.mem m (fun _ _ => True) := by
  have ha := apart_of_faultOf hj h
  cases i with
  | cvts => cases hj
  | cvtm sc =>
    cases hj
    refine ⟨_, ?_, cvtm_converted hwf ha hb sc⟩
    simp only [faultOf] at h
    simp only [exec, execCvtm, h]
    rw [runCommand_eq hr.1 hr.2 rfl (fun w m => batchLoop_saved (fun _ _ => rfl) _ _ _)]
  | cvti sc =>
    cases hj
    refine ⟨_, ?_, cvti_converted hwf ha hb sc⟩
    simp only [faultOf] at h
    simp only [exec, execCvti, h]
    rw [runCommand_eq hr.1 hr.2 rfl (fun w m => overChannels_saved (channelBatch_saved s.cfg) w m)]
  | cvti2 sc =>
    cases hj
    refine ⟨_, ?_, cvti2_converted hwf ha hb sc⟩
    simp only [faultOf] at h
    simp only [exec, execCvti2, h]
    rw [runCommand_eq hr.1 hr.2 rfl (fun w m => batchLoop_saved (fun _ _ => rfl) _ _ _)]

/-! ### What a completed command leaves, and what it depends on -/

/-- The buffers of a job keep the contract under the preconditions. -/
theorem contract_of_faultOf {i : Instr} {s : State} {j : Job} (hj : jobOf i s = some j) (h : faultOf i s = none) :
    j.contract s := by
  have hp := (faultOf_none_iff i s).mp h
  cases i <;> simp only [jobOf, Option.some.injEq, reduceCtorEq] at hj <;> subst hj
  · exact hp.2.2.2
  · exact hp.2.2.2.2.2
  · exact hp.2.2.2.2.2.2.2

/-- The shape of every command that completes: `RESULT` of its context and memory may be new, nothing else; `CVTS` leaves
memory, the others leave `RESULT` (10_state.md R40). -/
theorem exec_shape {i : Instr} {s t : State} (hb : ∀ x, blane s.cfg.impl x = cvt x) (hwf : s.mem.wf) (hr : Ready s)
    (h : exec i s = .next t) :
    ∃ m r, t = (s.setCur (s.cur.withResult r)).withMem m ∧ m.wf ∧
      (jobOf i s = none → r = (int16 (cvt s.cur.sample)).signExtend 32 ∧ m = s.mem) ∧
      (∀ j, jobOf i s = some j → r = s.cur.result ∧ faultOf i s = none ∧ Converted j s.mem m (fun _ _ => True)) := by
  rcases hj : jobOf i s with _ | j
  · have hi : i = .cvts := by cases i <;> simp [jobOf] at hj ⊢
    subst hi
    rw [exec_cvts] at h
    cases h
    exact ⟨s.mem, _, rfl, hwf, fun _ => ⟨rfl, rfl⟩, nofun⟩
  · rcases exec_cases i s with ⟨f, -, hf⟩ | ⟨hf, -⟩
    · rw [hf] at h; cases h
    · obtain ⟨m, he, hc⟩ := exec_memory hb hwf hr hj hf
      rw [h] at he
      refine ⟨m, s.cur.result, ?_, hc.wf, nofun, fun j' h' => by cases h'; exact ⟨rfl, hf, hc⟩⟩
      rw [Context.withResult_self, State.setCur_self]
      exact Host.Outcome.next.inj he

/-- The elements of every command's buffers are in the machine's byte order (20_memory.md R52). -/
theorem jobOf_order {i : Instr} {s : State} {j : Job} (hj : jobOf i s = some j) : j.order = s.cfg.byteOrder := by
  cases i <;> cases hj <;> rfl

/-- A span of a job's source buffers reads as before when its read buffers do. -/
theorem readWord_of_span {m n : Memory} {r : Span} {o : ByteOrder} (h : ∀ a, r.contains a = true → m.read a = n.read a) {a : Nat}
    (h1 : r.base ≤ a) (h2 : a + 4 ≤ r.base + r.len) : m.readWord o a = n.readWord o a :=
  Memory.readWord_congr _ (fun k hk => h _ ((Span.contains_iff _ _).mpr (by omega)))

/-- The job and the checks of a command depend on its context's operand registers, the parameters, the overlapping accesses,
and the contents of the buffers it reads; on nothing else (10_state.md R40, 40_scalar_convert.md R109). -/
theorem jobOf_keep {i : Instr} {s s' : State} {j : Job} (hj : jobOf i s = some j) (hf : faultOf i s = none)
    (h1 : s'.cur.dest = s.cur.dest) (h2 : s'.cur.src0 = s.cur.src0) (h3 : s'.cur.src1 = s.cur.src1)
    (h4 : s'.cur.count = s.cur.count) (h5 : s'.cur.channels = s.cur.channels) (hcfg : s'.cfg = s.cfg)
    (ho : s'.overlap = s.overlap) (hi : s'.issuer = s.issuer)
    (hm : ∀ r ∈ j.readSpans, ∀ a, r.contains a = true → s'.mem.read a = s.mem.read a) :
    jobOf i s' = some j ∧ faultOf i s' = none := by
  have key : jobOf i s' = jobOf i s := by
    cases i <;> simp [jobOf, cvtmJob, cvti2Job, h1, h2, h3, h4, hcfg] at hj ⊢
    simp only [cvtiJob, h1, h2, h4, h5, hcfg]
    split
    · rfl
    · rename_i h0
      have hspan := hm ⟨s.cur.src0.toNat, 4 * s.cur.channels.toNat⟩ (by simp [← hj, Job.readSpans, cvtiJob_table])
      have htab : tableBases s'.mem s.cfg.byteOrder s.cur.src0.toNat s.cur.channels.toNat =
          tableBases s.mem s.cfg.byteOrder s.cur.src0.toNat s.cur.channels.toNat := by
        refine List.map_congr_left (fun k hk => ?_)
        have hk' := List.mem_range.mp hk
        rw [tableEntry, tableEntry, readWord_of_span hspan (by simp only; omega) (by simp only; omega)]
      rw [htab]
  refine ⟨key.trans hj, ?_⟩
  rw [faultOf_none_iff] at hf ⊢
  cases i <;> simp only [Pre] at hf ⊢ <;> simp only [jobOf, Option.some.injEq] at key
  · simp only [CvtmPre, h1, h2, h4, key]
    simp only [CvtmPre, Job.contract, Job.stable, hcfg, ho, hi] at hf ⊢
    exact hf
  · simp only [CvtiPre, h1, h2, h4, h5, key]
    simp only [CvtiPre, Job.contract, Job.stable, hcfg, ho, hi] at hf ⊢
    exact hf
  · simp only [Cvti2Pre, h1, h2, h3, h4, key]
    simp only [Cvti2Pre, Job.contract, Job.stable, hcfg, ho, hi] at hf ⊢
    exact hf

/-- What a job has converted lies in its destination buffer. -/
theorem Converted.outside {j : Job} {m0 m : Memory} {S : Nat → Nat → Prop} (h : Converted j m0 m S) {a : Nat}
    (ha : j.destSpan.contains a = false) : m.read a = m0.read a := by
  refine h.rest a (fun c f hc hf _ => ?_)
  have hd := Job.dst_in hc hf
  rw [← Bool.not_eq_true, Span.contains_iff] at ha
  simp only [Job.destSpan] at ha hd
  omega

end Sys2Proof.Machine
end

