-- ==== Sys2Proof/Laws/Decode.lean ====
section
/-! SUPPORT. The fields of a word and the word of fields (30_encoding.md R80), the bytes of a word and the word of bytes
(20_memory.md R52), and the decoder as a function of the fields (30_encoding.md R81, R85). -/

namespace Sys2Proof

/-! ### Fields -/

/-- The bits of a word of given fields. -/
theorem join_getLsbD (r : BitVec 23) (s : Bool) (o : BitVec 8) (i : Nat) :
    BitVec.getLsbD (w := 32) (r ++ (BitVec.ofBool s ++ o)) i =
      if i < 8 then o.getLsbD i else if i < 9 then s else r.getLsbD (i - 9) := by
  refine (BitVec.getLsbD_append (x := r) (y := BitVec.ofBool s ++ o)).trans ?_
  rw [BitVec.getLsbD_append, BitVec.getLsbD_ofBool]
  by_cases h8 : i < 8
  · simp [h8, show i < 1 + 8 by omega]
  · by_cases h9 : i < 9
    · simp [show i = 8 by omega]
    · simp [h8, h9]

/-- No bit of a word is outside its fields. -/
@[simp] theorem splitWord_join (w : Word) : (splitWord w).join = w := by
  refine BitVec.eq_of_getLsbD_eq (fun i hi => ?_)
  rw [CmdWord.join, splitWord, join_getLsbD]
  split
  · simp [*]
  · split
    · rw [show i = 8 by omega]
    · simp [show 9 + (i - 9) = i by omega, show i - 9 < 23 by omega]

/-- No two fields share a bit. -/
@[simp] theorem splitWord_of_join (c : CmdWord) : splitWord c.join = c := by
  obtain ⟨r, s, o⟩ := c
  simp only [splitWord, CmdWord.join, CmdWord.mk.injEq]
  refine ⟨BitVec.eq_of_getLsbD_eq (fun i hi => ?_), ?_, BitVec.eq_of_getLsbD_eq (fun i hi => ?_)⟩
  · rw [BitVec.getLsbD_extractLsb', decide_eq_true hi, Bool.true_and, join_getLsbD]
    simp [show ¬ (9 + i < 8) by omega, show ¬ (9 + i < 9) by omega, show 9 + i - 9 = i by omega]
  · rw [join_getLsbD]; rfl
  · rw [BitVec.getLsbD_extractLsb', decide_eq_true hi, Bool.true_and, join_getLsbD]
    simp [hi]

/-- The fields as numbers. -/
theorem splitWord_rsv_toNat (w : Word) : (splitWord w).rsv.toNat = w.toNat / 2 ^ 9 := by
  have := w.isLt
  simp only [splitWord, BitVec.extractLsb'_toNat, Nat.shiftRight_eq_div_pow]
  omega

theorem splitWord_opc_toNat (w : Word) : (splitWord w).opc.toNat = w.toNat % 2 ^ 8 := by
  simp [splitWord, BitVec.extractLsb'_toNat]

/-! ### Bytes -/

@[simp] theorem wordBytes_length (w : Word) : (wordBytes w).length = 4 := rfl

/-- Four bytes and a word are the same thing. -/
@[simp] theorem bytesWord_wordBytes (w : Word) : bytesWord (wordBytes w) = some w := by
  simp only [wordBytes, bytesWord, Option.some.injEq]
  refine BitVec.eq_of_getLsbD_eq (fun i hi => ?_)
  simp only [BitVec.getLsbD_append, BitVec.getLsbD_extractLsb']
  have hi32 : i < 32 := hi
  split
  · split
    · split
      · simp [*]
      · simp [show 8 + (i - 8) = i by omega, show i - 8 < 8 by omega]
    · simp [show 16 + (i - (8 + 8)) = i by omega, show i - (8 + 8) < 8 by omega]
  · simp [show 24 + (i - (8 + (8 + 8))) = i by omega, show i - (8 + (8 + 8)) < 8 by omega]

theorem bytesWord_length {bs : List Byte} {w : Word} (h : bytesWord bs = some w) : bs.length = 4 := by
  unfold bytesWord at h
  split at h
  · rfl
  · cases h

theorem bytesWord_none {bs : List Byte} (h : bs.length ≠ 4) : bytesWord bs = none := by
  rcases hb : bytesWord bs with _ | w
  · rfl
  · exact absurd (bytesWord_length hb) h

/-! ### The decoder -/

/-- The decoder refuses a word whose reserved field is not zero. -/
theorem decode_rsv {w : Word} (h : (splitWord w).rsv ≠ 0) : decode w = .error .rsvNotZero := if_pos h

/-- With a zero reserved field the opcode and `SC` decide. -/
theorem decode_fields {w : Word} (h : (splitWord w).rsv = 0) :
    decode w =
      if (splitWord w).opc = 1 then (if (splitWord w).sc then .error .scOnCvts else .ok .cvts)
      else if (splitWord w).opc = 2 then .ok (.cvtm (splitWord w).sc)
      else if (splitWord w).opc = 3 then .ok (.cvti (splitWord w).sc)
      else if (splitWord w).opc = 4 then .ok (.cvti2 (splitWord w).sc)
      else .error .opcode := by
  have hnat : ∀ (o : BitVec 8) (n : Nat) (hn : n < 256), o = BitVec.ofNat 8 n ↔ o.toNat = n := fun o n hn => by
    rw [← BitVec.toNat_inj, BitVec.toNat_ofNat, Nat.mod_eq_of_lt hn]
  have h1 := hnat (splitWord w).opc 1 (by decide)
  have h2 := hnat (splitWord w).opc 2 (by decide)
  have h3 := hnat (splitWord w).opc 3 (by decide)
  have h4 := hnat (splitWord w).opc 4 (by decide)
  refine (if_neg (not_not.mpr h)).trans ?_
  simp only [show (1 : BitVec 8) = BitVec.ofNat 8 1 from rfl, show (2 : BitVec 8) = BitVec.ofNat 8 2 from rfl,
    show (3 : BitVec 8) = BitVec.ofNat 8 3 from rfl, show (4 : BitVec 8) = BitVec.ofNat 8 4 from rfl, h1, h2, h3, h4]
  split <;> simp_all

/-- The decoder in two parts. -/
theorem decode_cases (w : Word) :
    ((splitWord w).rsv ≠ 0 ∧ decode w = .error .rsvNotZero) ∨
    ((splitWord w).rsv = 0 ∧
      ((splitWord w).opc = 1 ∧ (splitWord w).sc = true ∧ decode w = .error .scOnCvts ∨
       (∃ i : Instr, splitWord w = i.fields ∧ decode w = .ok i) ∨
       (splitWord w).opc ≠ 1 ∧ (splitWord w).opc ≠ 2 ∧ (splitWord w).opc ≠ 3 ∧ (splitWord w).opc ≠ 4 ∧
         decode w = .error .opcode)) := by
  by_cases h : (splitWord w).rsv = 0
  · refine .inr ⟨h, ?_⟩
    have hd := decode_fields h
    generalize hc : splitWord w = c at *
    obtain ⟨r, s, o⟩ := c
    simp only at h hd ⊢
    subst h
    by_cases h1 : o = 1
    · subst h1
      cases s
      · exact .inr (.inl ⟨.cvts, rfl, by simpa using hd⟩)
      · exact .inl ⟨rfl, rfl, by simpa using hd⟩
    · refine .inr ?_
      by_cases h2 : o = 2
      · subst h2; exact .inl ⟨.cvtm s, rfl, by simpa using hd⟩
      · by_cases h3 : o = 3
        · subst h3; exact .inl ⟨.cvti s, rfl, by simpa using hd⟩
        · by_cases h4 : o = 4
          · subst h4; exact .inl ⟨.cvti2 s, rfl, by simpa using hd⟩
          · exact .inr ⟨h1, h2, h3, h4, by rw [hd, if_neg h1, if_neg h2, if_neg h3, if_neg h4]⟩
  · exact .inl ⟨h, decode_rsv h⟩

end Sys2Proof
end

