-- ==== Sys2Proof/Laws/Numeric.lean ====
section
/-! SUPPORT. The numeric functions as functions of a sign and of bits [30:0]: the value is strictly monotone in the bits,
rounding is monotone, and `mul32` and the lane steps by one spec lemma each. -/

namespace Sys2Proof.Machine

/-! ### A word as sign and bits [30:0] -/

/-- Bits [30:0]. -/
def absBits (b : Word) : Nat := b.toNat % 2 ^ 31

/-- `|val|` of the word with bits [30:0] `n`, in units of `2^-149`. -/
def magBits (n : Nat) : Nat :=
  if n / 2 ^ 23 = 0 then n % 2 ^ 23 else (2 ^ 23 + n % 2 ^ 23) * 2 ^ (n / 2 ^ 23 - 1)

theorem absBits_lt (b : Word) : absBits b < 2 ^ 31 := Nat.mod_lt _ (by decide)

theorem expField_eq (b : Word) : expField b = absBits b / 2 ^ 23 := by
  have := b.isLt
  simp only [expField, absBits, BitVec.extractLsb'_toNat, Nat.shiftRight_eq_div_pow]
  omega

theorem fracField_eq (b : Word) : fracField b = absBits b % 2 ^ 23 := by
  simp only [fracField, absBits, BitVec.extractLsb'_toNat, Nat.shiftRight_zero]
  omega

theorem mag_eq (b : Word) : mag b = magBits (absBits b) := by
  simp only [mag, magBits, expField_eq, fracField_eq]

/-- The value grows strictly with the bits (00_scope.md R9). -/
theorem magBits_strictMono : StrictMono magBits := by
  refine strictMono_nat_of_lt_succ (fun n => ?_)
  have hn := Nat.div_add_mod n (2 ^ 23)
  have hlt : n % 2 ^ 23 < 2 ^ 23 := Nat.mod_lt _ (by decide)
  by_cases hc : n % 2 ^ 23 + 1 < 2 ^ 23
  · have hd : (n + 1) / 2 ^ 23 = n / 2 ^ 23 := by omega
    have hm : (n + 1) % 2 ^ 23 = n % 2 ^ 23 + 1 := by omega
    rw [magBits, magBits, hd, hm]
    split
    · omega
    · exact Nat.mul_lt_mul_of_pos_right (by omega) (Nat.two_pow_pos _)
  · have hd : (n + 1) / 2 ^ 23 = n / 2 ^ 23 + 1 := by omega
    have hm : (n + 1) % 2 ^ 23 = 0 := by omega
    rw [magBits, magBits, hd, hm, if_neg (Nat.succ_ne_zero _)]
    split
    · rename_i h0
      rw [h0]; omega
    · rename_i h0
      obtain ⟨k, hk⟩ : ∃ k, n / 2 ^ 23 = k + 1 := ⟨n / 2 ^ 23 - 1, by omega⟩
      rw [hk, Nat.add_sub_cancel, Nat.add_sub_cancel, Nat.add_zero, Nat.pow_succ 2 k, Nat.mul_comm (2 ^ k) 2,
        ← Nat.mul_assoc]
      exact Nat.mul_lt_mul_of_pos_right (by omega) (Nat.two_pow_pos _)

theorem magBits_le_iff {n k : Nat} : magBits n ≤ magBits k ↔ n ≤ k := magBits_strictMono.le_iff_le
theorem magBits_lt_iff {n k : Nat} : magBits n < magBits k ↔ n < k := magBits_strictMono.lt_iff_lt

theorem packSign_toNat {s : Bool} {n : Nat} (h : n < 2 ^ 31) :
    (packSign s n).toNat = if s then 2 ^ 31 + n else n := by
  rw [packSign, BitVec.toNat_ofNat]
  cases s <;> simp <;> omega

@[simp] theorem absBits_packSign {s : Bool} {n : Nat} (h : n < 2 ^ 31) : absBits (packSign s n) = n := by
  rw [absBits, packSign_toNat h]
  cases s <;> simp <;> omega

@[simp] theorem msb_packSign {s : Bool} {n : Nat} (h : n < 2 ^ 31) : (packSign s n).msb = s := by
  rw [BitVec.msb_eq_decide, packSign_toNat h]
  cases s
  · simp; omega
  · simp

/-- A word is its sign and its bits. -/
theorem packSign_eta (b : Word) : packSign b.msb (absBits b) = b := by
  apply BitVec.eq_of_toNat_eq
  rw [packSign_toNat (absBits_lt b), BitVec.msb_eq_decide, absBits]
  have := b.isLt
  split <;> simp_all
  omega

theorem isNaN_iff (b : Word) : isNaN b = true ↔ 0x7F800000 < absBits b := by
  have := absBits_lt b
  simp only [isNaN, expField_eq, fracField_eq, Bool.and_eq_true, beq_iff_eq, bne_iff_ne]
  omega

theorem isInf_iff (b : Word) : isInf b = true ↔ absBits b = 0x7F800000 := by
  have := absBits_lt b
  simp only [isInf, expField_eq, fracField_eq, Bool.and_eq_true, beq_iff_eq]
  omega

theorem isFinite_iff (b : Word) : isFinite b = true ↔ absBits b < 0x7F800000 := by
  have := absBits_lt b
  simp only [isFinite, expField_eq, bne_iff_ne]
  omega

/-- The integer value of a signed word. -/
theorem sval_packSign {s : Bool} {n : Nat} (h : n < 2 ^ 31) :
    sval (packSign s n) = if s then -(magBits n : Int) else (magBits n : Int) := by
  rw [sval, msb_packSign h, mag_eq, absBits_packSign h]

/-! ### Rounding is monotone (40_scalar_convert.md R102) -/

/-- The rounded quotient is the floor or one more. -/
theorem roundEven_bounds (n t : Nat) : n / 2 ^ t ≤ roundEven n t ∧ roundEven n t ≤ n / 2 ^ t + 1 := by
  simp only [roundEven]
  split
  · omega
  · split
    · omega
    · split <;> omega

theorem roundEven_mono {n k : Nat} (t : Nat) (h : n ≤ k) : roundEven n t ≤ roundEven k t := by
  have hq : n / 2 ^ t ≤ k / 2 ^ t := Nat.div_le_div_right h
  rcases Nat.lt_or_eq_of_le hq with hlt | heq
  · exact (roundEven_bounds n t).2.trans (hlt.trans_le (roundEven_bounds k t).1)
  · have hr : n % 2 ^ t ≤ k % 2 ^ t := by
      have h1 := Nat.div_add_mod n (2 ^ t)
      have h2 := Nat.div_add_mod k (2 ^ t)
      rw [heq] at h1
      omega
    simp only [roundEven, heq]
    split_ifs <;> omega

theorem gridExp_mono {n k : Nat} (h : n ≤ k) : gridExp n ≤ gridExp k := by
  have : n.log2 ≤ k.log2 := by
    rw [Nat.log2_eq_log_two, Nat.log2_eq_log_two]
    exact Nat.log_mono_right h
  simp only [gridExp]
  omega

/-- The significand never exceeds `2^24`. -/
theorem roundEven_grid_le (n : Nat) : roundEven n (gridExp n) ≤ 2 ^ 24 := by
  have hlog : n < 2 ^ (gridExp n + 24) :=
    lt_of_lt_of_le Nat.lt_log2_self (Nat.pow_le_pow_right (by decide) (by simp only [gridExp]; omega))
  have hq : n / 2 ^ gridExp n < 2 ^ 24 := by
    rw [Nat.div_lt_iff_lt_mul (Nat.two_pow_pos _), ← Nat.pow_add, Nat.add_comm]
    exact hlog
  have := (roundEven_bounds n (gridExp n)).2
  omega

/-- A normal significand is at least `2^23`. -/
theorem le_roundEven_grid {n : Nat} (h : 149 < gridExp n) : 2 ^ 23 ≤ roundEven n (gridExp n) := by
  have hne : n ≠ 0 := by rintro rfl; simp [gridExp] at h
  have hlog : 2 ^ (gridExp n + 23) ≤ n :=
    (Nat.pow_le_pow_right (by decide) (by simp only [gridExp] at *; omega)).trans (Nat.log2_self_le hne)
  refine le_trans ?_ (roundEven_bounds n (gridExp n)).1
  rw [Nat.le_div_iff_mul_le (Nat.two_pow_pos _), ← Nat.pow_add, Nat.add_comm]
  exact hlog

/-- The rounded magnitude grows with the exact one. -/
theorem roundMag_mono {n k : Nat} (h : n ≤ k) : roundMag n ≤ roundMag k := by
  have hg := gridExp_mono h
  have key : (gridExp n - 149) * 2 ^ 23 + roundEven n (gridExp n) ≤
      (gridExp k - 149) * 2 ^ 23 + roundEven k (gridExp k) := by
    rcases Nat.lt_or_eq_of_le hg with hlt | heq
    · have h149 : 149 ≤ gridExp n := by simp only [gridExp]; omega
      have h1 := roundEven_grid_le n
      have h2 := le_roundEven_grid (n := k) (by omega)
      omega
    · have := roundEven_mono (gridExp k) h
      rw [heq]
      omega
  simp only [roundMag]
  omega

theorem roundMag_le (n : Nat) : roundMag n ≤ 0x7F800000 := Nat.min_le_right _ _

theorem roundMag_lt (n : Nat) : roundMag n < 2 ^ 31 := (roundMag_le n).trans_lt (by decide)

/-! ### The product with 32767.0 -/

theorem mag_ONE : mag ONE = 2 ^ 149 := by decide +kernel
theorem mag_MONE : mag MONE = 2 ^ 149 := by decide +kernel
theorem absBits_K32767 : absBits K32767 = 0x46FFFE00 := by decide +kernel

/-- `mul32(ONE, K32767) = K32767` exactly (40_scalar_convert.md R107). -/
theorem roundMag_one : roundMag (2 ^ 149 * mag K32767) = 0x46FFFE00 := by decide +kernel

/-- The scaled magnitude of a finite sample. -/
def scaled (x : Word) : Nat := roundMag (mag x * mag K32767)

theorem scaled_lt (x : Word) : scaled x < 2 ^ 31 := roundMag_lt _

/-- `mul32(x, K32767)` of a finite sample: its sign, and the rounded magnitude. -/
theorem mul32_finite {x : Word} (h : isFinite x = true) : mul32 x K32767 = packSign x.msb (scaled x) := by
  have hx := (isFinite_iff x).mp h
  have hn : isNaN x = false := by rw [← Bool.not_eq_true, isNaN_iff]; omega
  have hi : isInf x = false := by rw [← Bool.not_eq_true, isInf_iff]; omega
  have hk1 : isNaN K32767 = false := by decide +kernel
  have hk2 : isInf K32767 = false := by decide +kernel
  have hk3 : K32767.msb = false := by decide
  simp [mul32, hn, hi, hk1, hk2, hk3, scaled]

/-- The scaled magnitude stays at or below 32767.0 exactly for samples in `[-1.0, 1.0]`, up to rounding
(40_scalar_convert.md R110(c)). -/
theorem scaled_le {x : Word} (h : mag x ≤ 2 ^ 149) : scaled x ≤ 0x46FFFE00 :=
  (roundMag_mono (Nat.mul_le_mul_right _ h)).trans roundMag_one.le

theorem le_scaled {x : Word} (h : 2 ^ 149 ≤ mag x) : 0x46FFFE00 ≤ scaled x :=
  roundMag_one.ge.trans (roundMag_mono (Nat.mul_le_mul_right _ h))

theorem and_absmask (s : Bool) {n : Nat} (h : n < 2 ^ 31) : packSign s n &&& ABSMASK = packSign false n := by
  apply BitVec.eq_of_toNat_eq
  rw [BitVec.toNat_and, packSign_toNat h, packSign_toNat h, show ABSMASK.toNat = 2 ^ 31 - 1 by decide,
    Nat.and_two_pow_sub_one_eq_mod]
  cases s <;> simp <;> omega

theorem and_signmask (s : Bool) {n : Nat} (h : n < 2 ^ 31) : packSign s n &&& SIGNMASK = packSign s 0 := by
  refine BitVec.eq_of_getLsbD_eq (fun i hi => ?_)
  rw [BitVec.getLsbD_and]
  by_cases h31 : i = 31
  · subst h31
    have hm : (packSign s n).getLsbD 31 = s := by
      simpa [BitVec.msb_eq_getLsbD_last] using msb_packSign (s := s) h
    have hm' : (packSign s 0).getLsbD 31 = s := by cases s <;> decide
    rw [hm, hm']; cases s <;> decide
  · have hs : SIGNMASK.getLsbD i = false := by
      have : ∀ j < 32, j ≠ 31 → SIGNMASK.getLsbD j = false := by decide
      exact this i hi h31
    have hp : (packSign s 0).getLsbD i = false := by
      have : ∀ j < 32, j ≠ 31 → ∀ b, (packSign b 0).getLsbD j = false := by decide
      exact this i hi h31 s
    rw [hs, hp, Bool.and_false]

theorem or_packSign (s : Bool) {n : Nat} (h : n < 2 ^ 31) : packSign s 0 ||| packSign false n = packSign s n := by
  rw [← and_signmask s h, ← and_absmask s h, ← BitVec.and_or_distrib_left, show SIGNMASK ||| ABSMASK = BitVec.allOnes 32 by decide,
    BitVec.and_allOnes]

/-- Steps 1 to 4 of the lane algorithm on a finite sample: the sign, and the scaled magnitude clamped to 32767.0
(41_batch_convert.md R131). -/
theorem laneClamped_finite {x : Word} (h : isFinite x = true) :
    laneClamped x = packSign x.msb (min (scaled x) 0x46FFFE00) := by
  have hs := scaled_lt x
  have hle : scaled x ≤ 0x7F800000 := roundMag_le _
  have hn : isNaN (packSign false (scaled x)) = false := by
    rw [← Bool.not_eq_true, isNaN_iff, absBits_packSign hs]; omega
  have hkn : isNaN K32767 = false := by decide +kernel
  have hk : K32767 = packSign false 0x46FFFE00 := by decide
  have hlt : lt K32767 (packSign false (scaled x)) = decide (0x46FFFE00 < scaled x) := by
    rw [lt, hkn, hn, sval_packSign hs]
    conv => lhs; rw [hk, sval_packSign (by decide)]
    simp [magBits_lt_iff]
  rw [laneClamped]
  simp only [mul32_finite h, and_absmask _ hs, and_signmask _ hs, hn, hlt, Bool.false_or, decide_eq_true_eq,
    Bool.false_eq_true, if_false]
  split
  · rw [hk, or_packSign _ (by decide), Nat.min_eq_right (by omega)]
  · rw [or_packSign _ hs, Nat.min_eq_left (by omega)]

/-- `rha` and the bias strategy of a signed word: the sign applied to the half-up floor of the magnitude
(40_scalar_convert.md R103, 41_batch_convert.md R132). -/
theorem rha_packSign (s : Bool) {n : Nat} (h : n < 2 ^ 31) :
    rha (packSign s n) = if s then -(((magBits n + 2 ^ 148) / 2 ^ 149 : Nat) : Int) else ((magBits n + 2 ^ 148) / 2 ^ 149 : Nat) := by
  have hf : ∀ m : Nat, floorHalf (m : Int) = ((m + 2 ^ 148) / 2 ^ 149 : Nat) := fun m => by
    simp [floorHalf]
  rw [rha, sval_packSign h]
  cases s
  · simp [hf]
  · simp only [if_true]
    by_cases h0 : magBits n = 0
    · simp [h0, floorHalf]
    · rw [if_neg (by omega), Int.neg_neg, hf]

/-- Step 5 of the lane algorithm on a signed word, under every strategy (41_batch_convert.md R132). -/
theorem laneToInt_packSign (impl : Impl) (s : Bool) {n : Nat} (h : n < 2 ^ 31) :
    laneToInt impl (packSign s n) =
      if s then -(((magBits n + 2 ^ 148) / 2 ^ 149 : Nat) : Int) else ((magBits n + 2 ^ 148) / 2 ^ 149 : Nat) := by
  cases impl <;> simp only [laneToInt, rha_packSign s h]
  simp only [biasTruncate, msb_packSign h, mag_eq, absBits_packSign h]

/-! ### The conversion function by sign and magnitude (40_scalar_convert.md R105) -/

theorem sval_ONE : sval ONE = ((2 ^ 149 : Nat) : Int) := by decide +kernel
theorem sval_MONE : sval MONE = -((2 ^ 149 : Nat) : Int) := by decide +kernel

/-- A value against a bound, by sign and magnitude. -/
theorem sval_lt_neg_iff (x : Word) (p : Nat) : sval x < -(p : Int) ↔ x.msb = true ∧ p < mag x := by
  rw [sval]; cases x.msb <;> simp
theorem sval_le_iff (x : Word) (p : Nat) : sval x ≤ (p : Int) ↔ x.msb = true ∨ mag x ≤ p := by
  rw [sval]; cases x.msb <;> simp

/-- `CVT` of a sample that is no NaN. -/
theorem cvt_of_not_nan {x : Word} (h : isNaN x = false) :
    cvt x =
      if x.msb = true ∧ 2 ^ 149 < mag x then -32767
      else if x.msb = true ∨ mag x ≤ 2 ^ 149 then rha (mul32 x K32767) else 32767 := by
  have h3 : isNaN MONE = false := by decide +kernel
  have h4 : isNaN ONE = false := by decide +kernel
  simp only [cvt, h, lt, le, h3, h4, sval_ONE, sval_MONE, Bool.not_false, Bool.true_and, decide_eq_true_eq,
    Bool.false_eq_true, if_false, sval_lt_neg_iff, sval_le_iff]

theorem not_nan_of_finite {x : Word} (h : isFinite x = true) : isNaN x = false := by
  rw [isFinite_iff] at h
  rw [← Bool.not_eq_true, isNaN_iff]
  omega

/-- The clamp value as an integer. -/
theorem floor_clamp : (magBits 0x46FFFE00 + 2 ^ 148) / 2 ^ 149 = 32767 := by decide +kernel

/-- `CVT` of a finite sample: its sign, and the half-up floor of the scaled magnitude clamped to 32767.0. -/
theorem cvt_finite {x : Word} (h : isFinite x = true) :
    cvt x =
      if x.msb then -(((magBits (min (scaled x) 0x46FFFE00) + 2 ^ 148) / 2 ^ 149 : Nat) : Int)
      else ((magBits (min (scaled x) 0x46FFFE00) + 2 ^ 148) / 2 ^ 149 : Nat) := by
  rw [cvt_of_not_nan (not_nan_of_finite h), mul32_finite h, rha_packSign _ (scaled_lt x)]
  rcases Nat.lt_or_ge (2 ^ 149) (mag x) with hm | hm
  · rw [Nat.min_eq_right (le_scaled hm.le), floor_clamp]
    cases x.msb <;>
      simp only [Bool.false_eq_true, false_and, true_and, false_or, true_or, if_false, if_true, hm, Nat.not_le.mpr hm] <;>
      rfl
  · rw [Nat.min_eq_left (scaled_le hm)]
    have hn : ¬ (2 ^ 149 < mag x) := Nat.not_lt.mpr hm
    cases x.msb <;>
      simp only [Bool.false_eq_true, false_and, true_and, false_or, true_or, if_false, if_true, hm, hn]

end Sys2Proof.Machine
end

