-- ==== Sys2Proof/Laws/PerInstr.lean ====
section
/-! SUPPORT. Statements made command by command: each command is written as a legal word, which selects the command's row of
the opcode table (30_encoding.md R81, R82). -/

namespace Sys2Proof.Laws.EncodesLegalWord

/-- The command's fields are legal, and its word selects its row, for either value of `SC` where the row allows both. -/
def Statement (i : Instr) : Prop :=
  i.wellFormed = true ∧ i.fields.wellFormed = true ∧ splitWord (encode i) = i.fields ∧
  (opRow i).selects (encode i) = true

theorem cvts : Statement .cvts := by unfold Statement; decide
theorem cvtm (sc : Bool) : Statement (.cvtm sc) := by unfold Statement; cases sc <;> decide
theorem cvti (sc : Bool) : Statement (.cvti sc) := by unfold Statement; cases sc <;> decide
theorem cvti2 (sc : Bool) : Statement (.cvti2 sc) := by unfold Statement; cases sc <;> decide

end Sys2Proof.Laws.EncodesLegalWord
end

