-- ==== Sys2Proof/Laws/Steps.lean ====
section
/-! SUPPORT. What one step can do, said once (44_host_access.md, 70_reset_and_hazards.md R210, R211), and where a host access
goes (10_state.md R22, R33, R39). -/

namespace Sys2Proof.Machine

/-! ### Where a host access goes -/

/-- A block that is found is the block of a context (10_state.md R22). -/
theorem blockAt_some {g : Config} {addr c off : Nat} (h : blockAt g addr = some (c, off)) :
    c < g.nctx ∧ off < 64 ∧ addr = g.regBase.getD c 0 + off := by
  simp only [blockAt, Option.map_eq_some_iff, Prod.mk.injEq] at h
  obtain ⟨d, hd, rfl, rfl⟩ := h
  obtain ⟨hlt, hc, -⟩ := List.findIdx?_eq_some_iff_getElem.mp hd
  have hb : g.regBase.getD d 0 = g.regBase[d] := by simp [List.getD_eq_getElem?_getD, hlt]
  rw [Span.contains_iff] at hc
  simp only [regSpan] at hc
  rw [hb]
  exact ⟨hlt, by omega, by omega⟩

theorem route_some {g : Config} {space : Space} {addr c off : Nat} (h : route g space addr = some (c, off)) :
    c < g.nctx ∧ off < 64 ∧ addr = g.regBase.getD c 0 + off := by
  cases space with
  | regs => exact blockAt_some h
  | data => exact blockAt_some (Option.filter_eq_some_iff.mp h).1

theorem regAccessOk_iff (off len : Nat) : regAccessOk off len = true ↔ len = 4 ∧ off % 4 = 0 := by
  simp [regAccessOk]

/-- A host access goes on that meets no mapped block and whose bytes the platform admits. -/
theorem hostRefusal_none_iff {g : Config} {d : Dir} {addr len : Nat} :
    hostRefusal g d addr len = none ↔
      (∀ r ∈ mappedBlocks g, r.disjoint ⟨addr, len⟩) ∧ ∀ k < len, admits g d (addr + k) = true := by
  have h : (mappedBlocks g).any (fun r => r.overlaps ⟨addr, len⟩) = false ↔ ∀ r ∈ mappedBlocks g, r.disjoint ⟨addr, len⟩ := by
    simp only [List.any_eq_false, Bool.not_eq_true, Span.overlaps_false_iff]
  rw [← h, hostRefusal]
  cases (mappedBlocks g).any (fun r => r.overlaps ⟨addr, len⟩) <;> simp [firstUnadmitted_none_iff]

/-! ### One step -/

/-- Everything a step that goes on can have done. -/
inductive Stepped (s t : State) : Prop where
  /-- no action was left -/
  | idle (hp : s.pending = []) (ht : t = s)
  /-- a command word was written -/
  | command (e : Event) (rest : List Event) (space : Space) (addr : Nat) (bytes : List Byte) (c : Nat) (w : Word)
      (hp : s.pending = e :: rest) (he : e.action = .write space addr bytes) (hr : route s.cfg space addr = some (c, 0x1C))
      (hw : bytesWord bytes = some w) (ht : issue w ((s.takeEvent e rest).withIssuer c) = .next t)
  /-- another register was written -/
  | register (e : Event) (rest : List Event) (space : Space) (addr : Nat) (bytes : List Byte) (c off : Nat) (w : Word)
      (hp : s.pending = e :: rest) (he : e.action = .write space addr bytes) (hr : route s.cfg space addr = some (c, off))
      (hw : bytesWord bytes = some w) (ho : Reg.ofOffset off ≠ .cmd)
      (ht : t = (s.takeEvent e rest).setCtx c ((s.ctx c).writeReg (Reg.ofOffset off) w))
  /-- data memory was written -/
  | store (e : Event) (rest : List Event) (addr : Nat) (bytes : List Byte)
      (hp : s.pending = e :: rest) (he : e.action = .write .data addr bytes)
      (ha : ∀ k < bytes.length, admits s.cfg .store (addr + k) = true)
      (ht : t = (s.takeEvent e rest).withMem (s.mem.writeBytes addr bytes))
  /-- something was read -/
  | read (e : Event) (rest : List Event) (space : Space) (addr len : Nat) (b : List Byte)
      (hp : s.pending = e :: rest) (he : e.action = .read space addr len) (ht : t = (s.takeEvent e rest).withBusData b)
  /-- reset -/
  | reset (e : Event) (rest : List Event)
      (hp : s.pending = e :: rest) (he : e.action = .reset) (ht : t = (s.takeEvent e rest).resetRegs)
  /-- reset in the middle of a command -/
  | abandoned (e : Event) (rest : List Event) (c : Nat) (w : Word) (landed : List Nat)
      (hp : s.pending = e :: rest) (he : e.action = .resetDuring c w landed) (hc : c < s.ctxs.length)
      (ht : abandon w landed ((s.takeEvent e rest).withIssuer c) = .next t)

/-- The offset of `CMD` is the only one that names it. -/
theorem ofOffset_cmd {off : Nat} (h : off < 64) (hc : Reg.ofOffset off = .cmd) : off = 0x1C := by
  have key : ∀ o < 64, Reg.ofOffset o = .cmd → o = 0x1C := by decide
  exact key off h hc

theorem step_cases {s t : State} (h : step s = .next t) : Stepped s t := by
  rcases hp : s.pending with _ | ⟨e, rest⟩
  · refine .idle hp ?_
    simp only [step, hp, Host.Outcome.next.injEq] at h
    exact h.symm
  · simp only [step, hp] at h
    rcases he : e.action with ⟨space, addr, bytes⟩ | ⟨space, addr, len⟩ | _ | ⟨c, w, landed⟩ <;> rw [he, perform] at h
    · unfold hostWrite at h
      rw [State.takeEvent_cfg] at h
      rcases hr : route s.cfg space addr with _ | ⟨c, off⟩ <;> rw [hr] at h <;> simp only at h
      · cases space with
        | regs => cases h
        | data =>
          simp only at h
          split at h
          · cases h
          · rename_i ha
            exact .store e rest addr bytes hp he ((hostRefusal_none_iff.mp ha).2) (Host.Outcome.next.inj h).symm
      · split at h
        · rename_i w hw
          split at h
          · by_cases ho : Reg.ofOffset off = .cmd
            · obtain rfl := ofOffset_cmd (route_some hr).2.1 ho
              exact .command e rest space addr bytes c w hp he hr hw h
            · refine .register e rest space addr bytes c off w hp he hr hw ho ?_
              generalize Reg.ofOffset off = r at *
              cases r <;> first | exact absurd rfl ho | exact (Host.Outcome.next.inj h).symm
          · cases h
        · cases h
    · unfold hostRead at h
      split at h
      · split at h
        · exact .read e rest space addr len _ hp he (Host.Outcome.next.inj h).symm
        · cases h
      · cases space with
        | regs => cases h
        | data =>
          simp only at h
          split at h
          · cases h
          · exact .read e rest .data addr len _ hp he (Host.Outcome.next.inj h).symm
    · exact .reset e rest hp he (Host.Outcome.next.inj h).symm
    · split at h
      · rename_i hc
        exact .abandoned e rest c w landed hp he hc h
      · cases h

/-- A command that is issued is its meaning, unless another agent touches the registers of its context (44_host_access.md
R184). -/
theorem runIssued_eq {i : Instr} {s : State} (h : registerFault s = none) : runIssued i s = exec i s := by
  rw [runIssued, h]
  cases exec i s <;> rfl

theorem runIssued_next_iff {i : Instr} {s t : State} :
    runIssued i s = .next t ↔ exec i s = .next t ∧ registerFault s = none := by
  rw [runIssued]
  cases exec i s <;> cases registerFault s <;> simp

/-- A memory command reports every interference itself, in the order of 60_exceptions.md R194. -/
theorem runIssued_memory {i : Instr} {s : State} {j : Job} (hj : jobOf i s = some j) : runIssued i s = exec i s := by
  rcases exec_cases i s with ⟨f, -, hf⟩ | ⟨hf, -⟩
  · rw [runIssued, hf]
  · exact runIssued_eq (Job.stable_registers (contract_of_faultOf hj hf).2.2)

/-- What a completed command word leaves: a reserved word its flag and its record, a legal one its command. -/
theorem issue_cases {w : Word} {s t : State} (h : issue w s = .next t) :
    (∃ e, decode w = .error e ∧ t = illegalCommand w s) ∨ (∃ i, decode w = .ok i ∧ exec i s = .next t) := by
  rw [issue] at h
  split at h
  · exact .inr ⟨_, by assumption, (runIssued_next_iff.mp h).1⟩
  · exact .inl ⟨_, by assumption, (Host.Outcome.next.inj h).symm⟩

/-- An abandoned command has converted the destination elements numbered in `landed` and touched nothing else
(70_reset_and_hazards.md R211). -/
theorem landElements_converted {j : Job} {m : Memory} (hwf : m.wf) (landed : List Nat) :
    Converted j m (landElements j landed m) (fun c f => f * j.chans + c ∈ landed) := by
  have hin : ∀ e ∈ landed.filter (fun e => decide (e < j.chans * j.count)), e < j.chans * j.count := by
    intro e he
    simpa using (List.mem_filter.mp he).2
  have hpos : ∀ e, e < j.chans * j.count → 0 < j.chans := fun e he =>
    Nat.pos_of_ne_zero (by intro h0; rw [h0] at he; omega)
  have h := Converted.stores (j := j)
    ((landed.filter (fun e => decide (e < j.chans * j.count))).map (fun e => (e % j.chans, e / j.chans)))
    (Converted.start hwf) (by
      simp only [List.mem_map]
      rintro p ⟨e, he, rfl⟩
      exact ⟨Nat.mod_lt _ (hpos e (hin e he)), Nat.div_lt_of_lt_mul (hin e he)⟩)
  have haddr : landElements j landed m = m.writeHalves j.order
      (((landed.filter (fun e => decide (e < j.chans * j.count))).map (fun e => (e % j.chans, e / j.chans))).map
        (fun p => (j.dst p.1 p.2, j.out m p.1 p.2))) := by
    rw [landElements, List.map_map]
    refine congrArg _ (List.map_congr_left (fun e _ => ?_))
    simp only [Function.comp_apply, Job.dst, dstAddr, Nat.div_add_mod']
  rw [haddr]
  refine h.congr (fun c f hc hf => ?_)
  simp only [false_or, List.mem_map, List.mem_filter, decide_eq_true_eq, Prod.mk.injEq]
  constructor
  · rintro ⟨e, ⟨he, _⟩, rfl, rfl⟩
    rwa [Nat.div_add_mod']
  · intro he
    refine ⟨_, ⟨he, elem_lt hc hf⟩, ?_, ?_⟩
    · rw [Nat.mul_add_mod', Nat.mod_eq_of_lt hc]
    · rw [Nat.mul_comm, Nat.mul_add_div (by omega), Nat.div_eq_of_lt hc, Nat.add_zero]

/-- What an abandoned command leaves: elements of its destination, and the registers after reset. -/
theorem abandon_cases {w : Word} {landed : List Nat} {s t : State} (h : abandon w landed s = .next t) :
    t = s.resetRegs ∨
    ∃ i j, decode w = .ok i ∧ faultOf i s = none ∧ jobOf i s = some j ∧
      t = (s.withMem (landElements j landed s.mem)).resetRegs := by
  rw [abandon] at h
  split at h
  · exact .inl (Host.Outcome.next.inj h).symm
  · split at h
    · cases h
    · rename_i hf
      have hf := (Option.or_eq_none_iff.mp hf).1
      split at h
      · exact .inl (Host.Outcome.next.inj h).symm
      · exact .inr ⟨_, _, by assumption, hf, by assumption, (Host.Outcome.next.inj h).symm⟩

end Sys2Proof.Machine
end

