-- ==== Sys2Proof/Tests/Slice0.lean ====
section
/-! SUPPORT. Tests. Part 1: ill-formed terms, each refused by the check it violates. Part 2: words written out from
30_encoding.md R80, R81. Part 3: vectors of 95_test_vectors.md, whose expected values are that file's, not the model's. Part 4:
for every obligation with hypotheses, states and operands that meet them. -/

open Sys2Proof Sys2Proof.Machine

namespace Sys2Proof.Tests

-- The kernel evaluations of this file one after another: as parallel tasks they exhaust the threads the checker allows.
set_option Elab.async false

/-! ### Outcomes as data -/

def nextOf (o : Host.Outcome State Fault Refusal) : Option State :=
  match o with
  | .next t => some t
  | .fault _ => none
  | .refused _ => none

def faultIn (o : Host.Outcome State Fault Refusal) : Option Fault :=
  match o with
  | .fault f => some f
  | .next _ => none
  | .refused _ => none

theorem next_of_isSome {o : Host.Outcome State Fault Refusal} (h : (nextOf o).isSome = true) : ∃ t, o = .next t := by
  cases o <;> first | exact ⟨_, rfl⟩ | cases h

theorem fault_of_eq {o : Host.Outcome State Fault Refusal} {f : Fault} (h : faultIn o = some f) : o = .fault f := by
  cases o <;> cases h
  rfl

/-! ### Part 1. Ill-formed terms -/

theorem test_wf_rsv : CmdWord.wellFormed ⟨1, false, 2⟩ = false := by decide
theorem test_wf_rsv_top : CmdWord.wellFormed ⟨0x400000, false, 2⟩ = false := by decide
theorem test_wf_opcode_zero : CmdWord.wellFormed ⟨0, false, 0⟩ = false := by decide
theorem test_wf_opcode_five : CmdWord.wellFormed ⟨0, true, 5⟩ = false := by decide
theorem test_wf_sc_on_cvts : CmdWord.wellFormed ⟨0, true, 1⟩ = false := by decide
theorem test_wf_legal : CmdWord.wellFormed ⟨0, false, 1⟩ = true ∧ CmdWord.wellFormed ⟨0, true, 4⟩ = true := by decide

theorem test_wf_config_width : Config.wellFormed { Config.default with width := 0 } = false := by decide +kernel
theorem test_wf_config_width2 : Config.wellFormed { Config.default with width2 := 0 } = false := by decide +kernel
theorem test_wf_config_align_small : Config.wellFormed { Config.default with stereoAlign := 2 } = false := by decide +kernel
theorem test_wf_config_align_power : Config.wellFormed { Config.default with stereoAlign := 24 } = false := by decide +kernel
theorem test_wf_config_addr_width : Config.wellFormed { Config.default with addrWidth := 33 } = false := by decide +kernel
theorem test_wf_config_nctx : Config.wellFormed { Config.default with regBase := [] } = false := by decide +kernel
theorem test_wf_config_base : Config.wellFormed { Config.default with regBase := [0x40000020] } = false := by decide +kernel
theorem test_wf_config_space : Config.wellFormed { Config.default with regBase := [2 ^ 32] } = false := by decide +kernel
theorem test_wf_config_twice :
    Config.wellFormed { Config.default with regBase := [0x40, 0x40] } = false := by decide +kernel
theorem test_wf_config_legal : Config.default.wellFormed = true := by decide +kernel

/-! ### Part 2. Words written out bit by bit: `RSV` [31:9], `SC` [8], `OPC` [7:0] -/

theorem test_decode_cvts : decode 0b00000000000000000000000_0_00000001 = .ok .cvts := by decide
theorem test_decode_cvtm : decode 0b00000000000000000000000_0_00000010 = .ok (.cvtm false) := by decide
theorem test_decode_cvtm_s : decode 0b00000000000000000000000_1_00000010 = .ok (.cvtm true) := by decide
theorem test_decode_cvti : decode 0b00000000000000000000000_0_00000011 = .ok (.cvti false) := by decide
theorem test_decode_cvti_s : decode 0b00000000000000000000000_1_00000011 = .ok (.cvti true) := by decide
theorem test_decode_cvti2 : decode 0b00000000000000000000000_0_00000100 = .ok (.cvti2 false) := by decide
theorem test_decode_cvti2_s : decode 0b00000000000000000000000_1_00000100 = .ok (.cvti2 true) := by decide

theorem test_decode_bytes : decodeBytes [0x02, 0x01, 0x00, 0x00] = .ok (.cvtm true) := by decide
theorem test_decode_short : decodeBytes [0x02, 0x01] = .error .notOneWord := by decide
theorem test_table_word : decodeTableWord 32 0x00000104 = some (.cvti2 true) ∧ decodeTableWord 32 0x00000101 = none := by decide
theorem test_fetch_word : nextOf (step (State.reset.withFetchWord 32 0x00000001)) = nextOf (exec .cvts State.reset) := by
  decide +kernel

/-! ### Part 3. Vectors -/

/-- Memory that holds the given words. -/
def memOf (l : List (Nat × Word)) : Memory := l.foldl (fun m p => m.writeBytes p.1 (wordBytes p.2)) []

/-- The memory of program P2: channel 0, channel 1, the pointer table, and the destination's surroundings. -/
def memP2 : Memory :=
  memOf [(0x1004, 0xBF800000), (0x1008, 0xC0000000), (0x1040, 0xC0000000), (0x1048, 0xBF800000),
    (0x2000, 0xEEEEEEEE), (0x2004, 0xEEEEEEEE), (0x2008, 0xEEEEEEEE), (0x200C, 0xEEEEEEEE),
    (0x3000, 0x00001000), (0x3004, 0x00001040)]

/-- One context with the given registers. -/
def stateOf (k : Context) (m : Memory) : State := { State.resetWith Config.default m with ctxs := [k] }

/-- The operand registers of vector V-M1. -/
def ctxMono : Context := { Context.reset 0 with dest := 0x2000, src0 := 0x1000, count := 3 }

/-- Those of action 5 of program P2, with a value in `CHANNELS` that `CVTI2` ignores (V-2D). -/
def ctxStereo : Context := { ctxMono with src1 := 0x1040, channels := 7 }

/-- Those of action 9 of program P2. -/
def ctxTable : Context := { ctxMono with src0 := 0x3000, channels := 2 }

def sMono : State := stateOf ctxMono memP2
def sStereo : State := stateOf ctxStereo memP2
def sTable : State := stateOf ctxTable memP2

/-- The registers and the bytes of a next state. -/
def after (o : Host.Outcome State Fault Refusal) (a len : Nat) : Option (List Context × List Byte) :=
  match o with
  | .next t => some (t.ctxs, t.mem.readBytes a len)
  | .fault _ => none
  | .refused _ => none

/-- Table A. -/
theorem test_cvts_tie :
    nextOf (exec .cvts (stateOf { ctxMono with sample := 0xB8A00140 } [])) =
      some (stateOf { ctxMono with sample := 0xB8A00140, result := 0xFFFFFFFD } []) := by decide +kernel

/-- V-S3: a `COUNT` that other commands do not accept. -/
theorem test_cvts_ignores_count :
    nextOf (exec .cvts (stateOf { ctxMono with sample := 0x3F7FFF00, count := 0x80000000 } [])) =
      some (stateOf { ctxMono with sample := 0x3F7FFF00, count := 0x80000000, result := 0x00007FFF } []) := by
  decide +kernel

/-- V-M1. -/
theorem test_cvtm_mono :
    after (exec (.cvtm false) sMono) 0x1FFF 8 = some ([ctxMono], [0, 0, 0, 0x01, 0x80, 0x01, 0x80, 0xEE]) := by
  decide +kernel

/-- V-M5 with `W = 2` and `COUNT = 3`: two samples on the batch path, a NaN among them, and a tail. -/
theorem test_cvtm_block_and_tail :
    after (exec (.cvtm false)
      { stateOf ctxMono (memOf [(0x1000, 0x3F000000), (0x1004, 0x7FC00000), (0x1008, 0xBF000000)]) with
        cfg := { Config.default with width := 2 } }) 0x2000 6 =
      some ([ctxMono], [0x00, 0x40, 0xFF, 0x7F, 0x00, 0xC0]) := by decide +kernel

/-- P2, action 9. -/
theorem test_cvti_table :
    after (exec (.cvti false) sTable) 0x2000 13 =
      some ([ctxTable], [0, 0, 0x01, 0x80, 0x01, 0x80, 0, 0, 0x01, 0x80, 0x01, 0x80, 0xEE]) := by decide +kernel

/-- P3: three channels, a destination that is only even. -/
theorem test_cvti_three_channels :
    after (exec (.cvti true)
      (stateOf { ctxTable with dest := 0x2002, channels := 3, count := 2 }
        (memOf [(0x1000, 0x3F000000), (0x1004, 0xBF000000), (0x1010, 0x3E800000), (0x1014, 0x3FC00000),
          (0x1020, 0xBDCCCCCD), (0x1024, 0x37800100), (0x3000, 0x1000), (0x3004, 0x1010), (0x3008, 0x1020)])))
      0x2002 12 =
      some ([{ ctxTable with dest := 0x2002, channels := 3, count := 2 }],
        [0x00, 0x40, 0x00, 0x20, 0x33, 0xF3, 0x00, 0xC0, 0xFF, 0x7F, 0x01, 0x00]) := by decide +kernel

/-- A big-endian platform "differs in the byte image only" (92_eei_decisions.md D3): a table entry, the samples -1.0 and
0x37800100, and their results, each with its bytes reversed. -/
theorem test_cvti_big_endian :
    after (exec (.cvti false)
      { stateOf { ctxTable with channels := 1, count := 2 }
          (memOf [(0x1000, 0x000080BF), (0x1004, 0x00018037), (0x3000, 0x00100000)]) with
        cfg := { Config.default with byteOrder := .big } }) 0x2000 4 =
      some ([{ ctxTable with channels := 1, count := 2 }], [0x80, 0x01, 0x00, 0x01]) := by decide +kernel

/-- R63 with `AW = 16`: the third destination element would lie at `2^16`. -/
theorem test_cvtm_address_width :
    faultIn (exec (.cvtm false)
      { stateOf { ctxMono with dest := 0xFFFC } memP2 with cfg := { Config.default with addrWidth := 16 } }) =
      some (.cvSize 0x10000) := by decide +kernel

/-- P2, action 5. -/
theorem test_cvti2_stereo :
    after (exec (.cvti2 false) sStereo) 0x2000 13 =
      some ([ctxStereo], [0, 0, 0x01, 0x80, 0x01, 0x80, 0, 0, 0x01, 0x80, 0x01, 0x80, 0xEE]) := by decide +kernel

/-- V-2B. -/
theorem test_cvti2_alignment :
    faultIn (exec (.cvti2 false) (stateOf { ctxStereo with src1 := 0x1044 } memP2)) = some (.cvAlign 0x1044) := by
  decide +kernel

/-- Table B: the lane steps of a sample whose product overflows, and of a NaN with its sign set. -/
theorem test_lane_overflow :
    mul32 0xFF7FFFFF K32767 = 0xFF800000 ∧ laneClamped 0xFF7FFFFF = 0xC6FFFE00 ∧ blane .vecBias 0xFF7FFFFF = -32767 := by
  decide +kernel
theorem test_lane_nan : laneClamped 0xFFC00000 = 0x46FFFE00 ∧ blane .vecModeSwitch 0xFFC00000 = 32767 := by decide +kernel

/-- Table C, row 1: the product is rounded before the tie is resolved. -/
theorem test_rounded_product : mul32 0x37800100 K32767 = 0x3F000000 ∧ cvt 0x37800100 = 1 := by decide +kernel

/-- R88 and R85: the `.S` form of `CONVERT_SAMPLE` writes the reserved word 0x00000101. -/
theorem test_convert_sample_s :
    ((asmConvertSample Config.default 0 true 0x3F000000).map Event.action).getD 1 .reset =
      .write .regs 0x4000001C [0x01, 0x01, 0x00, 0x00] := by decide +kernel

/-! ### Part 4. The hypotheses of the obligations can be met -/

/-- A state whose next host action is `a`. -/
def pendingOf (s : State) (a : HostAction) : State := { s with pending := [⟨a, []⟩] }

/-- A state whose next host action is `a`, on a platform that shows the register block in data memory. -/
def mappedOf (a : HostAction) : State :=
  { pendingOf State.reset a with cfg := { Config.default with regsMapped := [0] } }

/-- A 32-bit write of `v` to offset `off` of context 0. -/
def setAt (off : Nat) (v : Word) : HostAction := .write .regs (0x40000000 + off) (wordBytes v)

theorem test_witness_OpcodeTableSelects :
    (0x00000100 : Word).toNat % 2 ^ 8 = 0 ∧ 5 ≤ (0x00000005 : Word).toNat % 2 ^ 8 ∧
    opRow (.cvtm true) ∈ opTable ∧ (opRow (.cvtm true)).selects 0x00000102 = true := by decide

theorem test_witness_ReservedWordsRefused :
    State.reset.issuer < State.reset.ctxs.length ∧ decode 0x00000200 = .error .rsvNotZero ∧
    decode 0x00000000 = .error .opcode ∧ decode 0x00000005 = .error .opcode ∧ decode 0x00000101 = .error .scOnCvts := by
  decide

/-- Of two blocks the second is mapped. -/
def cfgMapped : Config := { Config.default with regBase := [0x40000000, 0x40000040], regsMapped := [1] }

theorem test_witness_RegisterBlockAddress :
    cfgMapped.wellFormed = true ∧ route cfgMapped .regs 0x4000003F = some (0, 63) ∧ route cfgMapped .regs 0x40000080 = none ∧
    route cfgMapped .data 0x4000003F = none ∧ route cfgMapped .data 0x40000040 = some (1, 0) := by decide +kernel

theorem test_witness_SetWritesRegister : ∀ k < 16,
    let s := pendingOf State.reset (setAt (4 * k) 0xFFFFFFFF)
    s.cfg.wellFormed = true ∧ s.ctxs.length = s.cfg.nctx ∧ 0 < s.cfg.nctx ∧ 4 * k < 64 ∧ 4 * k % 4 = 0 ∧
    s.pending = ⟨.write .regs (s.cfg.regBase.getD 0 0 + 4 * k) (wordBytes 0xFFFFFFFF), []⟩ :: [] := by decide +kernel

theorem test_witness_GetReadsRegister : ∀ k < 16,
    let s := pendingOf State.reset (.read .regs (0x40000000 + 4 * k) 4)
    s.cfg.wellFormed = true ∧ s.ctxs.length = s.cfg.nctx ∧ 0 < s.cfg.nctx ∧
    s.pending = ⟨.read .regs (s.cfg.regBase.getD 0 0 + 4 * k) 4, []⟩ :: [] := by decide +kernel

/-- A byte write to offset 0x0C and a 32-bit access to offset 0x0E (V-H6), and the words below and above the block. -/
theorem test_witness_UnsupportedAccessRefused :
    let g := Config.default
    -- an unaligned access of data memory whose last byte is the first of a mapped block
    let s := mappedOf (.write .data 0x3FFFFFFD [1, 2, 3, 4])
    (s.cfg.wellFormed = true ∧ 0x3FFFFFFD % 4 ≠ 0 ∧ ∃ q ∈ mappedBlocks s.cfg, q.contains (0x3FFFFFFD + 3) = true) ∧
    g.wellFormed = true ∧ ([0xFF] : List Byte).length ≠ 4 ∧ 0x4000000E % 4 ≠ 0 ∧
    (∀ b ∈ g.regBase, 0x3FFFFFFC < b ∨ b + 64 ≤ 0x3FFFFFFC) ∧
    (∀ b ∈ g.regBase, 0x40000040 < b ∨ b + 64 ≤ 0x40000040) ∧
    (pendingOf State.reset (.read .regs 0x40000040 4)).pending = ⟨.read .regs 0x40000040 4, []⟩ :: [] := by decide +kernel

/-- A NaN; an infinity and a nonzero; a zero product; a product of exactly `2^128 - 2^103` (31 and 1082401 times
powers of two) and one below it; and a product halfway between two numbers. -/
theorem test_witness_MultiplyIsNearestEven :
    isNaN 0xFFC00000 = true ∧
    (isInf 0x7F800000 = true ∧ isNaN 0x7F800000 = false ∧ isZero 0x80000001 = false ∧ isNaN 0x80000001 = false) ∧
    (isFinite 0x80000000 = true ∧ mag 0x80000000 * mag 0x3F800000 = 0) ∧
    (isFinite 0x64780000 = true ∧ isFinite 0x5A842108 = true ∧ mag 0x64780000 * mag 0x5A842108 = 2 ^ 426 - 2 ^ 401) ∧
    mag 0x7F7FFFFF * mag 0x3F800000 < 2 ^ 426 - 2 ^ 401 ∧
    (mag 0x3FC00001 ≠ mag (mul32 0x3FC00000 0x3F800001) ∧
      2 * (mag 0x3FC00000 * mag 0x3F800001) = (mag 0x3FC00001 + mag 0x3FC00002) * 2 ^ 149) := by decide +kernel

theorem test_witness_RoundHalfAwayFromZero :
    (isFinite 0x40200000 = true ∧ 0 ≤ sval 0x40200000 ∧
      (2 * (rha 0x40200000 * 2 ^ 149 - sval 0x40200000)).natAbs = 2 ^ 149) ∧
    (isFinite 0x80000000 = true ∧ 0 ≤ sval 0x80000000) ∧ (isFinite 0xBF000000 = true ∧ sval 0xBF000000 < 0) := by
  decide +kernel

theorem test_witness_ResultsStayInRange :
    sMono.mem.wf ∧ Ready sMono ∧ (∃ t, exec .cvts sMono = .next t) ∧ (∃ t, exec (.cvtm false) sMono = .next t) ∧
    jobOf (.cvtm false) sMono = some (cvtmJob sMono) ∧ 2 < (cvtmJob sMono).chans * (cvtmJob sMono).count :=
  ⟨by decide +kernel, by decide +kernel, next_of_isSome (by decide +kernel), next_of_isSome (by decide +kernel),
    by decide +kernel, by decide +kernel⟩

theorem test_witness_NonFiniteInputs :
    isNaN 0x7F800001 = true ∧ isNaN 0xFFFFFFFF = true ∧ sStereo.mem.wf ∧ Ready sStereo ∧
    ∃ t, exec (.cvti2 true) sStereo = .next t :=
  ⟨by decide, by decide, by decide +kernel, by decide +kernel, next_of_isSome (by decide +kernel)⟩

/-- 1.0, -1.0, and the first values outside on each side. -/
theorem test_witness_ScalarContract :
    (isFinite ONE = true ∧ -(2 ^ 149) ≤ sval ONE ∧ sval ONE ≤ 2 ^ 149) ∧
    (isFinite MONE = true ∧ -(2 ^ 149) ≤ sval MONE ∧ sval MONE ≤ 2 ^ 149) ∧
    (isNaN 0xBF800001 = false ∧ sval 0xBF800001 < -(2 ^ 149)) ∧ (isNaN 0x3F800001 = false ∧ 2 ^ 149 < sval 0x3F800001) := by
  decide +kernel

theorem test_witness_BranchOrderDoesNotMatter : isNaN 0x7F800000 = false ∧ isNaN ONE = false := by decide

theorem test_witness_ConversionIsOdd : isNaN 0x80000000 = false ∧ isNaN 0x7F800000 = false := by decide

theorem test_witness_ConversionIsMonotone :
    isNaN 0xFF800000 = false ∧ isNaN 0x80000000 = false ∧ sval 0xFF800000 ≤ sval 0x80000000 := by decide +kernel

theorem test_witness_ProductStaysInRange :
    (isFinite MONE = true ∧ (sval MONE).natAbs ≤ 2 ^ 149) ∧
    (isNaN 0x3F7FFF00 = false ∧ sval 0x3F7FFF00 ≤ sval 0x3F7FFF00) ∧ sval 0x3F7FFF00 ≤ sval 0x7F800000 := by
  decide +kernel

theorem test_witness_ExactTiesOnlyAtHalf :
    isFinite 0xBF000000 = true ∧ mag 0xBF000000 ≤ 2 ^ 149 ∧ 2 * (mag 0xBF000000 * 32767) = (2 * 16383 + 1) * 2 ^ 149 ∧
    0xBF000000 &&& ABSMASK = HALF := by
  decide +kernel

/-- Where the bias sum is exact, the nearest number is the sum: 0.5 + 0.5 for the sample 0x37800100. -/
theorem test_witness_RoundedBiasIsHarmless :
    isFinite ONE = true ∧ ∀ y : Word, isFinite y = true →
      ((mag ONE : Int) - (mag (laneClamped 0x37800100) + 2 ^ 148)).natAbs ≤
        ((mag y : Int) - (mag (laneClamped 0x37800100) + 2 ^ 148)).natAbs := by
  have h : (mag ONE : Int) - (mag (laneClamped 0x37800100) + 2 ^ 148) = 0 := by decide +kernel
  exact ⟨by decide, fun y _ => by rw [h]; exact Nat.zero_le _⟩

theorem test_witness_TinyInputsGiveZero :
    mag 0xB78000FF ≤ mag 0x378000FF ∧ expField 0x807FFFFF = 0 ∧ cvt 0x37800100 = 1 := by decide +kernel

theorem test_witness_CompensationsAgree : isFinite 0xC6FFFE00 = true ∧ isFinite 0x7F7FFFFF = true := by decide

theorem test_witness_CvtsConvertsSample : State.reset.issuer < State.reset.ctxs.length := by decide

/-- The preconditions hold, with a last element and bytes just outside the destination; and they fail, by one register. -/
theorem test_witness_CvtmConvertsBuffer :
    sMono.mem.wf ∧ Ready sMono ∧ CvtmPre sMono ∧ 2 < sMono.cur.count.toNat ∧ 0x1FFF < sMono.cur.dest.toNat ∧
    sMono.cur.dest.toNat + 2 * sMono.cur.count.toNat ≤ 0x2006 ∧
    ¬ CvtmPre (stateOf { ctxMono with dest := 0x1008 } memP2) := by decide +kernel

theorem test_witness_CvtiInterleavesChannels :
    sTable.mem.wf ∧ Ready sTable ∧ CvtiPre sTable ∧ 1 < sTable.cur.channels.toNat ∧ 2 < sTable.cur.count.toNat ∧
    0x1FFF < sTable.cur.dest.toNat ∧
    sTable.cur.dest.toNat + 2 * (sTable.cur.channels.toNat * sTable.cur.count.toNat) ≤ 0x200C ∧
    ¬ CvtiPre (stateOf { ctxTable with channels := 0 } memP2) := by decide +kernel

theorem test_witness_Cvti2InterleavesStereo :
    sStereo.mem.wf ∧ Ready sStereo ∧ Cvti2Pre sStereo ∧ 2 < sStereo.cur.count.toNat ∧ 0x1FFF < sStereo.cur.dest.toNat ∧
    sStereo.cur.dest.toNat + 4 * sStereo.cur.count.toNat ≤ 0x200C ∧
    ¬ Cvti2Pre (stateOf { ctxStereo with src1 := 0x1044 } memP2) := by decide +kernel

theorem test_witness_PathsAreEquivalent :
    sMono.mem.wf ∧ Ready sMono ∧ Ready sTable ∧ Ready sStereo ∧ (∃ t, exec (.cvtm true) sMono = .next t) ∧
    (∃ t, exec (.cvti true) sTable = .next t) ∧ (∃ t, exec (.cvti2 true) sStereo = .next t) ∧
    exec (.cvtm true) (stateOf { ctxMono with count := 0x80000000 } memP2) = .fault .cvCount ∧
    exec (.cvti true) (stateOf { ctxTable with channels := 0 } memP2) = .fault .cvChannels ∧
    exec (.cvti2 true) (stateOf { ctxStereo with src1 := 0x1000 } memP2) = .fault .cvOverlap :=
  ⟨by decide +kernel, by decide +kernel, by decide +kernel, by decide +kernel, next_of_isSome (by decide +kernel),
    next_of_isSome (by decide +kernel), next_of_isSome (by decide +kernel), fault_of_eq (by decide +kernel),
    fault_of_eq (by decide +kernel), fault_of_eq (by decide +kernel)⟩

/-- A configuration that admits 0x1000 to 0x3FFF only, as 95_test_vectors.md has it. -/
def cfgVectors : Config := { Config.default with regions := [⟨0x1000, 0x3000, true, true, false⟩] }

/-- A state with that memory map and one overlapping access. -/
def strictOf (k : Context) (ov : List Access) : State := { stateOf k memP2 with cfg := cfgVectors, overlap := ov }

theorem test_witness_FaultsInOrder_mono :
    ctxMono.count.toInt ≥ 0 ∧ (0x80000000 : Word).toInt < 0 ∧
    (0x2001 : Word).toNat % 2 ≠ 0 ∧ (0x1002 : Word).toNat % 4 ≠ 0 ∧
    -- the destination ends one element beyond memory
    ¬ (cvtmJob (strictOf { ctxMono with dest := 0x3FFC } [])).sized cfgVectors ∧
    ((cvtmJob (strictOf { ctxMono with dest := 0x1008 } [])).sized cfgVectors ∧
      ¬ (cvtmJob (strictOf { ctxMono with dest := 0x1008 } [])).separate cfgVectors) ∧
    ((cvtmJob (strictOf ctxMono [.read 0x2005 1])).sized cfgVectors ∧
      (cvtmJob (strictOf ctxMono [.read 0x2005 1])).separate cfgVectors ∧
      ¬ (cvtmJob (strictOf ctxMono [.read 0x2005 1])).stable (strictOf ctxMono [.read 0x2005 1])) := by decide +kernel

theorem test_witness_FaultsInOrder_stereo :
    (0x1044 : Word).toNat % cfgVectors.stereoAlign ≠ 0 ∧ (0x1044 : Word).toNat % 4 = 0 ∧
    ctxStereo.dest.toNat % cfgVectors.stereoAlign = 0 ∧ ctxStereo.src0.toNat % cfgVectors.stereoAlign = 0 ∧
    ctxStereo.src1.toNat % cfgVectors.stereoAlign = 0 ∧
    ¬ (cvti2Job (strictOf { ctxStereo with src1 := 0x4000 } [])).sized cfgVectors ∧
    ((cvti2Job (strictOf { ctxStereo with src1 := 0x1000 } [])).sized cfgVectors ∧
      ¬ (cvti2Job (strictOf { ctxStereo with src1 := 0x1000 } [])).separate cfgVectors) ∧
    ((cvti2Job (strictOf ctxStereo [.regs 0])).sized cfgVectors ∧
      (cvti2Job (strictOf ctxStereo [.regs 0])).separate cfgVectors ∧
      ¬ (cvti2Job (strictOf ctxStereo [.regs 0])).stable (strictOf ctxStereo [.regs 0])) := by decide +kernel

theorem test_witness_FaultsInOrder_table :
    (0x00000000 : Word).toInt ≤ 0 ∧ 0 < (0x00000001 : Word).toInt ∧
    -- the table's last entry can be read and is misaligned, and neither its buffer nor the destination is admitted
    (let s := { strictOf { ctxTable with dest := 0x8000 } [] with mem := memOf [(0x3000, 0x1000), (0x3004, 0x9002)] };
      s.cur.count ≠ 0 ∧ (∃ c < s.cur.channels.toNat,
        entryAdmitted s.cfg s.cur.src0.toNat c = true ∧ tableEntry s.mem s.cfg.byteOrder s.cur.src0.toNat c % 4 ≠ 0) ∧
      ¬ (cvtiJob s).sized s.cfg) ∧
    -- the misaligned entry lies where memory ends
    (let s := { strictOf { ctxTable with src0 := 0x3FFC } [] with mem := memOf [(0x3FFC, 0x1000), (0x4000, 0x1002)] };
      (∀ c < s.cur.channels.toNat,
        entryAdmitted s.cfg s.cur.src0.toNat c = true → tableEntry s.mem s.cfg.byteOrder s.cur.src0.toNat c % 4 = 0) ∧
      ¬ (cvtiJob s).sized s.cfg) ∧
    (∀ c < 2, tableEntry (strictOf ctxTable []).mem .little 0x3000 c % 4 = 0) ∧
    ¬ (cvtiJob (strictOf { ctxTable with dest := 0x3FF6 } [])).sized cfgVectors ∧
    ((cvtiJob (strictOf { ctxTable with dest := 0x3000 } [])).sized cfgVectors ∧
      ¬ (cvtiJob (strictOf { ctxTable with dest := 0x3000 } [])).separate cfgVectors) ∧
    ((cvtiJob (strictOf ctxTable [.write 0x3007 1])).sized cfgVectors ∧
      (cvtiJob (strictOf ctxTable [.write 0x3007 1])).separate cfgVectors ∧
      ¬ (cvtiJob (strictOf ctxTable [.write 0x3007 1])).stable (strictOf ctxTable [.write 0x3007 1])) := by decide +kernel

/-- Buffers that end at the first address beyond memory, one for each clause, with `AW = 32` and with `AW = 16`; one that ends
with memory is not among them. -/
theorem test_witness_AddressesDoNotWrap :
    (let s := stateOf { ctxStereo with dest := 0xFFFFFFF0, count := 9 } [];
      0 < s.cur.count.toInt ∧ s.cur.dest.toNat % 2 = 0 ∧ s.cur.src0.toNat % 4 = 0 ∧ s.cur.src1.toNat % 4 = 0 ∧
      s.cur.dest.toNat % s.cfg.stereoAlign = 0 ∧ s.cur.src0.toNat % s.cfg.stereoAlign = 0 ∧
      s.cur.src1.toNat % s.cfg.stereoAlign = 0 ∧
      2 ^ s.cfg.addrWidth < s.cur.dest.toNat + 2 * s.cur.count.toNat ∧
      ¬ 2 ^ s.cfg.addrWidth < s.cur.dest.toNat + 2 * (8 : Word).toNat ∧
      2 ^ s.cfg.addrWidth < s.cur.dest.toNat + 2 * (2 * s.cur.count.toNat)) ∧
    (let s := { stateOf ctxTable (memOf [(0x3000, 0x1000), (0x3004, 0xFFF8)]) with
        cfg := { Config.default with addrWidth := 16 } };
      0 < s.cur.count.toInt ∧ s.cur.dest.toNat % 2 = 0 ∧ s.cur.src0.toNat % 4 = 0 ∧ 0 < s.cur.channels.toInt ∧
      (∀ c < s.cur.channels.toNat, tableEntry s.mem s.cfg.byteOrder s.cur.src0.toNat c % 4 = 0) ∧
      ∃ c < s.cur.channels.toNat,
        2 ^ s.cfg.addrWidth < tableEntry s.mem s.cfg.byteOrder s.cur.src0.toNat c + 4 * s.cur.count.toNat) := by
  decide +kernel

theorem test_witness_OutcomesOfCommands :
    exec (.cvti false) (stateOf { ctxTable with channels := 0xFFFFFFFF } memP2) = .fault .cvChannels ∧
    exec (.cvtm false) (stateOf { ctxMono with dest := 0x1000 } memP2) = .fault .cvOverlap :=
  ⟨fault_of_eq (by decide +kernel), fault_of_eq (by decide +kernel)⟩

/-- The registers of an empty command, at addresses outside admitted memory (V-I3). -/
def ctxEmpty : Context := { ctxStereo with dest := 0xFFFFFFF0, src0 := 0xFFFFFF00, src1 := 0xFFFFFFF0, count := 0 }

/-- Another agent's write that ends where the table of seven entries begins, or that touches its last byte. -/
theorem test_witness_EmptyCommandDoesNothing :
    let s := strictOf ctxEmpty [.regs 1, .write 0xFFFFFEFF 1]
    let table : Span := ⟨s.cur.src0.toNat, 4 * s.cur.channels.toNat⟩
    Ready s ∧ s.cur.count = 0 ∧ (∀ a ∈ s.overlap, a.touchesRegs s.cfg s.issuer = false) ∧ s.cur.dest.toNat % 2 = 0 ∧
    s.cur.src0.toNat % 4 = 0 ∧ 0 < s.cur.channels.toInt ∧
    ((∀ q ∈ mappedBlocks s.cfg, table.disjoint q) ∧ table.disjoint ⟨0xFFFFFEFF, 1⟩ ∧
      ¬ table.disjoint ⟨0xFFFFFF1B, 1⟩) ∧ s.cur.src1.toNat % 4 = 0 ∧
    s.cur.dest.toNat % s.cfg.stereoAlign = 0 ∧ s.cur.src0.toNat % s.cfg.stereoAlign = 0 ∧
    s.cur.src1.toNat % s.cfg.stereoAlign = 0 := by decide +kernel

/-- The last byte of the empty command's table is the first of a mapped register block. -/
theorem test_witness_EmptyCommandDoesNothing_block :
    ∃ q ∈ mappedBlocks { Config.default with regsMapped := [0] },
      ¬ (Span.mk (0x3FFFFFE8 : Word).toNat (4 * (7 : Word).toNat)).disjoint q := by decide +kernel

theorem test_witness_StereoEqualsGeneric :
    (sStereo.mem.wf ∧ Ready sStereo ∧ Cvti2Pre sStereo) ∧
    CvtiPre (sStereo.setCur { sStereo.cur with src0 := 0x3000, channels := 2 }) ∧
    (sStereo.mem.readWord .little (0x3000 : Word).toNat = sStereo.cur.src0 ∧
      sStereo.mem.readWord .little ((0x3000 : Word).toNat + 4) = sStereo.cur.src1) ∧
    CvtmPre (sStereo.setCur { sStereo.cur with dest := 0x2100 }) ∧
    CvtmPre (sStereo.setCur { sStereo.cur with dest := 0x2200, src0 := sStereo.cur.src1 }) ∧
    2 < sStereo.cur.count.toNat :=
  ⟨by decide +kernel, by decide +kernel, by decide +kernel, by decide +kernel, by decide +kernel, by decide +kernel⟩

theorem test_witness_OneChannelEqualsMono :
    sMono.mem.wf ∧ Ready sMono ∧ CvtmPre sMono ∧
    CvtiPre (sMono.setCur { sMono.cur with src0 := 0x3000, channels := 1 }) ∧
    sMono.mem.readWord .little (0x3000 : Word).toNat = sMono.cur.src0 := by decide +kernel

theorem test_witness_CommandFrame :
    sTable.mem.wf ∧ Ready sTable ∧ (∃ t, exec .cvts sTable = .next t) ∧ jobOf .cvts sTable = none ∧
    (∃ t, exec (.cvti false) sTable = .next t) ∧ jobOf (.cvti false) sTable = some (cvtiJob sTable) ∧
    0x1FFF < (cvtiJob sTable).dest ∧
    (cvtiJob sTable).dest + 2 * ((cvtiJob sTable).chans * (cvtiJob sTable).count) ≤ 0x200C :=
  ⟨by decide +kernel, by decide +kernel, next_of_isSome (by decide +kernel), rfl, next_of_isSome (by decide +kernel), rfl,
    by decide +kernel, by decide +kernel⟩

theorem test_witness_RmodeHasNoInfluence :
    sMono.mem.wf ∧ Ready sMono ∧ (∃ t, exec (.cvtm false) sMono = .next t) ∧
    Ready (stateOf { ctxMono with dest := 0x1000 } memP2) ∧
    exec (.cvtm false) (stateOf { ctxMono with dest := 0x1000 } memP2) = .fault .cvOverlap :=
  ⟨by decide +kernel, by decide +kernel, next_of_isSome (by decide +kernel), by decide +kernel,
    fault_of_eq (by decide +kernel)⟩

/-- Two contexts: the first has the registers of V-M1, the second those of P2's generic form with another destination. -/
def sTwo : State :=
  { sMono with
    cfg := { Config.default with regBase := [0x40000000, 0x40000040] },
    ctxs := [ctxMono, { ctxTable with dest := 0x2100 }] }

theorem test_witness_OtherContextsHaveNoInfluence :
    sTwo.mem.wf ∧ Ready sTwo ∧ 1 ≠ sTwo.issuer ∧ (∃ t, exec (.cvtm false) sTwo = .next t) ∧
    Ready ((sTwo.setCtx 1 { ctxTable with channels := 0 }).withIssuer 1) ∧
    exec (.cvti false) ((sTwo.setCtx 1 { ctxTable with channels := 0 }).withIssuer 1) = .fault .cvChannels :=
  ⟨by decide +kernel, by decide +kernel, by decide, next_of_isSome (by decide +kernel), by decide +kernel,
    fault_of_eq (by decide +kernel)⟩

theorem test_witness_CommandRepeats :
    Inv sMono ∧ sMono.issuer < sMono.ctxs.length ∧ ∃ t, exec (.cvtm false) sMono = .next t :=
  ⟨by decide +kernel, by decide, next_of_isSome (by decide +kernel)⟩

/-- The two commands share their sources, which each only reads. -/
theorem test_witness_IndependentCommandsCommute :
    Inv sTwo ∧ 0 < sTwo.ctxs.length ∧ 1 < sTwo.ctxs.length ∧ (∃ t, exec (.cvtm false) (sTwo.withIssuer 0) = .next t) ∧
    (∃ t, exec (.cvti true) (sTwo.withIssuer 1) = .next t) ∧
    (∀ r ∈ (cvtiJob (sTwo.withIssuer 1)).destSpan :: (cvtiJob (sTwo.withIssuer 1)).readSpans,
      (cvtmJob (sTwo.withIssuer 0)).destSpan.disjoint r) ∧
    (∀ r ∈ (cvtmJob (sTwo.withIssuer 0)).destSpan :: (cvtmJob (sTwo.withIssuer 0)).readSpans,
      (cvtiJob (sTwo.withIssuer 1)).destSpan.disjoint r) ∧
    (cvtmJob (sTwo.withIssuer 0)).destSpan.contains 0x2005 = true ∧
    (cvtiJob (sTwo.withIssuer 1)).destSpan.contains 0x210B = true :=
  ⟨by decide +kernel, by decide, by decide, next_of_isSome (by decide +kernel), next_of_isSome (by decide +kernel),
    by decide +kernel, by decide +kernel, by decide +kernel, by decide +kernel⟩

theorem test_witness_StepRunsDecodedCommand :
    let s := pendingOf sMono (setAt 0x1C 0x00000002)
    s.cfg.wellFormed = true ∧ 0 < s.cfg.nctx ∧ decode 0x00000002 = .ok (.cvtm false) ∧
    s.pending = ⟨.write .regs (s.cfg.regBase.getD 0 0 + 0x1C) (wordBytes 0x00000002), []⟩ :: [] ∧ sMono.pending = [] ∧
    -- the same write through the mapped block
    (let m := mappedOf (.write .data 0x4000001C (wordBytes 0x00000002));
      m.cfg.wellFormed = true ∧ m.cfg.mapped 0 = true ∧
      m.pending = ⟨.write .data (m.cfg.regBase.getD 0 0 + 0x1C) (wordBytes 0x00000002), []⟩ :: []) ∧
    -- another context's block is no register of context 0; its own is, in register space and where it is mapped
    (Access.regs 1).touchesRegs s.cfg 0 = false ∧ (Access.regs 0).touchesRegs s.cfg 0 = true ∧
    (Access.read 0x4000003F 1).touchesRegs { s.cfg with regsMapped := [0] } 0 = true := by
  decide +kernel

/-- A memory that lists the last address of the address space. -/
theorem test_witness_InvariantAtReset :
    Memory.wf [(2 ^ 32 - 1, 0xFF)] ∧
    ∀ c ∈ ([(2 ^ 32 - 1, 0xFF)] : Memory), c.1 < 2 ^ Config.default.addrWidth := by decide

theorem test_witness_StepKeepsInvariant :
    Inv (pendingOf sTwo (setAt 0x1C 0x00000002)) ∧ ∃ t, step (pendingOf sTwo (setAt 0x1C 0x00000002)) = .next t :=
  ⟨by decide +kernel, next_of_isSome (by decide +kernel)⟩

/-- `RMODE` of context 0 and whether its `ILL` is set, after one step. -/
def modeAfter (s : State) : Option (BitVec 2 × Bool) := (nextOf (step s)).map (fun t => ((t.ctx 0).rmode, (t.ctx 0).ill))

/-- A write of `RMODE`, in register space and through a mapped block, a reset that changes it, and one during `CVTS` that does. -/
theorem test_witness_RmodeChangesOnlyByHost :
    Inv (pendingOf sMono (setAt 0x24 0xFFFFFFFE)) ∧ (sMono.ctx 0).rmode = 0 ∧
    modeAfter (pendingOf sMono (setAt 0x24 0xFFFFFFFE)) = some (2, false) ∧
    Inv (pendingOf (stateOf { ctxMono with rmode := 3 } []) .reset) ∧
    modeAfter (pendingOf (stateOf { ctxMono with rmode := 3 } []) .reset) = some (0, false) ∧
    Inv (pendingOf (stateOf { ctxMono with rmode := 3 } []) (.resetDuring 0 0x00000001 [])) ∧
    modeAfter (pendingOf (stateOf { ctxMono with rmode := 3 } []) (.resetDuring 0 0x00000001 [])) = some (0, false) ∧
    Inv (mappedOf (.write .data 0x40000024 (wordBytes 0x00000002))) ∧
    modeAfter (mappedOf (.write .data 0x40000024 (wordBytes 0x00000002))) = some (2, false) := by decide +kernel

/-- A reserved word sets `ILL`; a write of 1 to `STATUS`, a reset, and one during `CVTS` clear it. -/
theorem test_witness_IllChangesOnly :
    Inv (pendingOf sMono (setAt 0x1C 0x00000202)) ∧ (sMono.ctx 0).ill = false ∧
    modeAfter (pendingOf sMono (setAt 0x1C 0x00000202)) = some (0, true) ∧
    Inv (pendingOf (stateOf { ctxMono with ill := true } []) (setAt 0x20 0x00000001)) ∧
    modeAfter (pendingOf (stateOf { ctxMono with ill := true } []) (setAt 0x20 0x00000001)) = some (0, false) ∧
    modeAfter (pendingOf (stateOf { ctxMono with ill := true } []) .reset) = some (0, false) ∧
    modeAfter (pendingOf (stateOf { ctxMono with ill := true } []) (.resetDuring 0 0x00000001 [])) = some (0, false) := by
  decide +kernel

theorem test_witness_StepKeepsConfig : ∃ t, step (pendingOf sMono (setAt 0x1C 0x00000002)) = .next t :=
  next_of_isSome (by decide +kernel)

/-- One byte of memory after a step. -/
def byteAfter (s : State) (a : Nat) : Option Byte := (nextOf (step s)).map (fun t => t.mem.read a)

/-- A store, a command, and a command that reset abandons after its last element, each change a byte. -/
theorem test_witness_MemoryChangesOnlyWhereWritten :
    (Inv (pendingOf sMono (.write .data 0x2000 [0x55])) ∧ sMono.mem.read 0x2000 = 0xEE ∧
      byteAfter (pendingOf sMono (.write .data 0x2000 [0x55])) 0x2000 = some 0x55) ∧
    (Inv (pendingOf sMono (setAt 0x1C 0x00000002)) ∧ sMono.mem.read 0x2005 = 0xEE ∧
      byteAfter (pendingOf sMono (setAt 0x1C 0x00000002)) 0x2005 = some 0x80) ∧
    (Inv (pendingOf sMono (.resetDuring 0 0x00000002 [2])) ∧
      byteAfter (pendingOf sMono (.resetDuring 0 0x00000002 [2])) 0x2005 = some 0x80) := by decide +kernel

theorem test_witness_RegistersAfterReset : 0 < Config.default.nctx := by decide

theorem test_witness_ResetClearsRegisters : (pendingOf sMono .reset).pending = ⟨.reset, []⟩ :: [] := rfl

/-- Element 2 has landed and elements 0 and 1 have not. -/
theorem test_witness_ResetDuringCommand :
    let s := pendingOf sMono (.resetDuring 0 0x00000002 [2])
    let s' := { s with pending := [], overlap := [], report := .ok, issuer := 0 }
    Inv s ∧ s.pending = ⟨.resetDuring 0 0x00000002 [2], []⟩ :: [] ∧ 0 < s.ctxs.length ∧
    decode 0x00000002 = .ok (.cvtm false) ∧ CvtmPre s' ∧ jobOf (.cvtm false) s' = some (cvtmJob s') ∧
    0 < (cvtmJob s').chans ∧ 2 < (cvtmJob s').count ∧ 2 * (cvtmJob s').chans + 0 ∈ [2] ∧
    (∃ e, decode 0x00000101 = .error e) ∧ decode 0x00000001 = .ok .cvts :=
  ⟨by decide +kernel, by decide +kernel, by decide +kernel, by decide, by decide +kernel, by decide +kernel,
    by decide +kernel, by decide +kernel, by decide +kernel, ⟨.scOnCvts, by decide⟩, by decide⟩

theorem test_witness_MemoryIsLittleEndian :
    Memory.wf memP2 ∧ ∃ t, step (pendingOf sMono (setAt 0x1C 0x00000002)) = .next t :=
  ⟨by decide +kernel, next_of_isSome (by decide +kernel)⟩

theorem test_witness_BigEndianMirrorsBytes : Memory.wf memP2 := by decide +kernel

/-- A word at the last aligned address of the address space. -/
theorem test_witness_HostStoresAndLoads :
    sMono.mem.wf ∧ ([1, 2, 3, 4] : List Byte).length = 4 ∧
    (∀ k < max 1 4, ∀ q ∈ mappedBlocks sMono.cfg, q.contains (0xFFFFFFFC + k) = false) ∧
    (∀ k < 4, admits sMono.cfg .store (0xFFFFFFFC + k) = true) ∧
    (∀ k < 4, admits sMono.cfg .load (0xFFFFFFFC + k) = true) ∧
    (pendingOf sMono (.write .data 0xFFFFFFFC [1, 2, 3, 4])).pending = ⟨.write .data 0xFFFFFFFC [1, 2, 3, 4], []⟩ :: [] ∧
    (pendingOf sMono (.read .data 0xFFFFFFFC 4)).pending = ⟨.read .data 0xFFFFFFFC 4, []⟩ :: [] := by decide +kernel

/-- The last offset, of the second of two contexts, written and read. -/
theorem test_witness_MappedAccessReachesRegisters :
    let s := { sTwo with cfg := cfgMapped }
    let w := pendingOf s (.write .data 0x4000007C (wordBytes 0x00000002))
    let r := pendingOf s (.read .data 0x4000007C 4)
    s.cfg.wellFormed = true ∧ s.ctxs.length = s.cfg.nctx ∧ 1 < s.cfg.nctx ∧ s.cfg.mapped 1 = true ∧
    w.pending = ⟨.write .data (s.cfg.regBase.getD 1 0 + 0x3C) (wordBytes 0x00000002), []⟩ :: [] ∧
    r.pending = ⟨.read .data (s.cfg.regBase.getD 1 0 + 0x3C) 4, []⟩ :: [] := by decide +kernel

end Sys2Proof.Tests
end

section
/-! O52: `BYTE_ORDER` as a parameter. Where the byte of each significance stands is said once for both orders, through
`ByteOrder.place`; the big-endian byte image is the case `.big` of it. -/

namespace Sys2Proof.Machine

/-- 20_memory.md R52: `readWord` joins four bytes, the most significant first, each from its place. -/
theorem Memory.extractLsb'_readWord (m : Memory) (o : ByteOrder) (a : Nat) {k : Nat} (hk : k < 4) :
    (m.readWord o a).extractLsb' (8 * k) 8 = m.read (a + o.place 4 k) := by
  rw [Memory.readWord]
  match k, hk with
  | 0, _ =>
    rw [BitVec.extractLsb'_append_eq_of_add_le (by decide), BitVec.extractLsb'_append_eq_of_add_le (by decide),
      BitVec.extractLsb'_append_eq_right]
  | 1, _ =>
    rw [BitVec.extractLsb'_append_eq_of_add_le (by decide), BitVec.extractLsb'_append_eq_of_add_le (by decide),
      BitVec.extractLsb'_append_eq_left]
  | 2, _ => rw [BitVec.extractLsb'_append_eq_of_add_le (by decide), BitVec.extractLsb'_append_eq_left]
  | 3, _ => rw [BitVec.extractLsb'_append_eq_left]

/-- 20_memory.md R52, for the two bytes that `writeHalf` stores; the second store does not meet the first. -/
theorem Memory.read_writeHalf_place {m : Memory} (h : m.wf) (o : ByteOrder) (a : Nat) (v : Half) {k : Nat} (hk : k < 2) :
    (m.writeHalf o a v).read (a + o.place 2 k) = v.extractLsb' (8 * k) 8 := by
  rw [Memory.read_writeHalf o h]
  match k, hk with
  | 0, _ => rw [if_pos rfl]
  | 1, _ =>
    have hne : a + o.place 2 1 ≠ a + o.place 2 0 := by have := o.place_two; omega
    rw [if_neg hne, if_pos rfl]

/-- Settles O52, by the laws of an element in either order and the places of its bytes in the order `.big`. -/
theorem bigEndianMirrorsBytes : Obligations.BigEndianMirrorsBytes := by
  unfold Obligations.BigEndianMirrorsBytes
  refine ⟨fun o m a v hwf => ⟨?readBack, fun c hc => ?frame⟩, fun m a k hk => ?bytesRead,
    fun m a v hwf k hk => ?bytesWritten⟩
  case readBack => exact Memory.readHalf_writeHalf_same o hwf a v
  case frame => exact Memory.read_writeHalf_other o hwf v (by omega)
  case bytesRead => exact Memory.extractLsb'_readWord m .big a hk
  case bytesWritten => exact Memory.read_writeHalf_place hwf .big a v hk

end Sys2Proof.Machine
end

section
/-! The lane algorithm agrees with the scalar conversion on every word (41_batch_convert.md R133), and the conversion stays in
the range of R106; the laws of the commands take the first as a premise. -/

namespace Sys2Proof.Machine

/-- A word that is not finite is a NaN or one of the two infinities (40_scalar_convert.md R100). -/
theorem nonFinite_cases {x : Word} (h : isFinite x = false) : isNaN x = true ∨ x = 0x7F800000 ∨ x = 0xFF800000 := by
  have hge : ¬ absBits x < 0x7F800000 := by rw [← isFinite_iff, h]; decide
  by_cases hinf : absBits x = 0x7F800000
  · refine .inr ?_
    have heta := packSign_eta x
    rw [hinf] at heta
    cases hs : x.msb <;> rw [hs] at heta
    · exact .inl heta.symm
    · exact .inr heta.symm
  · exact .inl ((isNaN_iff x).mpr (by omega))

/-- A NaN lane is forced to +32767.0 (41_batch_convert.md R131). -/
theorem laneClamped_nan {x : Word} (h : isNaN x = true) : laneClamped x = K32767 := by
  have hmul : mul32 x K32767 = QNAN := if_pos (by rw [h, Bool.true_or])
  rw [laneClamped, hmul]
  decide +kernel

/-- `CVT` of a NaN (40_scalar_convert.md R108). -/
theorem cvt_nan {x : Word} (h : isNaN x = true) : cvt x = 32767 := if_pos h

/-- The lane algorithm converts every word as the scalar converter does, under every strategy. -/
theorem blane_eq_cvt (impl : Impl) (x : Word) : blane impl x = cvt x := by
  cases hfin : isFinite x with
  | true =>
    rw [blane, laneClamped_finite hfin, laneToInt_packSign _ _ (by omega), cvt_finite hfin]
  | false =>
    rcases nonFinite_cases hfin with hnan | rfl | rfl
    · rw [blane, laneClamped_nan hnan, cvt_nan hnan]
      cases impl <;> decide +kernel
    · cases impl <;> decide +kernel
    · cases impl <;> decide +kernel

/-- 40_scalar_convert.md R106: every result of the conversion lies in `-32767 .. 32767`. -/
theorem cvt_bounds (x : Word) : -32767 ≤ cvt x ∧ cvt x ≤ 32767 := by
  cases hfin : isFinite x with
  | true =>
    have hclamp : (magBits (min (scaled x) 0x46FFFE00) + 2 ^ 148) / 2 ^ 149 ≤ 32767 :=
      (Nat.div_le_div_right (Nat.add_le_add_right (magBits_le_iff.mpr (Nat.min_le_right _ _)) _)).trans_eq floor_clamp
    rw [cvt_finite hfin]
    cases x.msb <;> simp only [Bool.false_eq_true, if_false, if_true] <;> omega
  | false =>
    rcases nonFinite_cases hfin with hnan | rfl | rfl
    · rw [cvt_nan hnan]; decide
    · decide +kernel
    · decide +kernel

/-- What `CVTS` stores in `RESULT` is the integer it converted to (40_scalar_convert.md R104, R113). -/
theorem toInt_signExtend_int16_cvt (x : Word) : ((int16 (cvt x)).signExtend 32).toInt = cvt x := by
  have hb := cvt_bounds x
  rw [BitVec.toInt_signExtend_of_le (by decide), int16, BitVec.toInt_ofInt]
  exact Int.bmod_eq_of_le (by omega) (by omega)

end Sys2Proof.Machine
end

section
/-! The shape of a completed command without a premise on the lane algorithm, and which updates of the state keep the
invariant. -/

namespace Sys2Proof.Machine

/-- What every command that completes leaves (10_state.md R40): `exec_shape`, its premise discharged. -/
theorem exec_completed {i : Instr} {s t : State} (hwf : s.mem.wf) (hr : Ready s) (h : exec i s = .next t) :
    ∃ m r, t = (s.setCur (s.cur.withResult r)).withMem m ∧ m.wf ∧
      (jobOf i s = none → r = (int16 (cvt s.cur.sample)).signExtend 32 ∧ m = s.mem) ∧
      (∀ j, jobOf i s = some j → r = s.cur.result ∧ faultOf i s = none ∧ Converted j s.mem m (fun _ _ => True)) :=
  exec_shape (blane_eq_cvt _) hwf hr h

/-- A job that converts elements of an admitted destination stays in the address space (20_memory.md R50, R63). -/
theorem Converted.inSpace {j : Job} {m0 m : Memory} {S : Nat → Nat → Prop} {g : Config} (h : Converted j m0 m S)
    (hwf : m0.wf) (hs : m0.inSpace (2 ^ g.addrWidth)) (hd : j.destSpan.admitted g .store) :
    m.inSpace (2 ^ g.addrWidth) := by
  refine (Memory.inSpace_iff h.wf).mpr (fun a ha => ?_)
  have hout : j.destSpan.contains a = false := by
    rw [← Bool.not_eq_true, Span.contains_iff]
    rintro ⟨hlo, hhi⟩
    have := admits_inSpace (hd (a - j.destSpan.base) (by omega))
    omega
  rw [h.outside hout]
  exact (Memory.inSpace_iff hwf).mp hs a ha

/-! ### Updates that keep the invariant -/

theorem Inv.ctx_settled {s : State} (h : Inv s) {c : Nat} (hc : c < s.ctxs.length) : (s.ctx c).settled :=
  h.2.2.2 _ (State.ctx_mem hc)

/-- Between commands every context is ready (44_host_access.md R183). -/
theorem Inv.ready {s : State} (h : Inv s) (hi : s.issuer < s.ctxs.length) : Ready s :=
  ⟨hi, (h.ctx_settled hi).1⟩

theorem Inv.setCtx {s : State} (h : Inv s) (c : Nat) {k : Context} (hk : k.settled) : Inv (s.setCtx c k) := by
  obtain ⟨hwf, hspace, hlen, hset⟩ := h
  refine ⟨hwf, hspace, (s.setCtx_length c k).trans hlen, fun k' hk' => ?_⟩
  rcases s.mem_setCtx c k hk' with rfl | hold
  · exact hk
  · exact hset k' hold

theorem Inv.withMem {s : State} (h : Inv s) {m : Memory} (hwf : m.wf) (hspace : m.inSpace (2 ^ s.cfg.addrWidth)) :
    Inv (s.withMem m) :=
  ⟨hwf, hspace, h.2.2⟩

/-- A context after reset is settled (10_state.md R41). -/
theorem Context.reset_settled (r : BitVec 2) : (Context.reset r).settled :=
  ⟨rfl, show -32767 ≤ (0 : Word).toInt by decide, show (0 : Word).toInt ≤ 32767 by decide⟩

/-- Whatever the contexts held, reset makes them `NCTX` settled ones (70_reset_and_hazards.md R210). -/
theorem Inv.resetRegs {s : State} (hwf : s.mem.wf) (hspace : s.mem.inSpace (2 ^ s.cfg.addrWidth)) : Inv s.resetRegs := by
  refine ⟨hwf, hspace, List.length_replicate, fun k hk => ?_⟩
  obtain rfl := List.eq_of_mem_replicate hk
  exact Context.reset_settled _

/-! ### Host actions that keep the invariant -/

/-- A command keeps the invariant: it changes memory within an admitted destination, or `RESULT` to a converted value. -/
theorem Inv.exec {i : Instr} {s t : State} (h : Inv s) (hi : s.issuer < s.ctxs.length) (he : exec i s = .next t) :
    Inv t := by
  have hset := h.ctx_settled hi
  obtain ⟨m, r, rfl, hm, hnone, hsome⟩ := exec_completed h.1 (h.ready hi) he
  rcases hj : jobOf i s with _ | j
  · obtain ⟨rfl, rfl⟩ := hnone hj
    have hr := cvt_bounds s.cur.sample
    rw [← toInt_signExtend_int16_cvt] at hr
    exact h.setCtx s.issuer ⟨hset.1, hr⟩
  · obtain ⟨rfl, hf, hconv⟩ := hsome j hj
    have hspace := hconv.inSpace h.1 h.2.1 (contract_of_faultOf hj hf).1.2
    exact (h.setCtx s.issuer hset).withMem hm hspace

/-- So does any word written to `CMD`. -/
theorem Inv.issue {w : Word} {s t : State} (h : Inv s) (hi : s.issuer < s.ctxs.length) (ht : issue w s = .next t) :
    Inv t := by
  rcases issue_cases ht with ⟨e, -, rfl⟩ | ⟨i, -, he⟩
  · exact h.setCtx s.issuer (h.ctx_settled hi)
  · exact h.exec hi he

/-- So does a reset in the middle of a command, with any set of elements written (70_reset_and_hazards.md R211). -/
theorem Inv.abandon {w : Word} {landed : List Nat} {s t : State} (h : Inv s) (ht : abandon w landed s = .next t) :
    Inv t := by
  rcases abandon_cases ht with rfl | ⟨i, j, -, hf, hj, rfl⟩
  · exact .resetRegs h.1 h.2.1
  · have hconv := landElements_converted h.1 (j := j) landed
    exact .resetRegs hconv.wf (hconv.inSpace h.1 h.2.1 (contract_of_faultOf hj hf).1.2)

/-- Settles O40, by the cases of a step: each is one of the updates above. -/
theorem stepKeepsInvariant : Obligations.StepKeepsInvariant := by
  unfold Obligations.StepKeepsInvariant
  intro s t hinv hstep
  have hlen : s.ctxs.length = s.cfg.nctx := hinv.2.2.1
  cases step_cases hstep with
  | idle _ ht => exact ht ▸ hinv
  | command e rest _ _ _ c w _ _ hr _ ht =>
    have htaken : Inv ((s.takeEvent e rest).withIssuer c) := hinv
    exact htaken.issue (hlen.symm ▸ (route_some hr).1) ht
  | register e rest _ _ _ c off w _ _ hr _ _ ht =>
    have htaken : Inv (s.takeEvent e rest) := hinv
    have hset := hinv.ctx_settled (hlen.symm ▸ (route_some hr).1)
    subst ht
    refine htaken.setCtx c ?_
    rw [Context.settled, Context.writeReg_work, Context.writeReg_result]
    exact hset
  | store e rest addr bytes _ _ ha ht =>
    have htaken : Inv (s.takeEvent e rest) := hinv
    subst ht
    exact htaken.withMem (Memory.writeBytes_wf hinv.1 addr bytes)
      (Memory.writeBytes_inSpace hinv.2.1 (fun k hk => admits_inSpace (ha k hk)))
  | read _ _ _ _ _ _ _ _ ht => subst ht; exact hinv
  | reset _ _ _ _ ht => subst ht; exact .resetRegs hinv.1 hinv.2.1
  | abandoned e rest c w landed _ _ _ ht =>
    have htaken : Inv ((s.takeEvent e rest).withIssuer c) := hinv
    exact htaken.abandon ht

/-- Settles O39: memory is the argument, and every context is the one `Context.reset_settled` speaks of. -/
theorem invariantAtReset : Obligations.InvariantAtReset := by
  unfold Obligations.InvariantAtReset
  have hreset : ∀ (g : Config) (m : Memory), m.wf → m.inSpace (2 ^ g.addrWidth) → Inv (State.resetWith g m) :=
    fun g m hwf hspace => Inv.resetRegs (s := State.resetWith g m) hwf hspace
  exact ⟨hreset _ _ ⟨List.Pairwise.nil, nofun⟩ nofun, hreset⟩

/-- Settles O45: every context is `Context.reset` of the parameter, whose fields are R41's values. -/
theorem registersAfterReset : Obligations.RegistersAfterReset := by
  unfold Obligations.RegistersAfterReset
  intro g m c _
  have hctx : (State.resetWith g m).ctx c = Context.reset g.rmodeReset := State.resetRegs_ctx (State.resetWith g m) c
  rw [hctx]
  exact ⟨rfl, rfl, rfl, rfl, rfl, rfl, rfl, rfl, rfl, rfl, rfl, rfl⟩

end Sys2Proof.Machine
end

section
/-! What a command leaves unchanged, and what it depends on: the frame (O33), noninterference (O34, O35) and repetition
(O36). -/

namespace Sys2Proof.Machine

/-! ### The frame -/

/-- A command without buffers is `CVTS`. -/
theorem jobOf_none {i : Instr} {s : State} (hj : jobOf i s = none) : i = .cvts := by
  cases i with
  | cvts => rfl
  | cvtm _ | cvti _ | cvti2 _ => cases hj

/-- A byte outside the destination buffer, by its address (20_memory.md R57). -/
theorem Job.destSpan_outside {j : Job} {a : Nat} (h : a < j.dest ∨ j.dest + 2 * (j.chans * j.count) ≤ a) :
    j.destSpan.contains a = false := by
  rw [← Bool.not_eq_true, Span.contains_iff]
  simp only [Job.destSpan]
  omega

/-- Settles O33: the state a command leaves has a new `RESULT` and a new memory and nothing else, by `exec_completed`. -/
theorem commandFrame : Obligations.CommandFrame := by
  unfold Obligations.CommandFrame
  intro i s t hwf hr he
  obtain ⟨m, r, rfl, -, hnone, hsome⟩ := exec_completed hwf hr he
  have hcur : ((s.setCur (s.cur.withResult r)).withMem m).cur = s.cur.withResult r := s.cur_setCur _ hr.1
  have hresult : i ≠ .cvts → r = s.cur.result := by
    intro hi
    rcases hj : jobOf i s with _ | j
    · exact absurd (jobOf_none hj) hi
    · exact (hsome j hj).1
  rw [hcur]
  refine ⟨rfl, hresult, fun c hc => s.ctx_setCtx_other _ _ hc, s.setCur_length _, rfl, rfl, rfl, rfl, rfl, rfl,
    fun hj => (hnone hj).2, fun j hj a ha => ?_⟩
  exact (hsome j hj).2.2.outside (Job.destSpan_outside ha)

/-! ### What a command depends on -/

/-- A command that completes has found no false precondition. -/
theorem faultOf_of_exec {i : Instr} {s t : State} (he : exec i s = .next t) : faultOf i s = none := by
  rcases exec_cases i s with ⟨f, -, hf⟩ | ⟨hf, -⟩
  · rw [hf] at he; cases he
  · exact hf

/-- A memory command that completes leaves a new memory, its job converted, and nothing else: `exec_memory`, its premises
discharged. -/
theorem exec_memory_completed {i : Instr} {s t : State} {j : Job} (hwf : s.mem.wf) (hr : Ready s)
    (hj : jobOf i s = some j) (he : exec i s = .next t) :
    ∃ m, t = s.withMem m ∧ Converted j s.mem m (fun _ _ => True) := by
  obtain ⟨m, hx, hconv⟩ := exec_memory (blane_eq_cvt _) hwf hr hj (faultOf_of_exec he)
  exact ⟨m, Host.Outcome.next.inj (he.symm.trans hx), hconv⟩

/-- Two states give a command of `issuer` the same inputs: they may differ in the other contexts, in `RMODE`, and in the
model's own fields that no command reads. -/
structure State.SameInputs (s s' : State) : Prop where
  cfg : s'.cfg = s.cfg
  mem : s'.mem = s.mem
  overlap : s'.overlap = s.overlap
  issuer : s'.issuer = s.issuer
  cur : s'.cur.withRmode s.cur.rmode = s.cur

section
variable {s s' : State} (h : s.SameInputs s')
include h

/-- The inputs' context agrees in every field that `withRmode` leaves alone. -/
theorem State.SameInputs.field {α : Type} (f : Context → α)
    (hf : ∀ (k : Context) (r : BitVec 2), f (k.withRmode r) = f k := by intros; rfl) : f s'.cur = f s.cur :=
  (hf _ _).symm.trans (congrArg f h.cur)

theorem State.SameInputs.ready (hi : s'.issuer < s'.ctxs.length) (hr : Ready s) : Ready s' :=
  ⟨hi, (h.field Context.work).trans hr.2⟩

/-- The buffers of a command are a function of its inputs (10_state.md R40). -/
theorem State.SameInputs.jobOf_eq (i : Instr) : jobOf i s' = jobOf i s := by
  have hdest := h.field Context.dest
  have hsrc0 := h.field Context.src0
  have hsrc1 := h.field Context.src1
  have hcount := h.field Context.count
  have hchans := h.field Context.channels
  cases i <;> simp only [jobOf, cvtmJob, cvtiJob, cvti2Job, hdest, hsrc0, hsrc1, hcount, hchans, h.cfg, h.mem]

/-- The checks of a job read the parameters and the overlapping accesses only. -/
theorem State.SameInputs.jobFault_eq (reqs : List AlignReq) (j : Job) : jobFault s' reqs j = jobFault s reqs j := by
  rw [jobFault, jobFault, raceFault, raceFault, h.cfg, h.overlap, h.issuer]

/-- So the first false precondition of a command is a function of its inputs as well. -/
theorem State.SameInputs.faultOf_eq (i : Instr) : faultOf i s' = faultOf i s := by
  have hjob := h.jobOf_eq i
  have hcount := h.field countFault
  have hchans := h.field channelsFault
  have hdest := h.field Context.dest
  have hsrc0 := h.field Context.src0
  have hsrc1 := h.field Context.src1
  cases i with
  | cvts => rfl
  | cvtm sc =>
    have haligns : cvtmAligns s' = cvtmAligns s := by rw [cvtmAligns, cvtmAligns, hdest, hsrc0]
    rw [faultOf, faultOf, cvtmFault, cvtmFault, hcount, haligns, Option.some.inj hjob, h.jobFault_eq]
  | cvti sc =>
    have haligns : cvtiAligns s' = cvtiAligns s := by
      rw [cvtiAligns, cvtiAligns, hdest, hsrc0, Option.some.inj hjob, h.cfg, h.mem]
    rw [faultOf, faultOf, cvtiFault, cvtiFault, hcount, hchans, haligns, Option.some.inj hjob, h.jobFault_eq]
  | cvti2 sc =>
    have haligns : cvti2Aligns s' = cvti2Aligns s := by
      rw [cvti2Aligns, cvti2Aligns, hdest, hsrc0, hsrc1, h.cfg]
    rw [faultOf, faultOf, cvti2Fault, cvti2Fault, hcount, haligns, Option.some.inj hjob, h.jobFault_eq]

/-- A command that faults faults alike on the same inputs. -/
theorem State.SameInputs.exec_fault {i : Instr} {f : Fault} (he : exec i s = .fault f) : exec i s' = .fault f := by
  rcases exec_cases i s with ⟨f', hf, hx⟩ | ⟨-, t, ht⟩
  · rw [hx] at he
    cases he
    exact Machine.exec_fault ((h.faultOf_eq i).trans hf)
  · rw [ht] at he
    cases he

/-- A command that completes completes alike on the same inputs: it leaves the same `RESULT` and the same memory, in the
state it was issued in. -/
theorem State.SameInputs.exec_next {i : Instr} {t : State} (hwf : s.mem.wf) (hr : Ready s)
    (hi : s'.issuer < s'.ctxs.length) (he : exec i s = .next t) :
    exec i s' = .next ((s'.setCur (s'.cur.withResult t.cur.result)).withMem t.mem) := by
  rcases hj : jobOf i s with _ | j
  · obtain rfl := jobOf_none hj
    have hsample := h.field Context.sample
    rw [exec_cvts] at he ⊢
    cases he
    rw [State.cur_setCur _ _ hr.1, hsample, State.setCur_mem, ← h.mem]
    rfl
  · have hresult := h.field Context.result
    obtain ⟨m, rfl, hconv⟩ := exec_memory_completed hwf hr hj he
    obtain ⟨m', he', hconv'⟩ := exec_memory (blane_eq_cvt _) (h.mem.symm ▸ hwf) (h.ready hi hr)
      ((h.jobOf_eq i).trans hj) ((h.faultOf_eq i).trans (faultOf_of_exec he))
    rw [h.mem] at hconv'
    rw [he', hconv'.unique hconv, State.withMem_cur, State.withMem_mem, ← hresult, Context.withResult_self,
      State.setCur_self]

end

/-! ### `RMODE` and the other contexts -/

/-- Contexts at different places are replaced in either order. -/
theorem State.setCtx_comm (s : State) {c d : Nat} (h : c ≠ d) (k k' : Context) :
    (s.setCtx c k).setCtx d k' = (s.setCtx d k').setCtx c k := by
  simp only [State.setCtx, List.set_comm _ _ h]

/-- Settles O34: states that differ in `RMODE` of the issuing context give a command the same inputs. -/
theorem rmodeHasNoInfluence : Obligations.RmodeHasNoInfluence := by
  unfold Obligations.RmodeHasNoInfluence
  intro i s r hwf hr
  have hcur : (s.setCur (s.cur.withRmode r)).cur = s.cur.withRmode r := s.cur_setCur _ hr.1
  have hsame : s.SameInputs (s.setCur (s.cur.withRmode r)) :=
    ⟨rfl, rfl, rfl, rfl, by rw [hcur, Context.withRmode_withRmode, Context.withRmode_self]⟩
  refine ⟨fun t he => ?_, fun f he => hsame.exec_fault he⟩
  have he' := hsame.exec_next hwf hr ((s.setCur_length _).symm ▸ hr.1) he
  obtain ⟨m, v, rfl, -, -, -⟩ := exec_completed hwf hr he
  have hleft : ((s.setCur (s.cur.withResult v)).withMem m).cur = s.cur.withResult v := s.cur_setCur _ hr.1
  refine he'.trans (congrArg Host.Outcome.next ?_)
  rw [hcur, hleft, State.setCur_setCur, State.setCur_withMem, State.setCur_setCur]
  rfl

/-- Settles O35: states that differ in another context give a command the same inputs. -/
theorem otherContextsHaveNoInfluence : Obligations.OtherContextsHaveNoInfluence := by
  unfold Obligations.OtherContextsHaveNoInfluence
  intro i s c k hwf hr hc
  have hcur : (s.setCtx c k).cur = s.cur := s.ctx_setCtx_other _ _ hc.symm
  have hsame : s.SameInputs (s.setCtx c k) := ⟨rfl, rfl, rfl, rfl, by rw [hcur, Context.withRmode_self]⟩
  refine ⟨fun t he => ?_, fun f he => hsame.exec_fault he⟩
  have he' := hsame.exec_next hwf hr ((s.setCtx_length _ _).symm ▸ hr.1) he
  obtain ⟨m, v, rfl, -, -, -⟩ := exec_completed hwf hr he
  have hleft : ((s.setCur (s.cur.withResult v)).withMem m).cur = s.cur.withResult v := s.cur_setCur _ hr.1
  refine he'.trans (congrArg Host.Outcome.next ?_)
  rw [hcur, hleft, State.setCtx_withMem, State.setCur, State.setCtx_issuer, State.setCtx_comm s hc]
  rfl

/-! ### The same command again -/

/-- What converts the elements of a job from its own end state converts them from the start: the sources still read as they
did. -/
theorem Converted.again {j : Job} {m0 m m' : Memory} {S : Nat → Nat → Prop} (ha : j.apart)
    (h : Converted j m0 m S) (h' : Converted j m m' S) : Converted j m0 m' S where
  wf := h'.wf
  done c f hc hf hS := by
    rw [h'.done c f hc hf hS, Job.out, Job.out, h.source ha hc hf]
  rest a hout := (h'.rest a hout).trans (h.rest a hout)

/-- The buffers a command reads are the same after it as before: none meets its destination (20_memory.md R59(b)). -/
theorem Converted.readSpans_unchanged {j : Job} {m0 m : Memory} {S : Nat → Nat → Prop} {g : Config}
    (h : Converted j m0 m S) (hsep : j.separate g) :
    ∀ r ∈ j.readSpans, ∀ a, r.contains a = true → m.read a = m0.read a := by
  intro r hmem a ha
  have hdisj : r.disjoint j.destSpan := (Span.disjoint_comm _ _).mp ((List.pairwise_cons.mp hsep.1).1 r hmem)
  have hapart := Span.disjoint_apart hdisj ((Span.contains_iff r a).mp ha)
  exact h.outside (Job.destSpan_outside hapart)

/-- Settles O36: a memory command finds the same buffers and the same sources in its end state, so that it converts them to
the same memory; `CVTS` finds the same `SAMPLE`. -/
theorem commandRepeats : Obligations.CommandRepeats := by
  unfold Obligations.CommandRepeats
  intro i s t hinv hi he
  have hr := hinv.ready hi
  rcases hj : jobOf i s with _ | j
  · obtain rfl := jobOf_none hj
    rw [exec_cvts] at he ⊢
    cases he
    rw [State.cur_setCur _ _ hi, State.setCur_setCur]
    rfl
  · have hf := faultOf_of_exec he
    obtain ⟨m, rfl, hconv⟩ := exec_memory_completed hinv.1 hr hj he
    obtain ⟨hj', hf'⟩ := jobOf_keep (s' := s.withMem m) hj hf rfl rfl rfl rfl rfl rfl rfl rfl
      (hconv.readSpans_unchanged (contract_of_faultOf hj hf).2.1)
    obtain ⟨m', he', hconv'⟩ := exec_memory (s := s.withMem m) (blane_eq_cvt _) hconv.wf hr hj' hf'
    rw [he', (hconv.again (apart_of_faultOf hj hf) hconv').unique hconv, State.withMem_withMem]

end Sys2Proof.Machine
end

section
/-! Where a host access goes (O5, O50), which accesses are refused (O8), and what a step leaves of the parameters and of `RMODE`
(O43, O41). -/

namespace Sys2Proof.Machine

/-! ### The register blocks of a legal configuration -/

/-- The register blocks are aligned and at different places (20_memory.md R62). -/
theorem Config.wellFormed_bases {g : Config} (h : g.wellFormed = true) : (∀ b ∈ g.regBase, b % 64 = 0) ∧ g.regBase.Nodup := by
  simp only [Config.wellFormed, Bool.and_eq_true, decide_eq_true_eq, List.all_eq_true, beq_iff_eq] at h
  obtain ⟨⟨-, hbases⟩, hnodup⟩ := h
  exact ⟨fun b hb => (hbases b hb).1, hnodup⟩

theorem Config.regBase_aligned {g : Config} (h : g.wellFormed = true) {c : Nat} (hc : c < g.nctx) :
    g.regBase.getD c 0 % 64 = 0 := by
  rw [List.getD_eq_getElem _ _ hc]
  exact (Config.wellFormed_bases h).1 _ (List.getElem_mem hc)

/-- No other block holds an address of a context's block: aligned blocks of their own size meet only if they are the same. -/
theorem blockAt_base {g : Config} (h : g.wellFormed = true) {c off : Nat} (hc : c < g.nctx) (ho : off < 64) :
    blockAt g (g.regBase.getD c 0 + off) = some (c, off) := by
  obtain ⟨halign, hnodup⟩ := Config.wellFormed_bases h
  have hfind : g.regBase.findIdx? (fun b => (regSpan b).contains (g.regBase.getD c 0 + off)) = some c := by
    rw [List.getD_eq_getElem _ _ hc, List.findIdx?_eq_some_iff_getElem]
    refine ⟨hc, (Span.contains_iff _ _).mpr ⟨Nat.le_add_right _ _, Nat.add_lt_add_left ho _⟩, fun d hd hin => ?_⟩
    have hdlt : d < g.regBase.length := hd.trans hc
    have hne : g.regBase[d] ≠ g.regBase[c] := fun heq => absurd (hnodup.getElem_inj_iff.mp heq) (by omega)
    have hd0 := halign _ (List.getElem_mem hdlt)
    have hc0 := halign _ (List.getElem_mem hc)
    obtain ⟨hlo, hhi⟩ := (Span.contains_iff _ _).mp hin
    simp only [regSpan] at hlo hhi
    omega
  rw [blockAt, hfind]
  simp

/-- Where a host access goes, as an equivalence (10_state.md R22, R39). -/
theorem route_eq_some_iff {g : Config} (h : g.wellFormed = true) {space : Space} {addr c off : Nat} :
    route g space addr = some (c, off) ↔
      c < g.nctx ∧ off < 64 ∧ addr = g.regBase.getD c 0 + off ∧ (space = .data → g.mapped c = true) := by
  constructor
  · intro hr
    obtain ⟨hc, ho, ha⟩ := route_some hr
    refine ⟨hc, ho, ha, ?_⟩
    rintro rfl
    exact (Option.filter_eq_some_iff.mp hr).2
  · rintro ⟨hc, ho, rfl, hm⟩
    cases space with
    | regs => exact blockAt_base h hc ho
    | data => exact Option.filter_eq_some_iff.mpr ⟨blockAt_base h hc ho, hm rfl⟩

/-- Settles O5, by `route_eq_some_iff`. -/
theorem registerBlockAddress : Obligations.RegisterBlockAddress := by
  unfold Obligations.RegisterBlockAddress
  exact fun g h space addr c off => route_eq_some_iff h

/-! ### A step that reads or writes -/

section
variable {s : State} {space : Space} {addr len : Nat} {bytes : List Byte} {ov : List Access} {rest : List Event}

theorem step_write (h : s.pending = ⟨.write space addr bytes, ov⟩ :: rest) :
    step s = hostWrite space addr bytes (s.takeEvent ⟨.write space addr bytes, ov⟩ rest) := by
  simp only [step, h, perform]

theorem step_read (h : s.pending = ⟨.read space addr len, ov⟩ :: rest) :
    step s = hostRead space addr len (s.takeEvent ⟨.read space addr len, ov⟩ rest) := by
  simp only [step, h, perform]

end

/-! ### Refused accesses -/

/-- An access that is no access of a register and that a register block is in the way of: where it starts in a block it is not
an aligned 32-bit one, and where it starts in none it can go nowhere else (10_state.md R33). -/
structure Unsupported (g : Config) (space : Space) (addr len : Nat) : Prop where
  inBlock : ∀ c off, route g space addr = some (c, off) → regAccessOk off len = false
  outside : route g space addr = none → space = .data → ∃ q ∈ mappedBlocks g, q.overlaps ⟨addr, len⟩ = true

/-- An access of data memory that runs into a mapped block is `REG_ACCESS`, in either direction. -/
theorem hostRefusal_overlap {g : Config} (d : Dir) {addr len : Nat}
    (h : ∃ q ∈ mappedBlocks g, q.overlaps ⟨addr, len⟩ = true) : hostRefusal g d addr len = some (.regAccess addr len) :=
  if_pos (List.any_eq_true.mpr h)

theorem hostWrite_unsupported {s : State} {space : Space} {addr : Nat} {bytes : List Byte}
    (h : Unsupported s.cfg space addr bytes.length) :
    hostWrite space addr bytes s = .refused (.regAccess addr bytes.length) := by
  unfold hostWrite
  rcases hr : route s.cfg space addr with _ | ⟨c, off⟩
  · cases space with
    | regs => rfl
    | data => simp only [hostRefusal_overlap .store (h.outside hr rfl)]
  · cases hw : bytesWord bytes with
    | none => rfl
    | some v => simp only [h.inBlock c off hr, Bool.false_eq_true, if_false]

theorem hostRead_unsupported {s : State} {space : Space} {addr len : Nat} (h : Unsupported s.cfg space addr len) :
    hostRead space addr len s = .refused (.regAccess addr len) := by
  unfold hostRead
  rcases hr : route s.cfg space addr with _ | ⟨c, off⟩
  · cases space with
    | regs => rfl
    | data => simp only [hostRefusal_overlap .load (h.outside hr rfl)]
  · simp only [h.inBlock c off hr, Bool.false_eq_true, if_false]

/-- In a block an access of another width or a misaligned one is no register access: a block is aligned, so that its offsets are
as its addresses. -/
theorem regAccessOk_false {g : Config} (hg : g.wellFormed = true) {space : Space} {addr len c off : Nat}
    (h : len ≠ 4 ∨ addr % 4 ≠ 0) (hr : route g space addr = some (c, off)) : regAccessOk off len = false := by
  obtain ⟨hc, -, haddr⟩ := route_some hr
  have halign := Config.regBase_aligned hg hc
  rw [← Bool.not_eq_true, regAccessOk_iff]
  omega

/-- Register space: another width, misaligned, or beyond every block. -/
theorem unsupported_regs {g : Config} (hg : g.wellFormed = true) {addr len : Nat}
    (h : len ≠ 4 ∨ addr % 4 ≠ 0 ∨ ∀ b ∈ g.regBase, addr < b ∨ b + 64 ≤ addr) : Unsupported g .regs addr len where
  inBlock c off hr := by
    rcases or_assoc.mpr h with hbad | hbeyond
    · exact regAccessOk_false hg hbad hr
    · obtain ⟨hc, ho, haddr⟩ := route_some hr
      rw [List.getD_eq_getElem _ _ hc] at haddr
      have := hbeyond _ (List.getElem_mem hc)
      omega
  outside _ hs := nomatch hs

/-- Data memory: another width or misaligned, with a byte in a mapped block. -/
theorem unsupported_data {g : Config} (hg : g.wellFormed = true) {addr len k : Nat} (h : len ≠ 4 ∨ addr % 4 ≠ 0)
    (hk : k < len) (hq : ∃ q ∈ mappedBlocks g, q.contains (addr + k) = true) : Unsupported g .data addr len where
  inBlock _ _ hr := regAccessOk_false hg h hr
  outside _ _ := by
    obtain ⟨q, hmem, hin⟩ := hq
    obtain ⟨hlo, hhi⟩ := (Span.contains_iff _ _).mp hin
    refine ⟨q, hmem, ?_⟩
    simp only [Span.overlaps, decide_eq_true_eq]
    omega

/-- Settles O8: each kind of access it names is `Unsupported`. -/
theorem unsupportedAccessRefused : Obligations.UnsupportedAccessRefused := by
  unfold Obligations.UnsupportedAccessRefused
  rintro s addr _ bytes ov rest hg rfl hbad
  have hregs : Unsupported s.cfg .regs addr bytes.length := unsupported_regs hg hbad
  refine ⟨⟨fun hp => ?_, fun hp => ?_⟩, fun hbad' k hk hq => ?_⟩
  · exact (step_write hp).trans (hostWrite_unsupported hregs)
  · exact (step_read hp).trans (hostRead_unsupported hregs)
  · have hdata : Unsupported s.cfg .data addr bytes.length := unsupported_data hg hbad' hk hq
    exact ⟨fun hp => (step_write hp).trans (hostWrite_unsupported hdata),
      fun hp => (step_read hp).trans (hostRead_unsupported hdata)⟩

/-! ### Accesses that reach a register -/

section
variable {s : State} {space : Space} {addr c off : Nat} (h : route s.cfg space addr = some (c, off))
include h

/-- What an access that reaches a register does depends on the register and not on the space. -/
theorem hostWrite_space {space' : Space} (h' : route s.cfg space' addr = some (c, off)) (bytes : List Byte) :
    hostWrite space addr bytes s = hostWrite space' addr bytes s := by
  unfold hostWrite
  rw [h, h']

theorem hostRead_space {space' : Space} (h' : route s.cfg space' addr = some (c, off)) (len : Nat) :
    hostRead space addr len s = hostRead space' addr len s := by
  unfold hostRead
  rw [h, h']

/-- An aligned 32-bit write is the write of the register (44_host_access.md R180). -/
theorem hostWrite_word (ho : off % 4 = 0) (v : Word) :
    hostWrite space addr (wordBytes v) s = writeReg c (Reg.ofOffset off) v s := by
  have hok : regAccessOk off 4 = true := (regAccessOk_iff off 4).mpr ⟨rfl, ho⟩
  unfold hostWrite
  rw [h]
  simp only [bytesWord_wordBytes, wordBytes_length, hok, if_true]

/-- An aligned 32-bit read returns the register (44_host_access.md R181). -/
theorem hostRead_word (ho : off % 4 = 0) :
    hostRead space addr 4 s = .next (s.withBusData (wordBytes ((s.ctx c).readReg (Reg.ofOffset off)))) := by
  have hok : regAccessOk off 4 = true := (regAccessOk_iff off 4).mpr ⟨rfl, ho⟩
  unfold hostRead
  rw [h]
  simp only [hok, if_true]

end

/-- A write to any register but `CMD` changes that register (44_host_access.md R180, R182). -/
theorem writeReg_register {c : Nat} {r : Reg} (hr : r ≠ .cmd) (v : Word) (s : State) :
    writeReg c r v s = .next (s.setCtx c ((s.ctx c).writeReg r v)) := by
  cases r with
  | cmd => exact absurd rfl hr
  | dest | src0 | src1 | count | channels | sample | result | status | rmode | reserved => rfl

/-- Settles O50: the address reaches the same register in both spaces, by `route_eq_some_iff`. -/
theorem mappedAccessReachesRegisters : Obligations.MappedAccessReachesRegisters := by
  unfold Obligations.MappedAccessReachesRegisters
  intro s c off bytes len ov rest hg _ hc ho hm
  have hroute : ∀ (e : Event) (space : Space),
      route (s.takeEvent e rest).cfg space (s.cfg.regBase.getD c 0 + off) = some (c, off) := fun _ _ =>
    (route_eq_some_iff hg).mpr ⟨hc, ho, rfl, fun _ => hm⟩
  refine ⟨fun hp => ⟨?_, ?_⟩, fun hp => ⟨?_, ?_⟩⟩
  · rw [step_write hp, step_write (space := .regs) rfl]
    exact hostWrite_space (hroute _ .data) (hroute _ .regs) bytes
  · rintro v rfl halign
    have hword := (step_write hp).trans (hostWrite_word (hroute _ .data) halign v)
    refine ⟨?_, fun hne => ?_⟩
    · rintro rfl
      exact hword
    · exact hword.trans (writeReg_register (fun hcmd => hne (ofOffset_cmd ho hcmd)) v _)
  · rw [step_read hp, step_read (space := .regs) rfl]
    exact hostRead_space (hroute _ .data) (hroute _ .regs) len
  · rintro rfl halign
    exact (step_read hp).trans (hostRead_word (hroute _ .data) halign)

/-! ### The parameters -/

theorem issue_cfg {w : Word} {s t : State} (h : issue w s = .next t) : t.cfg = s.cfg := by
  rcases issue_cases h with ⟨e, -, rfl⟩ | ⟨i, -, he⟩
  · rfl
  · exact exec_cfg he

theorem abandon_cfg {w : Word} {landed : List Nat} {s t : State} (h : abandon w landed s = .next t) : t.cfg = s.cfg := by
  rcases abandon_cases h with rfl | ⟨i, j, -, -, -, rfl⟩ <;> rfl

/-- Settles O43, by the cases of a step: no action writes a parameter. -/
theorem stepKeepsConfig : Obligations.StepKeepsConfig := by
  unfold Obligations.StepKeepsConfig
  intro s t hstep
  cases step_cases hstep with
  | idle _ ht | register _ _ _ _ _ _ _ _ _ _ _ _ _ ht | store _ _ _ _ _ _ _ ht | read _ _ _ _ _ _ _ _ ht
  | reset _ _ _ _ ht => subst ht; rfl
  | command _ _ _ _ _ _ _ _ _ _ _ ht => exact (issue_cfg ht).trans rfl
  | abandoned _ _ _ _ _ _ _ _ ht => exact (abandon_cfg ht).trans rfl

/-! ### The rounding mode -/

/-- Replacing a context by one with the same `RMODE` changes the `RMODE` of none. -/
theorem State.rmode_setCtx (s : State) {c : Nat} {k : Context} (hk : k.rmode = (s.ctx c).rmode) (d : Nat) :
    ((s.setCtx c k).ctx d).rmode = (s.ctx d).rmode := by
  by_cases hd : d = c
  · subst hd
    by_cases hlt : d < s.ctxs.length
    · rw [s.ctx_setCtx_same d k hlt, hk]
    · rw [State.setCtx, List.set_eq_of_length_le (Nat.le_of_not_lt hlt)]
  · rw [s.ctx_setCtx_other c k hd]

/-- No command leaves `RMODE` of any context changed, and no reserved word does (41_batch_convert.md R135). -/
theorem issue_rmode {w : Word} {s t : State} (hwf : s.mem.wf) (hr : Ready s) (h : issue w s = .next t) (d : Nat) :
    (t.ctx d).rmode = (s.ctx d).rmode := by
  rcases issue_cases h with ⟨e, -, rfl⟩ | ⟨i, -, he⟩
  · exact s.rmode_setCtx (k := s.cur.withIll true) rfl d
  · obtain ⟨m, r, rfl, -, -, -⟩ := exec_completed hwf hr he
    exact s.rmode_setCtx (k := s.cur.withResult r) rfl d

/-- The offset of `RMODE` is the only one that names it. -/
theorem ofOffset_rmode {off : Nat} (h : off < 64) (hr : Reg.ofOffset off = .rmode) : off = 0x24 := by
  have key : ∀ o < 64, Reg.ofOffset o = .rmode → o = 0x24 := by decide
  exact key off h hr

/-- Settles O41, by the cases of a step: all but a reset and a write of the register itself leave `RMODE` of every context as
it was. -/
theorem rmodeChangesOnlyByHost : Obligations.RmodeChangesOnlyByHost := by
  unfold Obligations.RmodeChangesOnlyByHost
  intro s t c hinv hstep hne
  cases step_cases hstep with
  | idle _ ht | store _ _ _ _ _ _ _ ht | read _ _ _ _ _ _ _ _ ht => subst ht; exact absurd rfl hne
  | command e rest _ _ _ d w _ _ hr _ ht =>
    have htaken : Inv ((s.takeEvent e rest).withIssuer d) := hinv
    have hlt : d < s.ctxs.length := hinv.2.2.1.symm ▸ (route_some hr).1
    exact absurd (issue_rmode htaken.1 (htaken.ready hlt) ht c) hne
  | register e rest space addr bytes d off w hp he hr _ _ ht =>
    subst ht
    by_cases hreg : Reg.ofOffset off = .rmode
    · obtain rfl := ofOffset_rmode (route_some hr).2.1 hreg
      obtain rfl : c = d := by
        by_contra hd
        exact hne (congrArg Context.rmode ((s.takeEvent e rest).ctx_setCtx_other d _ hd))
      exact ⟨e, rest, hp, .inr (.inr ⟨space, addr, bytes, he, hr⟩)⟩
    · have hkeep : ((s.ctx d).writeReg (Reg.ofOffset off) w).rmode = (s.ctx d).rmode := by
        rw [Context.writeReg_rmode, if_neg hreg]
      exact absurd ((s.takeEvent e rest).rmode_setCtx hkeep c) hne
  | reset e rest hp he _ => exact ⟨e, rest, hp, .inl he⟩
  | abandoned e rest d w landed hp he _ _ => exact ⟨e, rest, hp, .inr (.inl ⟨d, w, landed, he⟩)⟩

end Sys2Proof.Machine
end

section
/-! The checks of a memory command in their order (60_exceptions.md R194): once its registers and alignments pass, what is left
is the contract on its buffers, and each clause of it that is false gives its own fault. The address space ends at `2^AW`
(O51). -/

namespace Sys2Proof.Machine

/-! ### From the registers to the buffers -/

/-- With every alignment met only the buffers are left to check. -/
theorem jobFault_aligned {s : State} {reqs : List AlignReq} (h : ∀ r ∈ reqs, r.addr % r.multiple = 0) (j : Job) :
    jobFault s reqs j = jobFault s [] j := by
  rw [jobFault, jobFault, (alignFault_none_iff reqs).mpr h, (alignFault_none_iff []).mpr nofun]

theorem faultOf_cvtm {s : State} (sc : Bool) (hn : 0 ≤ s.cur.count.toInt) (hd : s.cur.dest.toNat % 2 = 0)
    (h0 : s.cur.src0.toNat % 4 = 0) : faultOf (.cvtm sc) s = jobFault s [] (cvtmJob s) := by
  have haligns : ∀ r ∈ cvtmAligns s, r.addr % r.multiple = 0 := by simp [cvtmAligns, hd, h0]
  rw [faultOf, cvtmFault, (countFault_none_iff _).mpr hn]
  exact jobFault_aligned haligns _

theorem faultOf_cvti2 {s : State} (sc : Bool) (hn : 0 ≤ s.cur.count.toInt) (hd : s.cur.dest.toNat % 2 = 0)
    (h0 : s.cur.src0.toNat % 4 = 0) (h1 : s.cur.src1.toNat % 4 = 0) (hds : s.cur.dest.toNat % s.cfg.stereoAlign = 0)
    (h0s : s.cur.src0.toNat % s.cfg.stereoAlign = 0) (h1s : s.cur.src1.toNat % s.cfg.stereoAlign = 0) :
    faultOf (.cvti2 sc) s = jobFault s [] (cvti2Job s) := by
  have haligns : ∀ r ∈ cvti2Aligns s, r.addr % r.multiple = 0 := by simp [cvti2Aligns, hd, h0, h1, hds, h0s, h1s]
  rw [faultOf, cvti2Fault, (countFault_none_iff _).mpr hn]
  exact jobFault_aligned haligns _

/-- Of the table of `CVTI` the entries that can be read are checked, and with `COUNT = 0` none (log entry 16). -/
theorem faultOf_cvti {s : State} (sc : Bool) (hn : 0 ≤ s.cur.count.toInt) (hc : 0 < s.cur.channels.toInt)
    (hd : s.cur.dest.toNat % 2 = 0) (h0 : s.cur.src0.toNat % 4 = 0)
    (he : s.cur.count ≠ 0 → ∀ c < s.cur.channels.toNat, entryAdmitted s.cfg s.cur.src0.toNat c = true →
      tableEntry s.mem s.cfg.byteOrder s.cur.src0.toNat c % 4 = 0) :
    faultOf (.cvti sc) s = jobFault s [] (cvtiJob s) := by
  have haligns : ∀ r ∈ cvtiAligns s, r.addr % r.multiple = 0 := by
    intro r hr
    simp only [cvtiAligns, List.mem_append, List.mem_map, List.mem_filter, List.mem_range, List.mem_cons,
      List.not_mem_nil, or_false] at hr
    rcases hr with (rfl | rfl) | ⟨c, ⟨hlt, hadm⟩, rfl⟩
    · exact hd
    · exact h0
    · have hne : s.cur.count ≠ 0 := by
        intro hz
        rw [Job.chans, cvtiJob_bases_empty hz] at hlt
        cases hlt
      exact he hne c (cvtiJob_reads hlt).1 hadm
  rw [faultOf, cvtiFault, (countFault_none_iff _).mpr hn, (channelsFault_none_iff _).mpr hc]
  exact jobFault_aligned haligns _

/-! ### Which clause of the contract is false -/

section
variable {s : State} {j : Job}

theorem jobFault_size (h : ¬ j.sized s.cfg) : ∃ a, jobFault s [] j = some (.cvSize a) := by
  obtain ⟨a, ha⟩ := sizeFault_some h
  exact ⟨a, by rw [jobFault, (alignFault_none_iff []).mpr nofun, ha]⟩

theorem jobFault_overlap (hs : j.sized s.cfg) (h : ¬ j.separate s.cfg) : jobFault s [] j = some .cvOverlap := by
  rw [jobFault, (alignFault_none_iff []).mpr nofun, (sizeFault_none_iff _ _).mpr hs, overlapFault_some h]

theorem jobFault_race (hs : j.sized s.cfg) (hsep : j.separate s.cfg) (h : ¬ j.stable s) :
    jobFault s [] j = some .cvRace := by
  rw [jobFault, (alignFault_none_iff []).mpr nofun, (sizeFault_none_iff _ _).mpr hs, (overlapFault_none_iff _ _).mpr hsep]
  exact raceFault_some h

theorem jobFault_contract (h : j.contract s) : jobFault s [] j = none :=
  (jobFault_none_iff s [] j).mpr ⟨nofun, h⟩

end

/-! ### The end of the address space -/

/-- A nonempty admitted span ends by `2^AW` (20_memory.md R63). -/
theorem Span.admitted_end {g : Config} {d : Dir} {r : Span} (h : r.admitted g d) (hlen : 0 < r.len) :
    r.base + r.len ≤ 2 ^ g.addrWidth := by
  have hlast := admits_inSpace (h (r.len - 1) (by omega))
  omega

/-- A destination in memory ends by `2^AW` (20_memory.md R57, R63). -/
theorem Job.sized_dest_end {g : Config} {j : Job} (h : j.sized g) (hc : 0 < j.chans) (hn : 0 < j.count) :
    j.dest + 2 * (j.chans * j.count) ≤ 2 ^ g.addrWidth :=
  Span.admitted_end h.2 (Nat.mul_pos Nat.two_pos (Nat.mul_pos hc hn))

/-- Every source in memory ends by `2^AW`. -/
theorem Job.sized_source_end {g : Config} {j : Job} (h : j.sized g) (hn : 0 < j.count) {b : Nat} (hb : b ∈ j.bases) :
    b + 4 * j.count ≤ 2 ^ g.addrWidth := by
  have hmem : (⟨b, 4 * j.count⟩ : Span) ∈ j.loadSpans := by
    rw [Job.loadSpans_pos (Nat.ne_of_gt hn)]
    exact List.mem_append_right _ (List.mem_map_of_mem hb)
  exact Span.admitted_end (h.1 _ hmem) (Nat.mul_pos (by decide) hn)

/-- A table in memory ends by `2^AW`. -/
theorem Job.sized_table_end {g : Config} {j : Job} (h : j.sized g) (hn : 0 < j.count) {r : Span} (hr : j.table = some r)
    (hlen : 0 < r.len) : r.base + r.len ≤ 2 ^ g.addrWidth := by
  have hmem : r ∈ j.loadSpans := by
    rw [Job.loadSpans_pos (Nat.ne_of_gt hn), Job.readSpans, hr]
    exact List.mem_cons_self
  exact Span.admitted_end (h.1 r hmem) hlen

/-- A register that is positive as an integer is positive as a count. -/
theorem toNat_pos_of_toInt_pos {x : Word} (h : 0 < x.toInt) : 0 < x.toNat := by
  refine Nat.pos_of_ne_zero (fun h0 => ?_)
  have hx : x = 0 := BitVec.eq_of_toNat_eq h0
  rw [hx] at h
  exact absurd h (by decide)

/-- Settles O51: the checks before `CV_SIZE` pass, and buffers that all lay in memory would end by `2^AW`. -/
theorem addressesDoNotWrap : Obligations.AddressesDoNotWrap := by
  unfold Obligations.AddressesDoNotWrap
  intro sc s hcount hd h0
  have hn : 0 < s.cur.count.toNat := toNat_pos_of_toInt_pos hcount
  have unsized : ∀ {i : Instr} {j : Job}, faultOf i s = jobFault s [] j → ¬ j.sized s.cfg →
      ∃ a, exec i s = .fault (.cvSize a) := by
    intro i j hf hj
    obtain ⟨a, ha⟩ := jobFault_size hj
    exact ⟨a, exec_fault (hf.trans ha)⟩
  refine ⟨fun hend => ?mono, fun h1 hds h0s h1s hend => ?stereo, fun hchannels hentries hend => ?table⟩
  case mono =>
    refine unsized (faultOf_cvtm sc hcount.le hd h0) (fun hs => ?_)
    have hdest := Job.sized_dest_end hs Nat.one_pos hn
    have hsrc := Job.sized_source_end hs hn List.mem_cons_self
    simp only [cvtmJob_dest, cvtmJob_chans, cvtmJob_count] at hdest hsrc
    omega
  case stereo =>
    refine unsized (faultOf_cvti2 sc hcount.le hd h0 h1 hds h0s h1s) (fun hs => ?_)
    have hdest := Job.sized_dest_end hs Nat.two_pos hn
    have hleft := Job.sized_source_end hs hn List.mem_cons_self
    have hright := Job.sized_source_end hs hn (List.mem_cons_of_mem _ List.mem_cons_self)
    simp only [cvti2Job_dest, cvti2Job_chans, cvti2Job_count] at hdest hleft hright
    omega
  case table =>
    have hc : 0 < s.cur.channels.toNat := toNat_pos_of_toInt_pos hchannels
    have hbases := cvtiJob_bases (s := s) (fun hz => by simp [hz] at hn)
    have hchans : (cvtiJob s).chans = s.cur.channels.toNat := by rw [Job.chans, hbases, tableBases_length]
    refine unsized (faultOf_cvti sc hcount.le hchannels hd h0 (fun _ => hentries)) (fun hs => ?_)
    rcases hend with hdest | htable | ⟨c, hlt, hsrc⟩
    · have := Job.sized_dest_end hs (hchans.symm ▸ hc) hn
      rw [hchans] at this
      exact absurd hdest (Nat.not_lt.mpr this)
    · exact absurd htable (Nat.not_lt.mpr (Job.sized_table_end hs hn (cvtiJob_table s) (Nat.mul_pos (by decide) hc)))
    · have hmem := cvtiJob_bases_mem.mpr ⟨c, hchans.symm ▸ hlt, rfl⟩
      exact absurd hsrc (Nat.not_lt.mpr (Job.sized_source_end hs hn hmem))

end Sys2Proof.Machine
end

section
/-! A memory command with `COUNT = 0` (20_memory.md R58): of its buffers only the table of `CVTI` has bytes, so that the contract
speaks of the table alone, and a command that completes leaves the state as it was (O30). -/

namespace Sys2Proof.Machine

/-! ### The contract of an empty job -/

theorem Span.disjoint_empty {r : Span} (h : r.len = 0) (q : Span) : r.disjoint q :=
  fun k hk => absurd hk (by omega)

section
variable {j : Job} (h : j.count = 0)
include h

/-- Without frames every buffer but the table is empty. -/
theorem Job.empty_or_table {r : Span} (hr : r ∈ j.destSpan :: j.readSpans) : r.len = 0 ∨ j.table = some r := by
  simp only [Job.readSpans, Job.srcSpans, List.mem_cons, List.mem_append, Option.mem_toList, List.mem_map] at hr
  rcases hr with rfl | htable | ⟨b, -, rfl⟩
  · exact .inl (by simp [Job.destSpan, h])
  · exact .inr htable
  · exact .inl (by simp [h])

/-- Nothing is accessed, so nothing need be admitted (20_memory.md R57, R58). -/
theorem Job.sized_empty (g : Config) : j.sized g := by
  have hdest : j.destSpan.len = 0 := by simp [Job.destSpan, h]
  rw [Job.sized, Job.loadSpans_empty h]
  exact ⟨nofun, fun k hk => absurd hk (by omega)⟩

/-- The buffers are apart, since all but one are empty; that one may meet no mapped block. -/
theorem Job.separate_empty_iff (g : Config) :
    j.separate g ↔ ∀ t, j.table = some t → ∀ q ∈ mappedBlocks g, t.disjoint q := by
  constructor
  · rintro ⟨-, hblocks⟩ t ht
    exact hblocks t (by simp [Job.readSpans, ht])
  · intro htable
    have hsrc : ∀ r ∈ j.srcSpans, r.len = 0 := by
      simp only [Job.srcSpans, List.mem_map]
      rintro r ⟨b, -, rfl⟩
      simp [h]
    refine ⟨List.pairwise_cons.mpr ⟨fun q _ => Span.disjoint_empty (by simp [Job.destSpan, h]) q,
      List.pairwise_append.mpr ⟨?_, ?_, fun r _ q hq => ?_⟩⟩, fun r hr q hq => ?_⟩
    · cases j.table <;> simp
    · exact List.pairwise_of_forall_mem_list (fun r hr q _ => Span.disjoint_empty (hsrc r hr) q)
    · exact (Span.disjoint_comm r q).mpr (Span.disjoint_empty (hsrc q hq) r)
    · rcases Job.empty_or_table h hr with hlen | ht
      · exact Span.disjoint_empty hlen q
      · exact htable r ht q hq

/-- Of the other agents' accesses only a write of the table can meet a buffer. -/
theorem Job.stable_empty_iff {s : State} (hregs : ∀ a ∈ s.overlap, a.touchesRegs s.cfg s.issuer = false) :
    j.stable s ↔ ∀ t, j.table = some t → ∀ addr len, .write addr len ∈ s.overlap → t.disjoint ⟨addr, len⟩ := by
  constructor
  · intro hs t ht addr len ha
    have hbuffers := (Bool.or_eq_false_iff.mp (hs _ ha)).2
    rw [Access.touchesBuffers, List.any_eq_false] at hbuffers
    exact (Span.overlaps_false_iff t _).mp (Bool.eq_false_of_not_eq_true (hbuffers t (by simp [Job.readSpans, ht])))
  · intro htable a ha
    refine Bool.or_eq_false_iff.mpr ⟨hregs a ha, ?_⟩
    cases a with
    | read addr len => exact (Span.overlaps_false_iff _ _).mpr (Span.disjoint_empty (by simp [Job.destSpan, h]) _)
    | write addr len =>
      refine List.any_eq_false.mpr (fun r hr => Bool.not_eq_true _ ▸ (Span.overlaps_false_iff r _).mpr ?_)
      rcases Job.empty_or_table h hr with hlen | ht
      · exact Span.disjoint_empty hlen _
      · exact htable r ht addr len ha
    | regs c => rfl

end

/-! ### The command -/

/-- A command whose stages do nothing leaves memory as it was, whatever mode is saved meanwhile. -/
theorem commandMem_idle {w : Work} {batch tail : Work → Memory → Work × Memory} {s : State}
    (hbatch : ∀ r m, batch (w.withSaved r) m = (w.withSaved r, m))
    (htail : ∀ r m, tail (w.withSaved r) m = (w.withSaved r, m)) (sc : Bool) :
    commandMem sc w batch tail s = s.mem := by
  have hplain : ∀ m, batch w m = (w, m) ∧ tail w m = (w, m) := fun m => ⟨hbatch w.savedRmode m, htail w.savedRmode m⟩
  unfold commandMem
  split
  · split
    · simp only [hbatch, htail, Work.withSaved_withSaved]
    · simp only [(hplain _).1, htail]
  · simp only [(hplain _).2]

/-- A memory command without frames that completes leaves its state: its loops have no fuel, and `CVTI` no channel to run
through. -/
theorem exec_empty {i : Instr} {s : State} {j : Job} (hr : Ready s) (hj : jobOf i s = some j) (hn : s.cur.count = 0)
    (hf : faultOf i s = none) : exec i s = .next s := by
  have hcount : s.cur.count.toNat = 0 := congrArg BitVec.toNat hn
  cases i with
  | cvts => cases hj
  | cvtm sc =>
    simp only [faultOf] at hf
    have hw : ∀ r, ((cvtmWork s).withSaved r).count = 0 := fun _ => hcount
    simp only [exec, execCvtm, hf]
    rw [runCommand_eq hr.1 hr.2 rfl (fun w m => batchLoop_saved (fun _ _ => rfl) _ _ _),
      commandMem_idle (fun r m => by rw [hw, batchLoop]) (fun r m => by rw [hw, tailLoop])]
    rfl
  | cvti sc =>
    simp only [faultOf] at hf
    have hbases : ∀ r, ((cvtiWork s).withSaved r).bases = [] := fun _ => cvtiJob_bases_empty hn
    simp only [exec, execCvti, hf]
    rw [runCommand_eq hr.1 hr.2 rfl (fun w m => overChannels_saved (channelBatch_saved s.cfg) w m),
      commandMem_idle (fun r m => by rw [overChannels, hbases]; rfl) (fun r m => by rw [overChannels, hbases]; rfl)]
    rfl
  | cvti2 sc =>
    simp only [faultOf] at hf
    have hw : ∀ r, ((cvti2Work s).withSaved r).count = 0 := fun _ => hcount
    simp only [exec, execCvti2, hf]
    rw [runCommand_eq hr.1 hr.2 rfl (fun w m => batchLoop_saved (fun _ _ => rfl) _ _ _),
      commandMem_idle (fun r m => by rw [hw, batchLoop]) (fun r m => by rw [hw, tailLoop])]
    rfl

/-- Settles O30: past the alignments only the contract is left, which for an empty job speaks of the table. -/
theorem emptyCommandDoesNothing : Obligations.EmptyCommandDoesNothing := by
  unfold Obligations.EmptyCommandDoesNothing
  intro sc s hr hn hregs hd h0
  have hcount : s.cur.count.toNat = 0 := congrArg BitVec.toNat hn
  have hpos : 0 ≤ s.cur.count.toInt := by rw [hn]; decide
  have contract : ∀ {j : Job}, j.count = 0 → j.table = none → j.contract s := fun h ht =>
    ⟨Job.sized_empty h _, (Job.separate_empty_iff h _).mpr (fun t h' => by simp [ht] at h'),
      (Job.stable_empty_iff h hregs).mpr (fun t h' => by simp [ht] at h')⟩
  refine ⟨?mono, fun hchannels => ?table, fun h1 hds h0s h1s => ?stereo⟩
  case mono =>
    have hf := (faultOf_cvtm sc hpos hd h0).trans (jobFault_contract (contract hcount rfl))
    exact exec_empty hr rfl hn hf
  case stereo =>
    have hf := (faultOf_cvti2 sc hpos hd h0 h1 hds h0s h1s).trans (jobFault_contract (contract hcount rfl))
    exact exec_empty hr rfl hn hf
  case table =>
    have hf := faultOf_cvti sc hpos hchannels hd h0 (fun h => absurd hn h)
    have hsized := Job.sized_empty (j := cvtiJob s) hcount s.cfg
    have hsep := Job.separate_empty_iff (j := cvtiJob s) hcount s.cfg
    have hstable := Job.stable_empty_iff (j := cvtiJob s) hcount hregs
    simp only [cvtiJob_table, Option.some.injEq, forall_eq'] at hsep hstable
    refine ⟨fun hblocks hwrites => ?_, fun q hq hmeets => ?_, fun hblocks addr len hw hmeets => ?_⟩
    · exact exec_empty hr rfl hn (hf.trans (jobFault_contract ⟨hsized, hsep.mpr hblocks, hstable.mpr hwrites⟩))
    · exact exec_fault (hf.trans (jobFault_overlap hsized (fun h => hmeets (hsep.mp h q hq))))
    · exact exec_fault (hf.trans (jobFault_race hsized (hsep.mpr hblocks) (fun h => hmeets (hstable.mp h addr len hw))))

end Sys2Proof.Machine
end

section
/-! Which bytes of memory may change: a command writes bytes of its destination only, and so does a reset in the middle of one
(O44); commands that write no byte of each other's buffers commute (O37). -/

namespace Sys2Proof.Machine

/-- Command `i`, issued in `s`, has the byte `a` in its destination buffer (20_memory.md R57). -/
def Writes (i : Instr) (s : State) (a : Nat) : Prop :=
  ∃ j, jobOf i s = some j ∧ j.destSpan.contains a = true

/-- A byte outside the destination is no byte the command writes. -/
theorem Writes.outside {i : Instr} {s : State} {a : Nat} (h : ¬ Writes i s a) {j : Job} (hj : jobOf i s = some j) :
    j.destSpan.contains a = false :=
  Bool.eq_false_of_not_eq_true (fun hin => h ⟨j, hj, hin⟩)

/-- A command leaves every byte that it does not write (20_memory.md R61). -/
theorem exec_read_other {i : Instr} {s t : State} (hwf : s.mem.wf) (hr : Ready s) (he : exec i s = .next t) {a : Nat}
    (ha : ¬ Writes i s a) : t.mem.read a = s.mem.read a := by
  obtain ⟨m, r, rfl, -, hnone, hsome⟩ := exec_completed hwf hr he
  rcases hj : jobOf i s with _ | j
  · exact congrArg (Memory.read · a) (hnone hj).2
  · exact (hsome j hj).2.2.outside (Writes.outside ha hj)

/-- An abandoned command leaves every byte that it does not write (70_reset_and_hazards.md R211). -/
theorem abandon_read_other {w : Word} {landed : List Nat} {s t : State} (hwf : s.mem.wf)
    (h : abandon w landed s = .next t) {a : Nat} (ha : ∀ i, decode w = .ok i → ¬ Writes i s a) :
    t.mem.read a = s.mem.read a := by
  rcases abandon_cases h with rfl | ⟨i, j, hi, -, hj, rfl⟩
  · rfl
  · exact (landElements_converted hwf landed).outside (Writes.outside (ha i hi) hj)

/-- Settles O44, by the cases of a step: a store, a command and an abandoned command are the only ones that touch memory. -/
theorem memoryChangesOnlyWhereWritten : Obligations.MemoryChangesOnlyWhereWritten := by
  unfold Obligations.MemoryChangesOnlyWhereWritten
  intro s t a hinv hstep hne
  have hlen : s.ctxs.length = s.cfg.nctx := hinv.2.2.1
  cases step_cases hstep with
  | idle _ ht | register _ _ _ _ _ _ _ _ _ _ _ _ _ ht | read _ _ _ _ _ _ _ _ ht | reset _ _ _ _ ht =>
    subst ht
    exact absurd rfl hne
  | store e rest addr bytes hp he _ ht =>
    subst ht
    have hin : addr ≤ a ∧ a < addr + bytes.length := by
      by_contra hout
      exact hne ((Memory.read_writeBytes hinv.1 addr bytes a).trans (if_neg hout))
    exact ⟨e, rest, hp, .inl ⟨addr, bytes, he, hin⟩⟩
  | command e rest space addr bytes c w hp he hr hw ht =>
    have htaken : Inv ((s.takeEvent e rest).withIssuer c) := hinv
    have hready := htaken.ready (hlen.symm ▸ (route_some hr).1)
    rcases issue_cases ht with ⟨_, -, rfl⟩ | ⟨i, hi, hx⟩
    · exact absurd rfl hne
    · have hwrites : Writes i ((s.takeEvent e rest).withIssuer c) a := by
        by_contra hout
        exact hne (exec_read_other htaken.1 hready hx hout)
      obtain ⟨j, hj, hin⟩ := hwrites
      exact ⟨e, rest, hp, .inr ⟨c, w, i, j, hi, hj, hin, .inl ⟨space, addr, bytes, he, hw, hr⟩⟩⟩
  | abandoned e rest c w landed hp he _ ht =>
    have hwrites : ∃ i, decode w = .ok i ∧ Writes i ((s.takeEvent e rest).withIssuer c) a := by
      by_contra hout
      exact hne (abandon_read_other (s := (s.takeEvent e rest).withIssuer c) hinv.1 ht (fun i hi hin => hout ⟨i, hi, hin⟩))
    obtain ⟨i, hi, j, hj, hin⟩ := hwrites
    exact ⟨e, rest, hp, .inr ⟨c, w, i, j, hi, hj, hin, .inr ⟨landed, he⟩⟩⟩

/-! ### Commands on independent buffers -/

/-- A command writes no byte of a span that its destination does not meet. -/
theorem not_writes_of_disjoint {i : Instr} {s : State} {r : Span}
    (h : ∀ j, jobOf i s = some j → j.destSpan.disjoint r) {a : Nat} (ha : r.contains a = true) : ¬ Writes i s a := by
  rintro ⟨j, hj, hin⟩
  have hapart := Span.disjoint_apart (h j hj) ((Span.contains_iff _ _).mp hin)
  have hin' := (Span.contains_iff _ _).mp ha
  omega

/-- A job that finds the same sources in two memories leaves a byte alike where it found it alike. -/
theorem Converted.read_congr {j : Job} {m0 m n0 n : Memory} (h : Converted j m0 m (fun _ _ => True))
    (h' : Converted j n0 n (fun _ _ => True)) (hsrc : ∀ r ∈ j.readSpans, ∀ b, r.contains b = true → n0.read b = m0.read b)
    {a : Nat} (ha : n0.read a = m0.read a) : n.read a = m.read a := by
  by_cases hout : ∀ c f, c < j.chans → f < j.count → True → a < j.dst c f ∨ j.dst c f + 1 < a
  · rw [h.rest a hout, h'.rest a hout, ha]
  · simp only [not_forall] at hout
    obtain ⟨c, f, hc, hf, -, hin⟩ := hout
    have hbase : j.bases.getD c 0 = j.bases[c] := List.getD_eq_getElem _ _ hc
    have hspan : (⟨j.bases[c], 4 * j.count⟩ : Span) ∈ j.readSpans :=
      List.mem_append_right _ (List.mem_map_of_mem (List.getElem_mem hc))
    have hword : n0.readWord j.order (j.src c f) = m0.readWord j.order (j.src c f) :=
      readWord_of_span (hsrc _ hspan) (by simp only [Job.src, srcAddr, hbase]; omega)
        (by simp only [Job.src, srcAddr, hbase]; omega)
    have hhalf : n.readHalf j.order (j.dst c f) = m.readHalf j.order (j.dst c f) := by
      rw [h.done c f hc hf trivial, h'.done c f hc hf trivial, Job.out, Job.out, hword]
    obtain ⟨hlo, hhi⟩ := Memory.read_of_readHalf _ hhalf
    rcases show a = j.dst c f ∨ a = j.dst c f + 1 by omega with rfl | rfl
    · exact hlo
    · exact hhi

/-- Two states issue a command from the same registers, under the same parameters and accesses of other agents; memory and the
other contexts may differ. -/
structure State.SameIssue (s s' : State) : Prop where
  cfg : s'.cfg = s.cfg
  overlap : s'.overlap = s.overlap
  issuer : s'.issuer = s.issuer
  cur : s'.cur = s.cur

/-- A command that completes in `s` completes where the same is issued and its read buffers are the same. It leaves its context
alike, and each byte alike that it found alike. -/
theorem exec_congr {i : Instr} {s s' t : State} (hsame : s.SameIssue s') (hwf : s.mem.wf) (hwf' : s'.mem.wf) (hr : Ready s)
    (hlt : s'.issuer < s'.ctxs.length) (he : exec i s = .next t)
    (hsrc : ∀ j, jobOf i s = some j → ∀ r ∈ j.readSpans, ∀ a, r.contains a = true → s'.mem.read a = s.mem.read a) :
    ∃ m, exec i s' = .next ((s'.setCur t.cur).withMem m) ∧ m.wf ∧
      (∀ a, s'.mem.read a = s.mem.read a → m.read a = t.mem.read a) ∧
      ∀ a, ¬ Writes i s a → m.read a = s'.mem.read a := by
  rcases hj : jobOf i s with _ | j
  · obtain rfl := jobOf_none hj
    rw [exec_cvts] at he ⊢
    cases he
    rw [State.cur_setCur _ _ hr.1, hsame.cur]
    exact ⟨s'.mem, rfl, hwf', fun _ ha => ha, fun _ _ => rfl⟩
  · have hr' : Ready s' := ⟨hlt, hsame.cur ▸ hr.2⟩
    obtain ⟨m, rfl, hconv⟩ := exec_memory_completed hwf hr hj he
    have hreg : ∀ f : Context → Word, f s'.cur = f s.cur := fun f => congrArg f hsame.cur
    obtain ⟨hj', hf'⟩ := jobOf_keep (s' := s') hj (faultOf_of_exec he) (hreg _) (hreg _) (hreg _) (hreg _) (hreg _)
      hsame.cfg hsame.overlap hsame.issuer (hsrc j hj)
    obtain ⟨m', he', hconv'⟩ := exec_memory (blane_eq_cvt _) hwf' hr' hj' hf'
    refine ⟨m', ?_, hconv'.wf, fun a ha => hconv.read_congr hconv' (hsrc j hj) ha,
      fun a ha => hconv'.outside (Writes.outside ha hj)⟩
    rw [he', State.withMem_cur, ← hsame.cur, State.setCur_self]

/-- A command that completes in context `c` changes that context and memory. -/
theorem exec_eq_setCtx {i : Instr} {s t : State} {c : Nat} (hwf : s.mem.wf) (hr : Ready (s.withIssuer c))
    (he : exec i (s.withIssuer c) = .next t) : t = ((s.setCtx c (t.ctx c)).withMem t.mem).withIssuer c := by
  obtain ⟨m, r, rfl, -, -, -⟩ := exec_completed (s := s.withIssuer c) hwf hr he
  have hctx := s.ctx_setCtx_same c ((s.ctx c).withResult r) hr.1
  exact congrArg (fun k => ((s.setCtx c k).withMem m).withIssuer c) hctx.symm

/-- Of two commands of different contexts, the first of which writes nothing that the second reads, the second completes after
the first: it leaves its own context as it would alone and the other's as the first left it, each byte that the first does not
write as it would alone, and each byte that it does not write itself as the first left it. -/
theorem exec_after {s t1 t2 : State} {i1 i2 : Instr} {c1 c2 : Nat} (hinv : Inv s) (hc1 : c1 < s.ctxs.length)
    (hc2 : c2 < s.ctxs.length) (hne : c1 ≠ c2) (he1 : exec i1 (s.withIssuer c1) = .next t1)
    (he2 : exec i2 (s.withIssuer c2) = .next t2)
    (hsrc : ∀ j2, jobOf i2 (s.withIssuer c2) = some j2 → ∀ r ∈ j2.readSpans, ∀ a, r.contains a = true →
      ¬ Writes i1 (s.withIssuer c1) a) :
    ∃ m, exec i2 (t1.withIssuer c2) =
        .next ((((s.setCtx c1 (t1.ctx c1)).setCtx c2 (t2.ctx c2)).withMem m).withIssuer c2) ∧ m.wf ∧
      (∀ a, ¬ Writes i1 (s.withIssuer c1) a → m.read a = t2.mem.read a) ∧
      ∀ a, ¬ Writes i2 (s.withIssuer c2) a → m.read a = t1.mem.read a := by
  have hinv1 : Inv (s.withIssuer c1) := hinv
  have hinv2 : Inv (s.withIssuer c2) := hinv
  have hwf1 : t1.mem.wf := (hinv1.exec hc1 he1).1
  have hkeep : ∀ a, ¬ Writes i1 (s.withIssuer c1) a → t1.mem.read a = s.mem.read a := fun a ha =>
    exec_read_other hinv1.1 (hinv1.ready hc1) he1 ha
  have ht1 := exec_eq_setCtx hinv.1 (hinv1.ready hc1) he1
  have ht2 := exec_eq_setCtx hinv.1 (hinv2.ready hc2) he2
  have hcur2 : t2.cur = t2.ctx c2 := congrArg t2.ctx (congrArg State.issuer ht2)
  have hsame : (s.withIssuer c2).SameIssue (t1.withIssuer c2) := by
    rw [ht1]
    exact ⟨rfl, rfl, rfl, s.ctx_setCtx_other c1 _ hne.symm⟩
  have hlt : c2 < (t1.withIssuer c2).ctxs.length := by
    rw [ht1]
    exact (s.setCtx_length c1 _).symm ▸ hc2
  obtain ⟨m, he, hwf, halike, hother⟩ := exec_congr hsame hinv2.1 hwf1 (hinv2.ready hc2) hlt he2
    (fun j hj r hr a ha => hkeep a (hsrc j hj r hr a ha))
  refine ⟨m, ?_, hwf, fun a ha => halike a (hkeep a ha), hother⟩
  rw [he, hcur2]
  exact congrArg (fun u => Host.Outcome.next (((u.withIssuer c2).setCur (t2.ctx c2)).withMem m)) ht1

/-- Settles O37: each command after the other is as `exec_after` says; the contexts are replaced in either order, and the two
memories agree on the bytes that the first command writes and on all others. -/
theorem independentCommandsCommute : Obligations.IndependentCommandsCommute := by
  unfold Obligations.IndependentCommandsCommute
  intro s i1 i2 c1 c2 t1 t2 hinv hc1 hc2 hne he1 he2 hind
  have hread1 : ∀ j1, jobOf i1 (s.withIssuer c1) = some j1 → ∀ r ∈ j1.destSpan :: j1.readSpans, ∀ a,
      r.contains a = true → ¬ Writes i2 (s.withIssuer c2) a := fun j1 hj1 r hr a ha =>
    not_writes_of_disjoint (fun j2 hj2 => (hind j1 j2 hj1 hj2).2 r hr) ha
  have hread2 : ∀ j2, jobOf i2 (s.withIssuer c2) = some j2 → ∀ r ∈ j2.destSpan :: j2.readSpans, ∀ a,
      r.contains a = true → ¬ Writes i1 (s.withIssuer c1) a := fun j2 hj2 r hr a ha =>
    not_writes_of_disjoint (fun j1 hj1 => (hind j1 j2 hj1 hj2).1 r hr) ha
  obtain ⟨m, hm, hwf, hm2, hm1⟩ := exec_after hinv hc1 hc2 hne he1 he2
    (fun j hj r hr => hread2 j hj r (List.mem_cons_of_mem _ hr))
  obtain ⟨m', hm', hwf', hm1', hm2'⟩ := exec_after hinv hc2 hc1 hne.symm he2 he1
    (fun j hj r hr => hread1 j hj r (List.mem_cons_of_mem _ hr))
  have hwrites : ∀ a, Writes i1 (s.withIssuer c1) a → ¬ Writes i2 (s.withIssuer c2) a := fun a ⟨j1, hj1, hin⟩ =>
    hread1 j1 hj1 _ List.mem_cons_self a hin
  have hmem : m' = m := by
    refine Memory.ext_read hwf' hwf (fun a => ?_)
    by_cases ha : Writes i1 (s.withIssuer c1) a
    · rw [hm1' a (hwrites a ha), hm1 a (hwrites a ha)]
    · rw [hm2' a ha, hm2 a ha]
  refine ⟨((s.setCtx c1 (t1.ctx c1)).setCtx c2 (t2.ctx c2)).withMem m, hm, ?_, ?_, ?_, fun j1 hj1 a ha => ?_,
    fun j2 hj2 a ha => ?_⟩
  · rw [hm', hmem, State.setCtx_comm s hne]
  · exact (State.ctx_setCtx_other _ _ _ hne).trans (s.ctx_setCtx_same c1 _ hc1)
  · exact State.ctx_setCtx_same _ _ _ ((s.setCtx_length c1 _).symm ▸ hc2)
  · exact hm1 a (hread1 j1 hj1 _ List.mem_cons_self a ha)
  · exact hm2 a (hread2 j2 hj2 _ List.mem_cons_self a ha)

end Sys2Proof.Machine
end

section
/-! Bytes of memory as the host and the commands see them: the order of the bytes of a datum (O48), and a host access that meets
no mapped register block (O49). -/

namespace Sys2Proof.Machine

/-! ### The order of bytes -/

/-- 20_memory.md R52: `readHalf` joins two bytes, the most significant first, each from its place. -/
theorem Memory.extractLsb'_readHalf (m : Memory) (o : ByteOrder) (a : Nat) {k : Nat} (hk : k < 2) :
    (m.readHalf o a).extractLsb' (8 * k) 8 = m.read (a + o.place 2 k) := by
  rw [Memory.readHalf]
  match k, hk with
  | 0, _ => rw [BitVec.extractLsb'_append_eq_right]
  | 1, _ => rw [BitVec.extractLsb'_append_eq_left]

/-- In the little-endian order a word is its second half above its first. -/
theorem Memory.readWord_little (m : Memory) (a : Nat) :
    m.readWord .little a = m.readHalf .little (a + 2) ++ m.readHalf .little a := by
  simp only [Memory.readWord, Memory.readHalf, ByteOrder.place_little, Nat.add_assoc, Nat.reduceAdd]
  rw [BitVec.append_assoc]
  rfl

/-- Settles O48, by the places of the bytes in the order `.little`. -/
theorem memoryIsLittleEndian : Obligations.MemoryIsLittleEndian := by
  unfold Obligations.MemoryIsLittleEndian
  refine ⟨fun m a k hk => ?wordRead, fun m a k hk => ?halfRead, fun m a v hwf k hk => ?halfWritten,
    fun m a v v' hwf => ?twoOutputs, ?reset, fun s t hstep => ?step⟩
  case wordRead => exact Memory.extractLsb'_readWord m .little a hk
  case halfRead => exact Memory.extractLsb'_readHalf m .little a hk
  case halfWritten => exact Memory.read_writeHalf_place hwf .little a v hk
  case twoOutputs =>
    have hwf' := Memory.writeHalf_wf .little hwf a v
    rw [Memory.readWord_little, Memory.readHalf_writeHalf_same .little hwf',
      Memory.readHalf_writeHalf_other .little hwf' v' (by omega), Memory.readHalf_writeHalf_same .little hwf]
  case reset => rfl
  case step => exact congrArg Config.byteOrder (stepKeepsConfig s t hstep)

/-! ### Host access to data memory -/

/-- An address outside the mapped blocks routes to no register (20_memory.md R62). -/
theorem route_data_none {g : Config} {addr : Nat} (h : ∀ q ∈ mappedBlocks g, q.contains addr = false) :
    route g .data addr = none := by
  by_contra hsome
  obtain ⟨⟨c, off⟩, hr⟩ := Option.ne_none_iff_exists'.mp hsome
  obtain ⟨hc, ho, haddr⟩ := route_some hr
  have hmapped : g.mapped c = true := (Option.filter_eq_some_iff.mp hr).2
  have hblock : ctxBlock g c ∈ mappedBlocks g :=
    List.mem_map_of_mem (List.mem_filter.mpr ⟨List.mem_range.mpr hc, hmapped⟩)
  have hin : (ctxBlock g c).contains addr = true := by
    simp only [Span.contains_iff, ctxBlock, regSpan]
    omega
  rw [h _ hblock] at hin
  cases hin

section
variable {s : State} {addr : Nat} (hroute : route s.cfg .data addr = none)
include hroute

theorem hostWrite_data {bytes : List Byte} (h : hostRefusal s.cfg .store addr bytes.length = none) :
    hostWrite .data addr bytes s = .next (s.withMem (s.mem.writeBytes addr bytes)) := by
  unfold hostWrite
  simp only [hroute, h]

theorem hostRead_data {len : Nat} (h : hostRefusal s.cfg .load addr len = none) :
    hostRead .data addr len s = .next (s.withBusData (s.mem.readBytes addr len)) := by
  unfold hostRead
  simp only [hroute, h]

end

@[simp] theorem Memory.readBytes_length (m : Memory) (a len : Nat) : (m.readBytes a len).length = len := by
  simp [Memory.readBytes]

theorem Memory.readBytes_getD (m : Memory) (a : Nat) {len k : Nat} (hk : k < len) (d : Byte) :
    (m.readBytes a len).getD k d = m.read (a + k) := by
  rw [List.getD_eq_getElem _ _ ((m.readBytes_length a len).symm ▸ hk)]
  simp [Memory.readBytes]

/-- Settles O49: outside the mapped blocks an access is refused only for a byte that is not admitted. -/
theorem hostStoresAndLoads : Obligations.HostStoresAndLoads := by
  unfold Obligations.HostStoresAndLoads
  rintro s addr _ bytes ov rest hwf rfl hout
  have hroute : route s.cfg .data addr = none := route_data_none (fun q hq => hout 0 (by omega) q hq)
  have hblocks : ∀ q ∈ mappedBlocks s.cfg, q.disjoint ⟨addr, bytes.length⟩ := fun q hq =>
    (Span.disjoint_comm _ _).mp (fun k hk => hout k (Nat.lt_of_lt_of_le hk (Nat.le_max_right _ _)) q hq)
  refine ⟨fun hadm hp => ?store, fun hadm hp => ?load⟩
  case store =>
    have hgo : hostRefusal s.cfg .store addr bytes.length = none := hostRefusal_none_iff.mpr ⟨hblocks, hadm⟩
    have hstep := (step_write hp).trans (hostWrite_data (s := s.takeEvent _ rest) hroute hgo)
    refine ⟨_, hstep, rfl, rfl, fun k hk => ?_, fun a ha => ?_⟩
    · have hin := Memory.read_writeBytes hwf addr bytes (addr + k)
      rw [if_pos (by omega), Nat.add_sub_cancel_left] at hin
      exact hin
    · exact (Memory.read_writeBytes hwf addr bytes a).trans (if_neg (by omega))
  case load =>
    have hgo : hostRefusal s.cfg .load addr bytes.length = none := hostRefusal_none_iff.mpr ⟨hblocks, hadm⟩
    have hstep := (step_read hp).trans (hostRead_data (s := s.takeEvent _ rest) hroute hgo)
    exact ⟨_, hstep, rfl, rfl, rfl, Memory.readBytes_length _ _ _, fun k hk => Memory.readBytes_getD _ _ hk _⟩

end Sys2Proof.Machine
end

section
/-! The encoder, the decoder and the opcode table (30_encoding.md R80, R81, R82; O1, O2, O3), and the reserved
words (R85; O4). -/

namespace Sys2Proof

/-! ### The decoder and the encoder -/

/-- Fields and words are the same thing. -/
theorem eq_join_iff {w : Word} {c : CmdWord} : w = c.join ↔ splitWord w = c := by
  constructor
  · rintro rfl
    exact splitWord_of_join c
  · rintro rfl
    exact (splitWord_join w).symm

theorem decode_of_fields {w : Word} {i : Instr} (h : splitWord w = i.fields) : decode w = .ok i := by
  have hrsv : (splitWord w).rsv = 0 := by rw [h]; cases i <;> rfl
  rw [decode_fields hrsv, h]
  cases i <;> simp [Instr.fields]

theorem decode_eq_ok_iff {w : Word} {i : Instr} : decode w = .ok i ↔ splitWord w = i.fields := by
  refine ⟨fun h => ?_, decode_of_fields⟩
  rcases decode_cases w with ⟨-, hd⟩ | ⟨-, ⟨-, -, hd⟩ | ⟨j, hj, hd⟩ | ⟨-, -, -, -, hd⟩⟩ <;> cases hd.symm.trans h
  exact hj

/-- Settles O2: both sides say that the word has the command's fields. -/
theorem decodeInvertsEncode : Obligations.DecodeInvertsEncode := by
  unfold Obligations.DecodeInvertsEncode
  exact fun _ _ => decode_eq_ok_iff.trans eq_join_iff.symm

theorem decode_encode (i : Instr) : decode (encode i) = .ok i := (decodeInvertsEncode _ i).mpr rfl

/-- Settles O1: the legal words are the encodings of the commands; each reserved word is refused by its field. -/
theorem commandWordsDecode : Obligations.CommandWordsDecode := by
  unfold Obligations.CommandWordsDecode
  refine ⟨?cvts, ?cvtm, ?cvtmS, ?cvti, ?cvtiS, ?cvti2, ?cvti2S, ?reserved⟩
  case cvts => exact decode_encode .cvts
  case cvtm => exact decode_encode (.cvtm false)
  case cvtmS => exact decode_encode (.cvtm true)
  case cvti => exact decode_encode (.cvti false)
  case cvtiS => exact decode_encode (.cvti true)
  case cvti2 => exact decode_encode (.cvti2 false)
  case cvti2S => exact decode_encode (.cvti2 true)
  case reserved => decide

/-! ### Legal and reserved words -/

theorem CmdWord.wellFormed_iff (c : CmdWord) :
    c.wellFormed = true ↔
      c.rsv.toNat = 0 ∧ 1 ≤ c.opc.toNat ∧ c.opc.toNat ≤ 4 ∧ ¬ (c.opc.toNat = 1 ∧ c.sc = true) := by
  have hrsv : c.rsv = 0 ↔ c.rsv.toNat = 0 := by rw [← BitVec.toNat_inj]; rfl
  have hopc : c.opc = 1 ↔ c.opc.toNat = 1 := by rw [← BitVec.toNat_inj]; rfl
  simp only [CmdWord.wellFormed, Bool.and_eq_true, Bool.or_eq_true, beq_iff_eq, bne_iff_ne, ne_eq, decide_eq_true_eq,
    Bool.not_eq_true', hrsv, hopc, and_assoc, not_and_or, Bool.not_eq_true]

/-- Every command is written with legal fields. -/
theorem Instr.fields_wellFormed (i : Instr) : i.fields.wellFormed = true := by
  cases i <;> rfl

/-- The decoder refuses exactly the words that match no row of 30_encoding.md R81. -/
theorem decode_error_iff {w : Word} : (∃ e, decode w = .error e) ↔ ¬ (splitWord w).wellFormed = true := by
  rcases decode_cases w with ⟨h, hd⟩ | ⟨-, ⟨hopc, hsc, hd⟩ | ⟨i, hi, hd⟩ | ⟨h1, h2, h3, h4, hd⟩⟩
  · refine iff_of_true ⟨_, hd⟩ (fun hwf => ?_)
    obtain ⟨h0, -⟩ := (CmdWord.wellFormed_iff _).mp hwf
    exact h (BitVec.eq_of_toNat_eq h0)
  · refine iff_of_true ⟨_, hd⟩ (fun hwf => ?_)
    obtain ⟨-, -, -, h⟩ := (CmdWord.wellFormed_iff _).mp hwf
    exact h ⟨by rw [hopc]; rfl, hsc⟩
  · refine iff_of_false (fun ⟨e, he⟩ => ?_) (not_not_intro (hi ▸ i.fields_wellFormed))
    cases hd.symm.trans he
  · refine iff_of_true ⟨_, hd⟩ (fun hwf => ?_)
    obtain ⟨-, hlo, hhi, -⟩ := (CmdWord.wellFormed_iff _).mp hwf
    bv_omega

/-- 30_encoding.md R85, on the bits of the word. -/
theorem decode_error_iff_toNat {w : Word} :
    (∃ e, decode w = .error e) ↔
      w.toNat / 2 ^ 9 ≠ 0 ∨ w.toNat % 2 ^ 8 = 0 ∨ 5 ≤ w.toNat % 2 ^ 8 ∨ (w.toNat % 2 ^ 8 = 1 ∧ w.getLsbD 8 = true) := by
  have hsc : (splitWord w).sc = w.getLsbD 8 := rfl
  rw [decode_error_iff, CmdWord.wellFormed_iff, splitWord_rsv_toNat, splitWord_opc_toNat, hsc]
  by_cases h : w.getLsbD 8 = true
  · simp only [h, and_true]
    omega
  · simp only [h, Bool.false_eq_true, and_false, or_false, not_false_eq_true, and_true]
    omega

/-! ### The opcode table -/

/-- A mask without bit 8 clears `SC` and keeps the other fields. -/
theorem splitWord_and_rowMask (w : Word) : splitWord (w &&& 0xFFFFFEFF) = { splitWord w with sc := false } := by
  have hrsv : BitVec.extractLsb' 9 23 (0xFFFFFEFF : Word) = BitVec.allOnes 23 := rfl
  have hopc : BitVec.extractLsb' 0 8 (0xFFFFFEFF : Word) = BitVec.allOnes 8 := rfl
  have hsc : (0xFFFFFEFF : Word).getLsbD 8 = false := rfl
  simp only [splitWord, BitVec.extractLsb'_and, BitVec.getLsbD_and, hrsv, hopc, hsc, BitVec.and_allOnes, Bool.and_false]

/-- A row for both values of `SC` fixes the word's other fields; `SC` is bit 8. -/
theorem splitWord_eq_iff {w : Word} {sc : Bool} {o : BitVec 8} :
    splitWord w = ⟨0, sc, o⟩ ↔ w &&& 0xFFFFFEFF = (⟨0, false, o⟩ : CmdWord).join ∧ sc = w.getLsbD 8 := by
  have hsc : (splitWord w).sc = w.getLsbD 8 := rfl
  rw [eq_join_iff, splitWord_and_rowMask, ← hsc]
  generalize splitWord w = c
  obtain ⟨r, s, p⟩ := c
  simp only [CmdWord.mk.injEq, true_and]
  tauto

theorem decode_eq_cvts_iff {w : Word} : decode w = .ok .cvts ↔ w &&& 0xFFFFFFFF = 0x00000001 := by
  have hmask : w &&& 0xFFFFFFFF = w := BitVec.and_allOnes
  rw [hmask]
  exact decodeInvertsEncode w .cvts

section
variable {w : Word} {sc : Bool}

theorem decode_eq_cvtm_iff : decode w = .ok (.cvtm sc) ↔ w &&& 0xFFFFFEFF = 0x00000002 ∧ sc = w.getLsbD 8 :=
  decode_eq_ok_iff.trans splitWord_eq_iff

theorem decode_eq_cvti_iff : decode w = .ok (.cvti sc) ↔ w &&& 0xFFFFFEFF = 0x00000003 ∧ sc = w.getLsbD 8 :=
  decode_eq_ok_iff.trans splitWord_eq_iff

theorem decode_eq_cvti2_iff : decode w = .ok (.cvti2 sc) ↔ w &&& 0xFFFFFEFF = 0x00000004 ∧ sc = w.getLsbD 8 :=
  decode_eq_ok_iff.trans splitWord_eq_iff

end

/-- A row that selects a word is the row of the command that the word decodes to. -/
theorem decode_of_selects {w : Word} {r : OpRow} (hr : r ∈ opTable) (h : r.selects w = true) :
    ∃ i, decode w = .ok i ∧ opRow i = r := by
  have hw : w &&& r.mask = r.matchBits := beq_iff_eq.mp h
  simp only [opTable, List.mem_cons, List.not_mem_nil, or_false] at hr
  rcases hr with rfl | rfl | rfl | rfl
  · exact ⟨_, decode_eq_cvts_iff.mpr hw, rfl⟩
  · exact ⟨_, decode_eq_cvtm_iff.mpr ⟨hw, rfl⟩, rfl⟩
  · exact ⟨_, decode_eq_cvti_iff.mpr ⟨hw, rfl⟩, rfl⟩
  · exact ⟨_, decode_eq_cvti2_iff.mpr ⟨hw, rfl⟩, rfl⟩

/-- Settles O3: at most one row matches a word because the word decodes to one command at most. -/
theorem opcodeTableSelects : Obligations.OpcodeTableSelects := by
  unfold Obligations.OpcodeTableSelects
  refine ⟨fun _ => decode_eq_cvts_iff, fun _ _ => decode_eq_cvtm_iff, fun _ _ => decode_eq_cvti_iff,
    fun _ _ => decode_eq_cvti2_iff, fun w h => ?reserved, fun w r r' hr hr' hs hs' => ?unique⟩
  case reserved => exact decode_error_iff_toNat.mpr (.inr (h.imp_right .inl))
  case unique =>
    obtain ⟨i, hi, rfl⟩ := decode_of_selects hr hs
    obtain ⟨j, hj, rfl⟩ := decode_of_selects hr' hs'
    cases hi.symm.trans hj
    rfl

end Sys2Proof

namespace Sys2Proof.Machine

/-! ### Issue of a reserved word -/

theorem issue_reserved {w : Word} {e : Reserved} (h : decode w = .error e) (s : State) :
    issue w s = .next (illegalCommand w s) := by
  rw [issue, h]

/-- Settles O4: a reserved word answers the state of `illegalCommand`. -/
theorem reservedWordsRefused : Obligations.ReservedWordsRefused := by
  unfold Obligations.ReservedWordsRefused
  refine fun w => ⟨decode_error_iff_toNat, fun s e hs he => ⟨illegalCommand w s, issue_reserved he s, ?_⟩⟩
  exact ⟨rfl, illegalCommand_cur w s hs, fun _ hc => illegalCommand_ctx_other w s hc, rfl, rfl, rfl, rfl, rfl, rfl⟩

end Sys2Proof.Machine
end

section
/-! `mul32` rounds the exact product once, to nearest, ties to the even fraction (40_scalar_convert.md R102; O9). Every exact
product lies between two neighbouring numbers of the grid, and no number lies between those. -/

namespace Sys2Proof.Machine

/-! ### The grid around an exact product -/

theorem isZero_iff (b : Word) : isZero b = true ↔ absBits b = 0 := by
  have := absBits_lt b
  simp only [isZero, expField_eq, fracField_eq, Bool.and_eq_true, beq_iff_eq]
  omega

theorem gridExp_ge (n : Nat) : 149 ≤ gridExp n := Nat.le_max_right _ _

/-- The significand before rounding has at most 24 bits. -/
theorem quotient_grid_lt (n : Nat) : n / 2 ^ gridExp n < 2 ^ 24 := by
  rw [Nat.div_lt_iff_lt_mul (Nat.two_pow_pos _), ← Nat.pow_add]
  exact Nat.lt_log2_self.trans_le (Nat.pow_le_pow_right (by decide) (by simp only [gridExp]; omega))

/-- Above the subnormal grid it has exactly 24. -/
theorem le_quotient_grid {n : Nat} (h : 149 < gridExp n) : 2 ^ 23 ≤ n / 2 ^ gridExp n := by
  have hne : n ≠ 0 := by rintro rfl; exact absurd h (by decide)
  rw [Nat.le_div_iff_mul_le (Nat.two_pow_pos _), ← Nat.pow_add]
  exact (Nat.pow_le_pow_right (by decide) (by simp only [gridExp] at *; omega)).trans (Nat.log2_self_le hne)

/-- The bits of `m` grid steps `2^g` have the value `m * 2^g`, in units of `2^-298`; the significand `2^24` carries into the
exponent field. -/
theorem magBits_grid {g m : Nat} (hg : 149 ≤ g) (hm : m ≤ 2 ^ 24) (hnormal : 149 < g → 2 ^ 23 ≤ m) :
    magBits ((g - 149) * 2 ^ 23 + m) * 2 ^ 149 = m * 2 ^ g := by
  obtain ⟨e, rfl⟩ : ∃ e, g = e + 149 := ⟨g - 149, by omega⟩
  rw [Nat.add_sub_cancel, Nat.pow_add, ← Nat.mul_assoc]
  congr 1
  rcases Nat.lt_or_ge m (2 ^ 23) with hsub | hnorm
  · obtain rfl : e = 0 := by omega
    rw [magBits, if_pos (by omega)]
    omega
  · rcases Nat.lt_or_eq_of_le hm with hlt | rfl
    · have hexp : (e * 2 ^ 23 + m) / 2 ^ 23 = e + 1 := by omega
      have hfrac : 2 ^ 23 + (e * 2 ^ 23 + m) % 2 ^ 23 = m := by omega
      rw [magBits, hexp, hfrac, if_neg e.succ_ne_zero, Nat.add_sub_cancel]
    · have hexp : (e * 2 ^ 23 + 2 ^ 24) / 2 ^ 23 = e + 1 + 1 := by omega
      have hfrac : (e * 2 ^ 23 + 2 ^ 24) % 2 ^ 23 = 0 := by omega
      rw [magBits, hexp, hfrac, if_neg (Nat.succ_ne_zero _), Nat.add_sub_cancel, Nat.pow_succ]
      omega

/-! ### The rounded magnitude -/

/-- The overflow threshold of R102, `2^128 - 2^103`, from both sides. -/
theorem roundMag_overflow {n : Nat} (h : 2 ^ 426 - 2 ^ 401 ≤ n) : roundMag n = 0x7F800000 := by
  have hbound : roundMag (2 ^ 426 - 2 ^ 401) = 0x7F800000 := by decide +kernel
  exact (roundMag_le n).antisymm (hbound.ge.trans (roundMag_mono h))

theorem roundMag_finite {n : Nat} (h : n < 2 ^ 426 - 2 ^ 401) : roundMag n < 0x7F800000 := by
  have hbound : roundMag (2 ^ 426 - 2 ^ 401 - 1) < 0x7F800000 := by decide +kernel
  exact (roundMag_mono (Nat.le_sub_one_of_lt h)).trans_lt hbound

/-- No number is nearer to `n * 2^-298` than the rounded one, and if another is as near, the rounded one is even. -/
theorem roundMag_nearest {n : Nat} (h : roundMag n < 0x7F800000) (k : Nat) :
    ((magBits (roundMag n) * 2 ^ 149 : Int) - n).natAbs ≤ ((magBits k * 2 ^ 149 : Int) - n).natAbs ∧
    (magBits k ≠ magBits (roundMag n) →
      ((magBits (roundMag n) * 2 ^ 149 : Int) - n).natAbs = ((magBits k * 2 ^ 149 : Int) - n).natAbs →
      roundMag n % 2 = 0) := by
  have hbits : roundMag n = (gridExp n - 149) * 2 ^ 23 + roundEven n (gridExp n) := by
    simp only [roundMag] at h ⊢
    omega
  -- the neighbours of the exact product: the bits of the quotient, and the next ones
  have hq := quotient_grid_lt n
  have hlow := magBits_grid (gridExp_ge n) hq.le le_quotient_grid
  have hhigh := magBits_grid (m := n / 2 ^ gridExp n + 1) (gridExp_ge n) hq
    (fun hg => Nat.le_succ_of_le (le_quotient_grid hg))
  have hn := Nat.div_add_mod' n (2 ^ gridExp n)
  have hr := Nat.mod_lt n (Nat.two_pow_pos (gridExp n))
  rw [Nat.succ_mul] at hhigh
  have hside : magBits k ≤ magBits ((gridExp n - 149) * 2 ^ 23 + n / 2 ^ gridExp n) ∨
      magBits ((gridExp n - 149) * 2 ^ 23 + (n / 2 ^ gridExp n + 1)) ≤ magBits k := by
    rw [magBits_le_iff, magBits_le_iff]
    omega
  rw [hbits, roundEven]
  generalize n / 2 ^ gridExp n * 2 ^ gridExp n = low at *
  split_ifs <;> omega

/-! ### The product -/

theorem mul32_nan {a b : Word} (h : isNaN a = true ∨ isNaN b = true) : mul32 a b = QNAN :=
  if_pos (by rw [Bool.or_eq_true]; exact h)

theorem mul32_infinite {a b : Word} (ha : isNaN a = false) (hb : isNaN b = false) (hza : isZero a = false)
    (hzb : isZero b = false) (h : isInf a = true ∨ isInf b = true) :
    mul32 a b = packSign (a.msb != b.msb) 0x7F800000 := by
  have hor : (isInf a || isInf b) = true := by rw [Bool.or_eq_true]; exact h
  simp only [mul32, ha, hb, hza, hzb, hor, Bool.or_self, Bool.false_eq_true, if_false, if_true]

theorem not_inf_of_finite {b : Word} (h : isFinite b = true) : isInf b = false := by
  rw [isFinite_iff] at h
  rw [← Bool.not_eq_true, isInf_iff]
  omega

theorem mul32_of_finite {a b : Word} (ha : isFinite a = true) (hb : isFinite b = true) :
    mul32 a b = packSign (a.msb != b.msb) (roundMag (mag a * mag b)) := by
  simp only [mul32, not_nan_of_finite ha, not_nan_of_finite hb, not_inf_of_finite ha, not_inf_of_finite hb, Bool.or_self,
    Bool.false_eq_true, if_false]

/-- Settles O9: the bits of a finite product are `roundMag` of the exact one, which `roundMag_nearest` says is nearest. -/
theorem multiplyIsNearestEven : Obligations.MultiplyIsNearestEven := by
  unfold Obligations.MultiplyIsNearestEven
  refine fun a b => ⟨fun h => ?nan, fun ha hb hza hzb h => ?infinite, fun ha hb => ?finite⟩
  case nan =>
    rw [mul32_nan h]
    decide
  case infinite =>
    rw [mul32_infinite ha hb hza hzb h, isInf_iff]
    exact ⟨absBits_packSign (by decide), msb_packSign (by decide)⟩
  case finite =>
    have hlt := roundMag_lt (mag a * mag b)
    have hzero : roundMag 0 = 0 := by decide
    rw [mul32_of_finite ha hb, msb_packSign hlt, isZero_iff, isInf_iff, isFinite_iff, fracField_eq, mag_eq (packSign _ _),
      absBits_packSign hlt]
    refine ⟨rfl, fun h0 => by rw [h0, hzero], roundMag_overflow, fun hfin => ⟨roundMag_finite hfin, fun y _ => ?_⟩⟩
    obtain ⟨hnear, htie⟩ := roundMag_nearest (roundMag_finite hfin) (absBits y)
    rw [← mag_eq, Nat.cast_mul] at hnear htie
    exact ⟨hnear, fun hne heq => by have := htie hne heq; omega⟩

end Sys2Proof.Machine
end

section
/-! The conversion to an integer (40_scalar_convert.md R103; O10) and the conversion function as a sign and a monotone function
of the magnitude, from which its shape follows (R107, R110, R114, R115; O13 to O19). -/

namespace Sys2Proof.Machine

/-! ### Rounding half away from zero -/

theorem floorHalf_spec (v : Int) :
    floorHalf v * 2 ^ 149 ≤ v + 2 ^ 148 ∧ v + 2 ^ 148 < (floorHalf v + 1) * 2 ^ 149 := by
  rw [floorHalf]
  omega

/-- Settles O10: on either sign `rha` is the floor that `floorHalf_spec` bounds, the sign put back. -/
theorem roundHalfAwayFromZero : Obligations.RoundHalfAwayFromZero := by
  unfold Obligations.RoundHalfAwayFromZero
  intro y _
  rcases lt_or_ge (sval y) 0 with hneg | hpos
  · have hrha : rha y = -floorHalf (-sval y) := if_neg (Int.not_le.mpr hneg)
    have hfloor := floorHalf_spec (-sval y)
    rw [hrha, neg_neg]
    exact ⟨fun hpos => absurd hneg (Int.not_lt.mpr hpos), fun _ => hfloor, by omega, fun htie => by omega⟩
  · have hrha : rha y = floorHalf (sval y) := if_pos hpos
    have hfloor := floorHalf_spec (sval y)
    rw [hrha]
    exact ⟨fun _ => hfloor, fun hneg => absurd hneg (Int.not_lt.mpr hpos), by omega, fun htie => by omega⟩

/-! ### The magnitude of the result -/

/-- The magnitude of `CVT` as a function of the sample's, in units of `2^-149`: scaled, clamped to 32767.0, rounded. -/
def cvtMag (n : Nat) : Nat := (magBits (min (roundMag (n * mag K32767)) 0x46FFFE00) + 2 ^ 148) / 2 ^ 149

theorem cvtMag_mono {n k : Nat} (h : n ≤ k) : cvtMag n ≤ cvtMag k := by
  refine Nat.div_le_div_right (Nat.add_le_add_right (magBits_le_iff.mpr ?_) _)
  exact min_le_min_right _ (roundMag_mono (Nat.mul_le_mul_right _ h))

theorem cvtMag_zero : cvtMag 0 = 0 := by decide +kernel

/-- `CVT` by sign and magnitude, infinities included. -/
theorem cvt_eq_cvtMag {x : Word} (h : isNaN x = false) :
    cvt x = if x.msb then -(cvtMag (mag x) : Int) else (cvtMag (mag x) : Int) := by
  cases hfin : isFinite x with
  | true => exact cvt_finite hfin
  | false =>
    rcases nonFinite_cases hfin with hnan | rfl | rfl
    · rw [h] at hnan; cases hnan
    · decide +kernel
    · decide +kernel

/-- A larger value has a result at least as large (40_scalar_convert.md R110(b)). -/
theorem cvt_mono {a b : Word} (ha : isNaN a = false) (hb : isNaN b = false) (h : sval a ≤ sval b) : cvt a ≤ cvt b := by
  rw [cvt_eq_cvtMag ha, cvt_eq_cvtMag hb]
  rw [sval, sval] at h
  cases hsa : a.msb <;> cases hsb : b.msb <;>
    simp only [hsa, hsb, Bool.false_eq_true, if_false, if_true] at h ⊢
  case false.false => have := cvtMag_mono (n := mag a) (k := mag b) (by omega); omega
  case false.true =>
    obtain ⟨ha0, hb0⟩ : mag a = 0 ∧ mag b = 0 := by omega
    rw [ha0, hb0, cvtMag_zero]
    decide
  case true.false => omega
  case true.true => have := cvtMag_mono (n := mag b) (k := mag a) (by omega); omega

/-- Settles O16, by `cvt_mono`. -/
theorem conversionIsMonotone : Obligations.ConversionIsMonotone := by
  unfold Obligations.ConversionIsMonotone
  exact fun a b ha hb h => cvt_mono ha hb h

/-! ### Odd symmetry -/

theorem msb_flip (b : Word) : (b ^^^ SIGNMASK).msb = !b.msb := by
  have hmask : SIGNMASK.msb = true := by decide
  rw [BitVec.msb_xor, hmask, Bool.xor_true]

theorem absBits_flip (b : Word) : absBits (b ^^^ SIGNMASK) = absBits b := by
  have hmask : SIGNMASK.toNat % 2 ^ 31 = 0 := by decide
  rw [absBits, BitVec.toNat_xor, Nat.xor_mod_two_pow, hmask, Nat.xor_zero, absBits]

/-- Settles O15: a flipped sign leaves the magnitude of the result. -/
theorem conversionIsOdd : Obligations.ConversionIsOdd := by
  unfold Obligations.ConversionIsOdd
  intro b hb
  have hflip : isNaN (b ^^^ SIGNMASK) = false := by
    rw [← Bool.not_eq_true, isNaN_iff] at hb ⊢
    rwa [absBits_flip]
  rw [cvt_eq_cvtMag hb, cvt_eq_cvtMag hflip, msb_flip, mag_eq, absBits_flip, ← mag_eq]
  cases b.msb <;> simp

/-! ### The three branches (40_scalar_convert.md R105, R107) -/

theorem lt_MONE_iff {x : Word} (h : isNaN x = false) : lt x MONE = true ↔ sval x < -(2 ^ 149) := by
  have hM : isNaN MONE = false := by decide +kernel
  rw [lt, h, hM, sval_MONE]
  simp

theorem le_ONE_iff {x : Word} (h : isNaN x = false) : le x ONE = true ↔ sval x ≤ 2 ^ 149 := by
  have h1 : isNaN ONE = false := by decide +kernel
  rw [le, h, h1, sval_ONE]
  simp

theorem cvt_below {x : Word} (h : isNaN x = false) (hlt : lt x MONE = true) : cvt x = -32767 := by
  simp only [cvt, h, hlt, Bool.false_eq_true, if_false, if_true]

theorem cvt_inRange {x : Word} (h : isNaN x = false) (hlt : lt x MONE = false) (hle : le x ONE = true) :
    cvt x = rha (mul32 x K32767) := by
  simp only [cvt, h, hlt, hle, Bool.false_eq_true, if_false, if_true]

theorem cvt_above {x : Word} (h : isNaN x = false) (hlt : lt x MONE = false) (hle : le x ONE = false) : cvt x = 32767 := by
  simp only [cvt, h, hlt, hle, Bool.false_eq_true, if_false]

/-- For numbers the comparisons are each other's negation (40_scalar_convert.md R101). -/
theorem le_eq_not_lt {a b : Word} (ha : isNaN a = false) (hb : isNaN b = false) : le a b = !lt b a := by
  rw [le, lt, ha, hb]
  simp [← decide_not]

/-- Settles O13: in range the clamp does nothing, by the bounds of `CVT`; outside one branch answers. -/
theorem scalarContract : Obligations.ScalarContract := by
  unfold Obligations.ScalarContract
  refine ⟨fun x hfin hlo hhi => ?inRange, fun x hx hlt => cvt_below hx ((lt_MONE_iff hx).mpr hlt), fun x hx hgt => ?above⟩
  case inRange =>
    have hx := not_nan_of_finite hfin
    have hlt : lt x MONE = false := by
      rw [← Bool.not_eq_true, lt_MONE_iff hx]
      omega
    rw [← cvt_inRange hx hlt ((le_ONE_iff hx).mpr hhi)]
    have := cvt_bounds x
    omega
  case above =>
    refine cvt_above hx ?_ ?_
    · rw [← Bool.not_eq_true, lt_MONE_iff hx]
      omega
    · rw [← Bool.not_eq_true, le_ONE_iff hx]
      omega

/-- Settles O14: exactly one of the three tests holds of a number, so that every order finds it. -/
theorem branchOrderDoesNotMatter : Obligations.BranchOrderDoesNotMatter := by
  unfold Obligations.BranchOrderDoesNotMatter
  refine ⟨by decide +kernel, fun b hb => ?_⟩
  have hM : le MONE b = !lt b MONE := le_eq_not_lt (by decide +kernel) hb
  have h1 : lt ONE b = !le b ONE := by rw [le_eq_not_lt hb (by decide +kernel), Bool.not_not]
  rw [hM, h1]
  cases hlt : lt b MONE with
  | true =>
    have hle : le b ONE = true := by
      rw [lt_MONE_iff hb] at hlt
      rw [le_ONE_iff hb]
      omega
    simp [hle, cvt_below hb hlt]
  | false =>
    cases hle : le b ONE with
    | true => simp [cvt_inRange hb hlt hle]
    | false => simp [cvt_above hb hlt hle]

/-! ### The product of a sample and 32767.0 -/

theorem mag_mul32 {x : Word} (h : isFinite x = true) : mag (mul32 x K32767) = magBits (scaled x) := by
  rw [mul32_finite h, mag_eq, absBits_packSign (scaled_lt x)]

theorem natAbs_sval (x : Word) : (sval x).natAbs = mag x := by
  rw [sval]
  split <;> simp

/-- Settles O17: the scaled magnitude of a sample in range is at most that of 32767.0; `CVT` is monotone and bounded. -/
theorem productStaysInRange : Obligations.ProductStaysInRange := by
  unfold Obligations.ProductStaysInRange
  refine ⟨fun b hfin hb => ?inRange, fun b hb hge => ?top, by decide +kernel⟩
  case inRange =>
    rw [natAbs_sval] at hb ⊢
    have hclamp : magBits 0x46FFFE00 = 32767 * 2 ^ 149 := by decide +kernel
    have hscaled := scaled_le hb
    rw [mag_mul32 hfin, ← hclamp, magBits_le_iff, isFinite_iff, mul32_finite hfin, absBits_packSign (scaled_lt b)]
    omega
  case top =>
    have hstart : cvt 0x3F7FFF00 = 32767 := by decide +kernel
    have hmono := cvt_mono (by decide) hb hge
    have := cvt_bounds b
    omega

theorem and_ABSMASK_eq_HALF_iff (b : Word) : b &&& ABSMASK = HALF ↔ mag b = 2 ^ 148 := by
  have hhalf : magBits 0x3F000000 = 2 ^ 148 := by decide +kernel
  have hand : b &&& ABSMASK = packSign false (absBits b) := by
    conv => lhs; rw [← packSign_eta b]
    exact and_absmask _ (absBits_lt b)
  rw [hand, mag_eq, ← hhalf, magBits_strictMono.injective.eq_iff]
  constructor
  · intro h
    rw [← absBits_packSign (s := false) (absBits_lt b), h]
    decide
  · intro h
    rw [h]
    decide

/-- With a half unit `p`: `n` scaled by `c` is an integer plus one half only if `n` is an odd multiple of `p`, and the only one
of at most `2 * p` is `p`. -/
theorem eq_half_of_tie {p n k c : Nat} (hp : 0 < p) (hcop : p.Coprime c) (hn : n ≤ 2 * p)
    (h : 2 * (n * c) = (2 * k + 1) * (2 * p)) : n = p := by
  have htie : n * c = p * (2 * k + 1) := by linarith
  obtain ⟨m, rfl⟩ : p ∣ n := hcop.dvd_of_dvd_mul_right ⟨_, htie⟩
  rw [Nat.mul_assoc] at htie
  have hodd : Odd (m * c) := ⟨k, Nat.eq_of_mul_eq_mul_left hp htie⟩
  have hle : m ≤ 2 := Nat.le_of_mul_le_mul_left (Nat.mul_comm 2 p ▸ hn) hp
  obtain ⟨i, hi⟩ := (Nat.odd_mul.mp hodd).1
  obtain rfl : m = 1 := by omega
  exact p.mul_one

/-- Settles O18, by `eq_half_of_tie`. -/
theorem exactTiesOnlyAtHalf : Obligations.ExactTiesOnlyAtHalf := by
  unfold Obligations.ExactTiesOnlyAtHalf
  refine ⟨fun b _ hb => ?_, by decide +kernel⟩
  have hunit : 2 ^ 149 = 2 * 2 ^ 148 := Nat.pow_succ'
  have hcop : Nat.Coprime (2 ^ 148) 32767 := Nat.Coprime.pow_left 148 (by decide)
  rw [and_ABSMASK_eq_HALF_iff]
  constructor
  · rintro ⟨k, hk⟩
    rw [hunit] at hb hk
    exact eq_half_of_tie (Nat.two_pow_pos _) hcop hb hk
  · intro h
    exact ⟨16383, by rw [h, hunit]; omega⟩

/-! ### Where the result 1 begins (40_scalar_convert.md R114) -/

theorem mag_tiny : mag 0x378000FF = magBits 0x378000FF := by rw [mag_eq]; rfl

/-- A magnitude as small as that of a finite word is one. -/
theorem isFinite_of_tiny {b : Word} (h : mag b ≤ mag 0x378000FF) : isFinite b = true := by
  rw [mag_tiny, mag_eq, magBits_le_iff] at h
  rw [isFinite_iff]
  omega

theorem cvt_tiny {b : Word} (h : mag b ≤ mag 0x378000FF) : cvt b = 0 := by
  have htiny : cvtMag (mag 0x378000FF) = 0 := by decide +kernel
  have hmag0 : cvtMag (mag b) = 0 := Nat.le_zero.mp ((cvtMag_mono h).trans_eq htiny)
  rw [cvt_eq_cvtMag (not_nan_of_finite (isFinite_of_tiny h)), hmag0]
  simp

/-- A positive result has a sample of at least `0x37800100`, the next word. -/
theorem le_sval_of_cvt_pos {b : Word} (hb : isNaN b = false) (h : 0 < cvt b) : sval 0x37800100 ≤ sval b := by
  have hfirst : sval 0x37800100 = (magBits 0x37800100 : Int) := by decide +kernel
  have hbig : ¬ mag b ≤ mag 0x378000FF := fun hle => by rw [cvt_tiny hle] at h; exact absurd h (by decide)
  rw [mag_tiny, mag_eq, magBits_le_iff] at hbig
  have hmag : magBits 0x37800100 ≤ mag b := by
    rw [mag_eq, magBits_le_iff]
    omega
  rw [cvt_eq_cvtMag hb] at h
  rw [hfirst, sval]
  cases hs : b.msb with
  | false =>
    rw [if_neg Bool.false_ne_true]
    exact_mod_cast hmag
  | true =>
    rw [hs, if_pos rfl] at h
    omega

/-- Settles O19: the scaled magnitude of `0x378000FF` is the largest below 1/2, and rounding is monotone. -/
theorem tinyInputsGiveZero : Obligations.TinyInputsGiveZero := by
  unfold Obligations.TinyInputsGiveZero
  refine ⟨fun b hb => ⟨?product, cvt_tiny hb, by rw [cvt_tiny hb]; rfl⟩, fun b hb => ?subnormal, by decide +kernel,
    by decide +kernel, by decide +kernel, fun b hb => ?one⟩
  case product =>
    have hscaled : 2 * magBits (scaled 0x378000FF) < 2 ^ 149 := by decide +kernel
    have hmono : scaled b ≤ scaled 0x378000FF := roundMag_mono (Nat.mul_le_mul_right _ hb)
    rw [mag_mul32 (isFinite_of_tiny hb)]
    exact (Nat.mul_le_mul_left 2 (magBits_le_iff.mpr hmono)).trans_lt hscaled
  case subnormal =>
    rw [expField_eq] at hb
    rw [mag_tiny, mag_eq, magBits_le_iff]
    omega
  case one =>
    have hnan : isNaN b = false := by
      rw [← Bool.not_eq_true]
      intro h
      rw [cvt_nan h] at hb
      cases hb
    exact le_sval_of_cvt_pos hnan (by omega)

end Sys2Proof.Machine
end

section
/-! What the commands store: the conversion of the sample (40_scalar_convert.md R113; O23), never the word `0x8000` (R106; O11),
and nothing besides for samples that are not finite (R108; O12). -/

namespace Sys2Proof.Machine

/-- Settles O23: `CVTS` is one update of its context. -/
theorem cvtsConvertsSample : Obligations.CvtsConvertsSample := by
  unfold Obligations.CvtsConvertsSample
  refine ⟨by decide, ⟨.scOnCvts, by decide⟩, fun s hs => ⟨_, exec_cvts s, s.cur_setCur _ hs,
    fun c hc => s.ctx_setCtx_other _ _ hc, rfl, rfl, rfl, rfl, rfl, rfl, rfl⟩, ?_⟩
  decide +kernel

/-! ### The range of the stored words -/

/-- `int16` of a number in range is not `0x8000`, which is -32768 (40_scalar_convert.md R104, R106). -/
theorem int16_ne_of_bounds {n : Int} (h : -32767 ≤ n ∧ n ≤ 32767) : int16 n ≠ 0x8000 := by
  intro heq
  have hint : (int16 n).toInt = n := by
    rw [int16, BitVec.toInt_ofInt]
    exact Int.bmod_eq_of_le (by omega) (by omega)
  rw [heq] at hint
  have : (0x8000 : Half).toInt = -32768 := by decide
  omega

theorem signExtend_int16_cvt_ne (x : Word) : (int16 (cvt x)).signExtend 32 ≠ 0xFFFF8000 := by
  intro heq
  have hint := toInt_signExtend_int16_cvt x
  rw [heq] at hint
  have : (0xFFFF8000 : Word).toInt = -32768 := by decide
  have := cvt_bounds x
  omega

/-- The destination elements in memory order are those of the channels and frames (20_memory.md R57). -/
theorem Converted.element {j : Job} {m0 m : Memory} (h : Converted j m0 m (fun _ _ => True)) {e : Nat}
    (he : e < j.chans * j.count) :
    m.readHalf j.order (j.dest + 2 * e) = j.out m0 (e % j.chans) (e / j.chans) := by
  have hchans : 0 < j.chans := Nat.pos_of_mul_pos_right (Nat.zero_lt_of_lt he)
  have hdst : j.dest + 2 * e = j.dst (e % j.chans) (e / j.chans) := by
    rw [Job.dst, dstAddr, Nat.div_add_mod']
  rw [hdst]
  exact h.done _ _ (Nat.mod_lt _ hchans) (Nat.div_lt_of_lt_mul he) trivial

/-- Settles O11: every stored word is `int16` of a value of `CVT`, which `cvt_bounds` bounds. -/
theorem resultsStayInRange : Obligations.ResultsStayInRange := by
  unfold Obligations.ResultsStayInRange
  have hcvt : ∀ b : Word, -32767 ≤ cvt b ∧ cvt b ≤ 32767 ∧ int16 (cvt b) ≠ 0x8000 := fun b =>
    ⟨(cvt_bounds b).1, (cvt_bounds b).2, int16_ne_of_bounds (cvt_bounds b)⟩
  have hlane : ∀ impl (b : Word), -32767 ≤ blane impl b ∧ blane impl b ≤ 32767 ∧ int16 (blane impl b) ≠ 0x8000 := by
    simpa only [blane_eq_cvt] using fun _ => hcvt
  refine ⟨hcvt, hlane, fun i s t hwf hr he => ⟨?result, fun j hj e hlt => ?element⟩⟩
  case result =>
    rintro rfl
    rw [exec_cvts] at he
    cases he
    rw [State.cur_setCur _ _ hr.1]
    exact signExtend_int16_cvt_ne _
  case element =>
    obtain ⟨m, rfl, hconv⟩ := exec_memory_completed hwf hr hj he
    rw [← jobOf_order hj, State.withMem_mem, hconv.element hlt]
    exact int16_ne_of_bounds (cvt_bounds _)

/-! ### Flags and reports -/

theorem State.ill_setCur_withResult {s : State} (h : s.issuer < s.ctxs.length) (r : Word) (c : Nat) :
    ((s.setCur (s.cur.withResult r)).ctx c).ill = (s.ctx c).ill := by
  by_cases hc : c = s.issuer
  · rw [hc, State.setCur, s.ctx_setCtx_same _ _ h]
    rfl
  · exact congrArg Context.ill (s.ctx_setCtx_other _ _ hc)

/-- Settles O12: the values by evaluation and `cvt_nan`, the lane by `blane_eq_cvt`; a completed command leaves a new `RESULT`
and a new memory only, by `exec_completed`. -/
theorem nonFiniteInputs : Obligations.NonFiniteInputs := by
  unfold Obligations.NonFiniteInputs
  have hpos : cvt 0x7F800000 = 32767 := by decide +kernel
  have hneg : cvt 0xFF800000 = -32767 := by decide +kernel
  refine ⟨hpos, hneg, fun b hb => cvt_nan hb, fun impl => ?lane, fun i s t hwf hr he => ?frame⟩
  case lane =>
    simp only [blane_eq_cvt]
    exact ⟨hpos, hneg, fun b hb => cvt_nan hb⟩
  case frame =>
    obtain ⟨m, r, rfl, -⟩ := exec_completed hwf hr he
    exact ⟨State.ill_setCur_withResult hr.1 r, rfl⟩

end Sys2Proof.Machine
end

section
/-! The lane algorithm on one sample: its integer is that of the scalar conversion (O20), its two compensations agree
(41_batch_convert.md R131, R132; O21), and a bias sum rounded to binary32 truncates to the same integer (R142; O22). -/

namespace Sys2Proof.Machine

/-- Settles O20, by `blane_eq_cvt`. -/
theorem laneEqualsScalar : Obligations.LaneEqualsScalar := by
  unfold Obligations.LaneEqualsScalar
  exact blane_eq_cvt

/-! ### The clamped lane value -/

theorem scaled_mono {x y : Word} (h : absBits x ≤ absBits y) : scaled x ≤ scaled y := by
  refine roundMag_mono (Nat.mul_le_mul_right _ ?_)
  rwa [mag_eq, mag_eq, magBits_le_iff]

/-- No scaled magnitude is 0.5 - 2^-25: neighbouring samples scale to the numbers just below and just above it. -/
theorem scaled_ne (x : Word) : scaled x ≠ 0x3EFFFFFF := by
  have hbelow : scaled 0x378000FF = 0x3EFFFFFE := by decide +kernel
  have habove : scaled 0x37800100 = 0x3F000000 := by decide +kernel
  have hnext : absBits 0x37800100 = absBits 0x378000FF + 1 := by decide
  rcases Nat.lt_or_ge (absBits 0x378000FF) (absBits x) with hgt | hle
  · have := scaled_mono (x := 0x37800100) (y := x) (by omega)
    omega
  · have := scaled_mono hle
    omega

/-- The lane value of every word, NaN and infinities included: a sign, and bits of at most 32767.0 that are not those of
0.5 - 2^-25 (41_batch_convert.md R131, R142). -/
theorem laneClamped_cases (x : Word) :
    ∃ s n, laneClamped x = packSign s n ∧ n ≤ 0x46FFFE00 ∧ n ≠ 0x3EFFFFFF := by
  cases hfin : isFinite x with
  | true =>
    have := scaled_ne x
    exact ⟨_, _, laneClamped_finite hfin, by omega, by omega⟩
  | false =>
    rcases nonFinite_cases hfin with hnan | rfl | rfl
    · exact ⟨false, 0x46FFFE00, (laneClamped_nan hnan).trans (by decide), by decide, by decide⟩
    · exact ⟨false, 0x46FFFE00, by decide +kernel, by decide, by decide⟩
    · exact ⟨true, 0x46FFFE00, by decide +kernel, by decide, by decide⟩

theorem isFinite_packSign {s : Bool} {n : Nat} (h : n < 0x7F800000) : isFinite (packSign s n) = true := by
  rw [isFinite_iff, absBits_packSign (by omega)]
  exact h

theorem mag_packSign {s : Bool} {n : Nat} (h : n < 2 ^ 31) : mag (packSign s n) = magBits n := by
  rw [mag_eq, absBits_packSign h]

/-- Settles O21: the bound by `laneClamped_cases`; both compensations are the sign and the half-up floor of the magnitude. -/
theorem compensationsAgree : Obligations.CompensationsAgree := by
  unfold Obligations.CompensationsAgree
  refine ⟨fun x => ?clamped, fun impl q _ => ?compensations⟩
  case clamped =>
    obtain ⟨s, n, hx, hn, -⟩ := laneClamped_cases x
    have hclamp : magBits 0x46FFFE00 = 32767 * 2 ^ 149 := by decide +kernel
    rw [hx, mag_packSign (by omega), ← hclamp, magBits_le_iff]
    exact ⟨isFinite_packSign (by omega), hn⟩
  case compensations =>
    have hlt := absBits_lt q
    have hlane := laneToInt_packSign impl q.msb hlt
    have hrha := rha_packSign q.msb hlt
    rw [packSign_eta] at hlane hrha
    refine ⟨hlane.trans hrha.symm, ?_⟩
    rw [hlane, mag_eq]
    cases q.msb <;> simp

/-! ### The numbers next to a bias sum -/

/-- Every significand of 24 bits is that of a finite number on every grid from `2^-149` up to the largest. -/
theorem exists_magBits {m g : Nat} (hm : m < 2 ^ 24) (hg : g ≤ 253) : ∃ n < 0x7F800000, magBits n = m * 2 ^ g := by
  induction g generalizing m with
  | zero =>
    refine ⟨m, by omega, ?_⟩
    have h := magBits_grid (g := 149) le_rfl hm.le (by omega)
    rw [Nat.sub_self, Nat.zero_mul, Nat.zero_add] at h
    rw [Nat.eq_of_mul_eq_mul_right (Nat.two_pow_pos 149) h, Nat.pow_zero, Nat.mul_one]
  | succ g ih =>
    rcases Nat.lt_or_ge m (2 ^ 23) with hsmall | hlarge
    · obtain ⟨n, hn, heq⟩ := ih (m := m * 2) (by omega) (by omega)
      exact ⟨n, hn, by rw [heq, Nat.pow_succ', Nat.mul_assoc]⟩
    · refine ⟨(g + 1) * 2 ^ 23 + m, by omega, ?_⟩
      have h := magBits_grid (g := g + 1 + 149) (by omega) hm.le (fun _ => hlarge)
      rw [Nat.add_sub_cancel, Nat.pow_add 2 (g + 1), ← Nat.mul_assoc] at h
      exact Nat.eq_of_mul_eq_mul_right (Nat.two_pow_pos 149) h

/-- A number of at least `2^e` is a multiple of `2^(e-23)`. -/
theorem dvd_magBits {n e : Nat} (h : 2 ^ (e + 149) ≤ magBits n) : 2 ^ (e + 126) ∣ magBits n := by
  have hfrac : n % 2 ^ 23 < 2 ^ 23 := Nat.mod_lt _ (by decide)
  rw [magBits] at h ⊢
  split at h
  · have : 2 ^ 23 ≤ 2 ^ (e + 149) := Nat.pow_le_pow_right (by decide) (by omega)
    omega
  · rename_i hexp
    rw [if_neg hexp]
    refine (Nat.pow_dvd_pow 2 ?_).mul_left _
    have hlt : 2 ^ (e + 149) < 2 ^ (24 + (n / 2 ^ 23 - 1)) := by
      rw [Nat.pow_add 2 24]
      exact h.trans_lt (Nat.mul_lt_mul_of_pos_right (by omega) (Nat.two_pow_pos _))
    have := (Nat.pow_lt_pow_iff_right (by decide)).mp hlt
    omega

/-- Of two multiples of `u` the larger is at least `u` more. -/
theorem add_le_of_dvd_of_lt {u a b : Nat} (ha : u ∣ a) (hb : u ∣ b) (h : a < b) : a + u ≤ b := by
  have := Nat.le_of_dvd (by omega) (Nat.dvd_sub hb ha)
  omega

/-- The number before the integer `k + 1`, where the last place of the numbers around `k` is `2^(e-23)`. -/
theorem exists_magBits_before {k e : Nat} (he : e ≤ 22) (hk : k < 2 ^ (e + 1)) :
    ∃ y < 0x7F800000, magBits y + 2 ^ (e + 126) = (k + 1) * 2 ^ 149 := by
  have hunit : 2 ^ (23 - e) * 2 ^ (e + 126) = 2 ^ 149 := by
    rw [← Nat.pow_add, show 23 - e + (e + 126) = 149 by omega]
  have hpos : 0 < (k + 1) * 2 ^ (23 - e) := Nat.mul_pos k.succ_pos (Nat.two_pow_pos _)
  have hsig : (k + 1) * 2 ^ (23 - e) ≤ 2 ^ 24 :=
    calc (k + 1) * 2 ^ (23 - e) ≤ 2 ^ (e + 1) * 2 ^ (23 - e) := Nat.mul_le_mul_right _ hk
      _ = 2 ^ 24 := by rw [← Nat.pow_add, show e + 1 + (23 - e) = 24 by omega]
  obtain ⟨y, hy, heq⟩ := exists_magBits (m := (k + 1) * 2 ^ (23 - e) - 1) (g := e + 126) (by omega) (by omega)
  refine ⟨y, hy, ?_⟩
  rw [heq, ← Nat.succ_mul, Nat.succ_eq_add_one, Nat.sub_add_cancel hpos, Nat.mul_assoc, hunit]

/-- The integer of a lane value is at most 32767 (41_batch_convert.md R131). -/
theorem biasSum_div_le {n : Nat} (hn : n ≤ 0x46FFFE00) : (magBits n + 2 ^ 148) / 2 ^ 149 ≤ 32767 :=
  (Nat.div_le_div_right (Nat.add_le_add_right (magBits_le_iff.mpr hn) _)).trans_eq floor_clamp

/-- The bias sum of a magnitude below 1/2, the excluded one apart, is at most 1 - 2^-24 (41_batch_convert.md R142). -/
theorem biasSum_le_of_lt_half {n : Nat} (hne : n ≠ 0x3EFFFFFF) (h : magBits n < 2 ^ 148) :
    magBits n + 2 ^ 148 ≤ magBits 0x3F7FFFFF := by
  have hhalf : magBits 0x3F000000 = 2 ^ 148 := by decide +kernel
  have htop : magBits 0x3EFFFFFE + 2 ^ 148 = magBits 0x3F7FFFFF := by decide +kernel
  rw [← hhalf, magBits_lt_iff] at h
  rw [← htop]
  exact Nat.add_le_add_right (magBits_le_iff.mpr (by omega)) _

/-- The bias sum of a lane value is at most a number that is less than the next integer. Below the lane value 1/2 that number
is 1 - 2^-24. From 1/2 on it is the number before the next integer: the sum is a multiple of the last place around `k`, or the
lane value is less than `2^e ≤ k` and the sum less than `k + 1/2`. -/
theorem biasSum_le_number {n k : Nat} (hn : n ≤ 0x46FFFE00) (hne : n ≠ 0x3EFFFFFF)
    (hk : (magBits n + 2 ^ 148) / 2 ^ 149 = k) :
    ∃ y < 0x7F800000, magBits n + 2 ^ 148 ≤ magBits y ∧ magBits y < (k + 1) * 2 ^ 149 := by
  rcases Nat.eq_zero_or_pos k with rfl | hpos
  · have hone : magBits 0x3F7FFFFF < 2 ^ 149 := by decide +kernel
    exact ⟨0x3F7FFFFF, by decide, biasSum_le_of_lt_half hne (by omega), by omega⟩
  · have hbound := biasSum_div_le hn
    obtain ⟨e, hlow, hhigh⟩ : ∃ e, 2 ^ e ≤ k ∧ k < 2 ^ (e + 1) := ⟨_, Nat.log2_self_le hpos.ne', Nat.lt_log2_self⟩
    have he : e ≤ 22 := by
      have hpow : 2 ^ e < 2 ^ 15 := by omega
      have := (Nat.pow_lt_pow_iff_right (by decide)).mp hpow
      omega
    have hhalf : 2 ^ (e + 126) ∣ 2 ^ 148 := Nat.pow_dvd_pow 2 (by omega)
    obtain ⟨y, hy, hnext⟩ := exists_magBits_before he hhigh
    have hplace : 0 < 2 ^ (e + 126) := Nat.two_pow_pos _
    have hle : magBits n + 2 ^ 148 + 2 ^ (e + 126) ≤ (k + 1) * 2 ^ 149 := by
      rcases Nat.lt_or_ge (magBits n) (2 ^ (e + 149)) with hlt | hge
      · have := Nat.le_of_dvd (by decide) hhalf
        have := Nat.mul_le_mul_right (2 ^ 149) hlow
        rw [Nat.pow_add] at hlt
        omega
      · have hone : 2 ^ (e + 126) ∣ (k + 1) * 2 ^ 149 := (Nat.pow_dvd_pow 2 (by omega)).mul_left _
        exact add_le_of_dvd_of_lt ((dvd_magBits hge).add hhalf) hone (by omega)
    exact ⟨y, hy, by omega, by omega⟩

/-- A number nearest to a bias sum has the integer part of the sum: the integer below the sum and the number of
`biasSum_le_number` have that integer part, and one of them is nearer to the sum than any number that has not. -/
theorem nearest_div {n r : Nat} (hn : n ≤ 0x46FFFE00) (hne : n ≠ 0x3EFFFFFF)
    (hr : ∀ y < 0x7F800000,
      ((r : Int) - (magBits n + 2 ^ 148)).natAbs ≤ ((magBits y : Int) - (magBits n + 2 ^ 148)).natAbs) :
    (magBits n + 2 ^ 148) / 2 ^ 149 = r / 2 ^ 149 := by
  have hbound := biasSum_div_le hn
  obtain ⟨lo, hlo, hloEq⟩ := exists_magBits (m := (magBits n + 2 ^ 148) / 2 ^ 149) (g := 149) (by omega) (by decide)
  obtain ⟨hi, hhi, hsum, hnext⟩ := biasSum_le_number hn hne rfl
  have hnearLo := hr lo hlo
  have hnearHi := hr hi hhi
  omega

/-- Settles O22: the product by `scaled_ne`; the rounded sum keeps the integer part by `nearest_div`. -/
theorem roundedBiasIsHarmless : Obligations.RoundedBiasIsHarmless := by
  unfold Obligations.RoundedBiasIsHarmless
  refine ⟨fun x => ?product, fun x r hfin hr => ?rounded⟩
  case product =>
    cases hfin : isFinite x with
    | true =>
      rw [mul32_finite hfin, and_absmask _ (scaled_lt x)]
      intro heq
      refine scaled_ne x ?_
      rw [← absBits_packSign (s := false) (scaled_lt x), heq]
      decide
    | false =>
      rcases nonFinite_cases hfin with hnan | rfl | rfl
      · rw [mul32_nan (.inl hnan)]
        decide
      · decide +kernel
      · decide +kernel
  case rounded =>
    obtain ⟨s, n, hx, hn, hne⟩ := laneClamped_cases x
    have hlt : n < 2 ^ 31 := by omega
    rw [hx, mag_packSign hlt] at hr
    have hdiv := nearest_div (r := mag r) hn hne (fun y hy => by
      have := hr (packSign false y) (isFinite_packSign hy)
      rwa [mag_packSign (by omega)] at this)
    rw [hx, biasTruncate, msb_packSign hlt, mag_packSign hlt, hdiv]
    cases s <;> simp

end Sys2Proof.Machine
end

section
/-! `CVTM` whole (41_batch_convert.md R137; O24), and the equivalence of the batch path and the scalar path (R140; O27): the
command converts the elements of its job on either path, and the parameters of the paths are no part of the job. -/

namespace Sys2Proof.Machine

/-! ### `CVTM` -/

/-- Settles O24: the one channel of the job is read off `Converted`; a false precondition is a fault. -/
theorem cvtmConvertsBuffer : Obligations.CvtmConvertsBuffer := by
  unfold Obligations.CvtmConvertsBuffer
  refine ⟨decode_encode (.cvtm false), decode_encode (.cvtm true), fun sc s hwf hr =>
    ⟨fun hpre => ?completes, fun hpre => ?faults⟩⟩
  case completes =>
    have hj : jobOf (.cvtm sc) s = some (cvtmJob s) := rfl
    have hf : faultOf (.cvtm sc) s = none := (faultOf_none_iff _ s).mpr hpre
    obtain ⟨m, he, hconv⟩ := exec_memory (blane_eq_cvt _) hwf hr hj hf
    refine ⟨m, he, hconv.wf, fun i hi => ?element, fun a ha => ?frame⟩
    case element =>
      have hdone := hconv.done 0 i Nat.one_pos hi trivial
      simpa [Job.out, Job.src, Job.dst, srcAddr, dstAddr] using hdone
    case frame => exact hconv.outside (Job.destSpan_outside (by simpa using ha))
  case faults =>
    rcases exec_cases (.cvtm sc) s with ⟨f, -, he⟩ | ⟨hf, -⟩
    · exact ⟨f, he⟩
    · exact absurd ((faultOf_none_iff _ s).mp hf) hpre

/-! ### The two paths -/

section
variable (i : Instr) (s : State) (impl : Impl) (w w2 : Nat)

/-- The buffers of a command do not depend on the parameters of the paths (20_memory.md R53 to R55). -/
theorem jobOf_withParams : jobOf i (s.withParams impl w w2) = jobOf i s := by cases i <;> rfl

/-- Nor do the checks (20_memory.md R59). -/
theorem faultOf_withParams : faultOf i (s.withParams impl w w2) = faultOf i s := by cases i <;> rfl

end

/-- Two memory commands with the same buffers and the same checks have the same outcome, whatever the parameters of the paths:
each converts the same elements of the same job, which leaves one memory. -/
theorem exec_withParams {i i' : Instr} {s : State} {j : Job} (hwf : s.mem.wf) (hr : Ready s) (hj : jobOf i s = some j)
    (hj' : jobOf i' s = some j) (hf : faultOf i' s = faultOf i s) (impl : Impl) (w w2 : Nat) :
    (∀ t, exec i s = .next t → exec i' (s.withParams impl w w2) = .next (t.withParams impl w w2)) ∧
    (∀ f, exec i s = .fault f → exec i' (s.withParams impl w w2) = .fault f) := by
  have hf' : faultOf i' (s.withParams impl w w2) = faultOf i s := (faultOf_withParams i' s impl w w2).trans hf
  refine ⟨fun t he => ?completes, fun f he => ?faults⟩
  case completes =>
    obtain ⟨m, rfl, hconv⟩ := exec_memory_completed hwf hr hj he
    obtain ⟨m', he', hconv'⟩ := exec_memory (s := s.withParams impl w w2) (blane_eq_cvt _) hwf hr
      ((jobOf_withParams i' s impl w w2).trans hj') (hf'.trans (faultOf_of_exec he))
    rw [he', hconv'.unique hconv]
    rfl
  case faults =>
    rcases exec_cases i s with ⟨f', hsome, hx⟩ | ⟨-, t, hx⟩
    · rw [hx] at he
      cases he
      exact exec_fault (hf'.trans hsome)
    · rw [hx] at he
      cases he

/-- Settles O27, by `exec_withParams`: neither the buffers nor the checks of a command look at its path select bit. -/
theorem pathsAreEquivalent : Obligations.PathsAreEquivalent := by
  unfold Obligations.PathsAreEquivalent
  intro s sc sc' impl w w2 hwf hr i i' hmem
  simp only [List.mem_cons, Prod.mk.injEq, List.not_mem_nil, or_false] at hmem
  obtain ⟨rfl, rfl⟩ | ⟨rfl, rfl⟩ | ⟨rfl, rfl⟩ := hmem
  · exact exec_withParams (i := .cvtm sc) (i' := .cvtm sc') hwf hr rfl rfl rfl impl w w2
  · exact exec_withParams (i := .cvti sc) (i' := .cvti sc') hwf hr rfl rfl rfl impl w w2
  · exact exec_withParams (i := .cvti2 sc) (i' := .cvti2 sc') hwf hr rfl rfl rfl impl w w2

end Sys2Proof.Machine
end

section
/-! `CVTI2` whole (42_stereo_interleave.md R151; O26), and the destination it shares with `CVTI` of two channels and with two
`CVTM` results scattered (R154; O31): the two interleaving commands convert the elements of the same sources to the same
places. -/

namespace Sys2Proof.Machine

/-! ### `CVTI2` -/

/-- A memory command under its preconditions converts its job: `exec_memory`, its other premises discharged. -/
theorem exec_of_pre {i : Instr} {s : State} {j : Job} (hwf : s.mem.wf) (hr : Ready s) (hj : jobOf i s = some j)
    (hpre : Pre i s) : ∃ m, exec i s = .next (s.withMem m) ∧ Converted j s.mem m (fun _ _ => True) :=
  exec_memory (blane_eq_cvt _) hwf hr hj ((faultOf_none_iff i s).mpr hpre)

/-- A false precondition is a fault (20_memory.md R60). -/
theorem exec_fault_of_not_pre {i : Instr} {s : State} (hpre : ¬ Pre i s) : ∃ f, exec i s = .fault f := by
  rcases exec_cases i s with ⟨f, -, he⟩ | ⟨hf, -⟩
  · exact ⟨f, he⟩
  · exact absurd ((faultOf_none_iff i s).mp hf) hpre

/-- The destination elements of `CVTI2`, left and right, by their addresses (42_stereo_interleave.md R151). -/
theorem Converted.stereo_elements {s : State} {m : Memory} (h : Converted (cvti2Job s) s.mem m (fun _ _ => True)) {f : Nat}
    (hf : f < s.cur.count.toNat) :
    m.readHalf s.cfg.byteOrder (s.cur.dest.toNat + 4 * f) =
        int16 (cvt (s.mem.readWord s.cfg.byteOrder (s.cur.src0.toNat + 4 * f))) ∧
      m.readHalf s.cfg.byteOrder (s.cur.dest.toNat + 4 * f + 2) =
        int16 (cvt (s.mem.readWord s.cfg.byteOrder (s.cur.src1.toNat + 4 * f))) := by
  have hleft : (cvti2Job s).dst 0 f = s.cur.dest.toNat + 4 * f := by
    simp only [Job.dst, dstAddr, cvti2Job_dest, cvti2Job_chans]
    omega
  have hright : (cvti2Job s).dst 1 f = s.cur.dest.toNat + 4 * f + 2 := by
    simp only [Job.dst, dstAddr, cvti2Job_dest, cvti2Job_chans]
    omega
  rw [← hright, ← hleft]
  exact ⟨h.done 0 f Nat.two_pos hf trivial, h.done 1 f Nat.one_lt_two hf trivial⟩

/-- Settles O26: the two channels of the job are read off `Converted`; a false precondition is a fault. -/
theorem cvti2InterleavesStereo : Obligations.Cvti2InterleavesStereo := by
  unfold Obligations.Cvti2InterleavesStereo
  refine ⟨decode_encode (.cvti2 false), decode_encode (.cvti2 true), fun sc s hwf hr =>
    ⟨fun hpre => ?completes, fun hpre => exec_fault_of_not_pre (i := .cvti2 sc) hpre⟩⟩
  case completes =>
    obtain ⟨m, he, hconv⟩ := exec_of_pre (i := .cvti2 sc) hwf hr rfl hpre
    refine ⟨m, he, hconv.wf, fun f hf => hconv.stereo_elements hf, fun a ha => hconv.outside (Job.destSpan_outside ?_)⟩
    simp only [cvti2Job_dest, cvti2Job_chans, cvti2Job_count]
    omega

/-! ### `CVTI` with the sources of `CVTI2` -/

/-- What a job converts depends on its destination, sources and frames, not on a table; without frames it converts nothing,
whatever its sources. -/
theorem Converted.of_buffers {j j' : Job} {m0 m : Memory} {S : Nat → Nat → Prop} (h : Converted j m0 m S)
    (horder : j'.order = j.order) (hdest : j'.dest = j.dest) (hcount : j'.count = j.count)
    (hbases : j.count ≠ 0 → j'.bases = j.bases) : Converted j' m0 m S := by
  obtain ⟨hwf, hdone, hrest⟩ := h
  rcases eq_or_ne j.count 0 with hzero | hpos
  · have hnone : ∀ f, ¬ f < j.count := fun f => by omega
    exact ⟨hwf, fun _ f _ hf => absurd (hcount ▸ hf) (hnone f),
      fun a _ => hrest a (fun _ f _ hf => absurd hf (hnone f))⟩
  · obtain ⟨order, dest, bases, count, table⟩ := j
    obtain ⟨order', dest', bases', count', table'⟩ := j'
    obtain rfl : order' = order := horder
    obtain rfl : dest' = dest := hdest
    obtain rfl : count' = count := hcount
    obtain rfl : bases' = bases := hbases hpos
    exact ⟨hwf, hdone, hrest⟩

/-- `s` with the context registers of a `CVTI` of two channels whose table lies at `table` (42_stereo_interleave.md R154). -/
abbrev State.genericStereo (s : State) (table : Word) : State := s.setCur { s.cur with src0 := table, channels := 2 }

/-- A table of the two sources of `CVTI2` makes `CVTI` convert what `CVTI2` converts (42_stereo_interleave.md R154). -/
theorem Converted.of_table {s : State} {table : Word} {m : Memory} (hlt : s.issuer < s.ctxs.length)
    (hleft : s.mem.readWord s.cfg.byteOrder table.toNat = s.cur.src0)
    (hright : s.mem.readWord s.cfg.byteOrder (table.toNat + 4) = s.cur.src1)
    (h : Converted (cvtiJob (s.genericStereo table)) s.mem m (fun _ _ => True)) :
    Converted (cvti2Job s) s.mem m (fun _ _ => True) := by
  have hcur : (s.genericStereo table).cur = { s.cur with src0 := table, channels := 2 } := s.cur_setCur _ hlt
  have hdest := congrArg (fun k => k.dest.toNat) hcur
  have hcount := congrArg Context.count hcur
  refine h.of_buffers rfl hdest.symm (congrArg BitVec.toNat hcount).symm (fun hpos => ?_)
  have hbases := cvtiJob_bases (s := s.genericStereo table) (fun hzero => hpos (congrArg BitVec.toNat hzero))
  rw [hbases, hcur]
  simp [tableBases, tableEntry, List.range_succ, hleft, hright]

/-! ### The scattered results of `CVTM` -/

/-- `CVTM` in a state whose issuing context is replaced by `k`: its elements, in the registers of `k`. -/
theorem cvtm_setCur {s : State} {k : Context} (sc : Bool) (hwf : s.mem.wf) (hlt : s.issuer < s.ctxs.length)
    (hidle : k.work = none) (hpre : CvtmPre (s.setCur k)) :
    ∃ m, exec (.cvtm sc) (s.setCur k) = .next ((s.setCur k).withMem m) ∧
      ∀ f < k.count.toNat, m.readHalf s.cfg.byteOrder (k.dest.toNat + 2 * f) =
        int16 (cvt (s.mem.readWord s.cfg.byteOrder (k.src0.toNat + 4 * f))) := by
  have hcur : (s.setCur k).cur = k := s.cur_setCur k hlt
  have hready : Ready (s.setCur k) := ⟨(s.setCur_length k).symm ▸ hlt, hcur.symm ▸ hidle⟩
  obtain ⟨-, -, hcvtm⟩ := cvtmConvertsBuffer
  obtain ⟨m, he, -, helements, -⟩ := (hcvtm sc (s.setCur k) hwf hready).1 hpre
  rw [hcur] at helements
  exact ⟨m, he, helements⟩

/-- Settles O31: `CVTI` leaves the memory of `CVTI2` by `Converted.of_table`, and the elements of `CVTM` are those of one
channel. -/
theorem stereoEqualsGeneric : Obligations.StereoEqualsGeneric := by
  unfold Obligations.StereoEqualsGeneric
  intro s table dl dr sc sc' scl scr hwf hr hpre hpreTable hleft hright
  have hcur : (s.genericStereo table).cur = { s.cur with src0 := table, channels := 2 } := s.cur_setCur _ hr.1
  have hready : Ready (s.genericStereo table) := ⟨(s.setCur_length _).symm ▸ hr.1, hcur.symm ▸ hr.2⟩
  obtain ⟨m, he, hconv⟩ := exec_of_pre (i := .cvti2 sc) hwf hr rfl hpre
  obtain ⟨m', he', hconv'⟩ := exec_of_pre (i := .cvti sc') (s := s.genericStereo table) hwf hready rfl hpreTable
  obtain rfl : m = m' := hconv.unique (hconv'.of_table hr.1 hleft hright)
  refine ⟨m, he, he', fun hmono => ?leftMono, fun hmono => ?rightMono⟩
  case leftMono =>
    obtain ⟨ml, hexec, helements⟩ := cvtm_setCur (k := { s.cur with dest := dl }) scl hwf hr.1 hr.2 hmono
    refine ⟨ml, hexec, fun f hf => ?_⟩
    rw [helements f hf, ← (hconv.stereo_elements hf).1, ← Nat.mul_assoc]
  case rightMono =>
    obtain ⟨mr, hexec, helements⟩ := cvtm_setCur (k := { s.cur with dest := dr, src0 := s.cur.src1 }) scr hwf hr.1 hr.2 hmono
    refine ⟨mr, hexec, fun f hf => ?_⟩
    rw [helements f hf, ← (hconv.stereo_elements hf).2, Nat.mul_add, ← Nat.mul_assoc, ← Nat.add_assoc]

end Sys2Proof.Machine
end

section
/-! `CVTI` whole (43_multichannel_interleave.md R166; O25), and `CVTI` of one channel against `CVTM` (R170; O32): the elements of
the job, in the registers and through the pointer table that name its buffers. -/

namespace Sys2Proof.Machine

/-! ### The buffers of `CVTI` in its registers -/

/-- Where there are frames every channel has a source (43_multichannel_interleave.md R167). -/
theorem cvtiJob_chans {s : State} (h : s.cur.count ≠ 0) : (cvtiJob s).chans = s.cur.channels.toNat := by
  rw [Job.chans, cvtiJob_bases h, tableBases_length]

/-- With `COUNT = 0` there is no source, but no destination element either (20_memory.md R57, R58). -/
theorem cvtiJob_elements (s : State) :
    (cvtiJob s).chans * (cvtiJob s).count = s.cur.channels.toNat * s.cur.count.toNat := by
  by_cases h : s.cur.count = 0
  · rw [cvtiJob_count, h]
    rfl
  · rw [cvtiJob_chans h, cvtiJob_count]

/-- A source address goes through the entry of its channel (20_memory.md R54, R55). -/
theorem cvtiJob_src {s : State} (h : s.cur.count ≠ 0) {c : Nat} (hc : c < s.cur.channels.toNat) (f : Nat) :
    (cvtiJob s).src c f = tableEntry s.mem s.cfg.byteOrder s.cur.src0.toNat c + 4 * f := by
  simp [Job.src, srcAddr, cvtiJob_bases h, tableBases, List.getD_eq_getElem?_getD, hc]

/-! ### `CVTI` -/

/-- The destination elements of `CVTI`, by their addresses (43_multichannel_interleave.md R166). -/
theorem Converted.table_element {s : State} {m : Memory} (h : Converted (cvtiJob s) s.mem m (fun _ _ => True)) {c f : Nat}
    (hc : c < s.cur.channels.toNat) (hf : f < s.cur.count.toNat) :
    m.readHalf s.cfg.byteOrder (s.cur.dest.toNat + 2 * (f * s.cur.channels.toNat + c)) =
      int16 (cvt (s.mem.readWord s.cfg.byteOrder
        ((s.mem.readWord s.cfg.byteOrder (s.cur.src0.toNat + 4 * c)).toNat + 4 * f))) := by
  have hn : s.cur.count ≠ 0 := fun hzero => by simp [hzero] at hf
  have hdone := h.done c f (by rwa [cvtiJob_chans hn]) hf trivial
  rwa [Job.out, cvtiJob_src hn hc, Job.dst, dstAddr, cvtiJob_chans hn] at hdone

/-- Settles O25: each channel of the job is read off `Converted`; a false precondition is a fault. -/
theorem cvtiInterleavesChannels : Obligations.CvtiInterleavesChannels := by
  unfold Obligations.CvtiInterleavesChannels
  refine ⟨decode_encode (.cvti false), decode_encode (.cvti true), fun sc s hwf hr =>
    ⟨fun hpre => ?completes, fun hpre => exec_fault_of_not_pre (i := .cvti sc) hpre⟩⟩
  case completes =>
    obtain ⟨m, he, hconv⟩ := exec_of_pre (i := .cvti sc) hwf hr rfl hpre
    refine ⟨m, he, hconv.wf, fun c hc f hf => hconv.table_element hc hf,
      fun a ha => hconv.outside (Job.destSpan_outside ?_)⟩
    rwa [cvtiJob_elements]

/-! ### `CVTI` with the source of `CVTM` -/

/-- A job with the buffers that the registers and the table of `CVTI` name converts what `CVTI` converts. -/
theorem Converted.of_cvti {s : State} {j : Job} {m0 m : Memory} {S : Nat → Nat → Prop} (h : Converted (cvtiJob s) m0 m S)
    (horder : j.order = s.cfg.byteOrder) (hdest : j.dest = s.cur.dest.toNat) (hcount : j.count = s.cur.count.toNat)
    (hbases : j.bases = tableBases s.mem s.cfg.byteOrder s.cur.src0.toNat s.cur.channels.toNat) : Converted j m0 m S :=
  h.of_buffers horder hdest hcount (fun hpos =>
    hbases.trans (cvtiJob_bases (fun hzero => hpos (congrArg BitVec.toNat hzero))).symm)

/-- `s` with the context registers of a `CVTI` of one channel whose table lies at `table` (43_multichannel_interleave.md R170). -/
abbrev State.oneChannel (s : State) (table : Word) : State := s.setCur { s.cur with src0 := table, channels := 1 }

/-- Settles O32: a table of the one source of `CVTM` makes `CVTI` convert what `CVTM` converts. -/
theorem oneChannelEqualsMono : Obligations.OneChannelEqualsMono := by
  unfold Obligations.OneChannelEqualsMono
  intro s table sc sc' hwf hr hpre hpreTable hentry
  have hcur : (s.oneChannel table).cur = { s.cur with src0 := table, channels := 1 } := s.cur_setCur _ hr.1
  have hready : Ready (s.oneChannel table) := ⟨(s.setCur_length _).symm ▸ hr.1, hcur.symm ▸ hr.2⟩
  obtain ⟨m, he, hconv⟩ := exec_of_pre (i := .cvtm sc) hwf hr rfl hpre
  obtain ⟨m', he', hconv'⟩ := exec_of_pre (i := .cvti sc') (s := s.oneChannel table) hwf hready rfl hpreTable
  have hmono : Converted (cvtmJob s) s.mem m' (fun _ _ => True) := by
    refine hconv'.of_cvti rfl ?dest ?count ?bases
    case dest => rw [hcur, cvtmJob_dest]
    case count => rw [hcur, cvtmJob_count]
    case bases =>
      rw [hcur]
      simp [tableBases, tableEntry, hentry]
  obtain rfl : m = m' := hconv.unique hmono
  exact ⟨m, he, he'⟩

end Sys2Proof.Machine
end

section
/-! `SET` and `GET` by offset (44_host_access.md R180, R181; O6, O7), and the step of a command word (R182 to R184, R186;
O38). -/

namespace Sys2Proof.Machine

/-! ### The registers by offset -/

/-- What a block reads as at each offset (10_state.md R22). -/
theorem Context.readReg_ofOffset (k : Context) (off : Nat) :
    k.readReg (Reg.ofOffset off) =
      if off = 0x00 then k.dest
      else if off = 0x04 then k.src0
      else if off = 0x08 then k.src1
      else if off = 0x0C then k.count
      else if off = 0x10 then k.channels
      else if off = 0x14 then k.sample
      else if off = 0x18 then k.result
      else if off = 0x20 then (if k.ill then 1 else 0)
      else if off = 0x24 then k.rmode.zeroExtend 32
      else 0 := by
  unfold Reg.ofOffset
  split
  -- the reserved offsets are none of those named
  case h_11 => simp_all [Context.readReg]
  all_goals rfl

/-- A one in bit 0 clears `ILL` and a zero changes nothing (10_state.md R31). -/
theorem Context.writeStatus_eq (k : Context) (v : Word) :
    k.writeStatus v = if v.getLsbD 0 = true then { k with ill := false } else k := by
  rw [Context.writeStatus]
  cases v.getLsbD 0 <;> simp [Context.withIll]

/-- What a write at each offset leaves of a block (10_state.md R22). -/
theorem Context.writeReg_ofOffset (k : Context) (off : Nat) (v : Word) :
    k.writeReg (Reg.ofOffset off) v =
      if off = 0x00 then { k with dest := v }
      else if off = 0x04 then { k with src0 := v }
      else if off = 0x08 then { k with src1 := v }
      else if off = 0x0C then { k with count := v }
      else if off = 0x10 then { k with channels := v }
      else if off = 0x14 then { k with sample := v }
      else if off = 0x20 ∧ v.getLsbD 0 = true then { k with ill := false }
      else if off = 0x24 then { k with rmode := v.extractLsb' 0 2 }
      else k := by
  unfold Reg.ofOffset
  split
  -- `STATUS` has its own rule; the last case is the reserved offsets, none of those named
  case h_9 => simpa [Context.writeReg] using k.writeStatus_eq v
  case h_11 => simp_all
  all_goals simp [Context.writeReg, Context.writeRmode, Context.withRmode]

/-! ### An aligned 32-bit access as a step -/

section
variable {s : State} {space : Space} {c off : Nat} {ov : List Access} {rest : List Event}
  (hg : s.cfg.wellFormed = true) (hc : c < s.cfg.nctx) (ho : off < 64) (halign : off % 4 = 0)
  (hm : space = .data → s.cfg.mapped c = true)
include hg hc ho halign hm

/-- The step of an aligned 32-bit write is the write of the register, in either space (44_host_access.md R180). -/
theorem step_writeWord {v : Word}
    (hp : s.pending = ⟨.write space (s.cfg.regBase.getD c 0 + off) (wordBytes v), ov⟩ :: rest) :
    step s = writeReg c (Reg.ofOffset off) v { s with pending := rest, overlap := ov, report := .ok } :=
  (step_write hp).trans
    (hostWrite_word (s := s.takeEvent _ rest) ((route_eq_some_iff hg).mpr ⟨hc, ho, rfl, hm⟩) halign v)

/-- The step of an aligned 32-bit read puts the register on the bus, in either space (44_host_access.md R181). -/
theorem step_readWord (hp : s.pending = ⟨.read space (s.cfg.regBase.getD c 0 + off) 4, ov⟩ :: rest) :
    step s = .next (State.withBusData { s with pending := rest, overlap := ov, report := .ok }
      (wordBytes ((s.ctx c).readReg (Reg.ofOffset off)))) :=
  (step_read hp).trans
    (hostRead_word (s := s.takeEvent _ rest) ((route_eq_some_iff hg).mpr ⟨hc, ho, rfl, hm⟩) halign)

end

/-- Settles O6: at `CMD` the write is the issue by definition, elsewhere the block is as `Context.writeReg_ofOffset` says. -/
theorem setWritesRegister : Obligations.SetWritesRegister := by
  unfold Obligations.SetWritesRegister
  intro s c off v ov rest hg hlen hc ho halign hp
  have hstep := step_writeWord (space := .regs) hg hc ho halign nofun hp
  refine ⟨fun hcmd => ?cmd, fun hne => ?register⟩
  case cmd =>
    subst hcmd
    exact hstep
  case register =>
    have hreg : Reg.ofOffset off ≠ .cmd := fun hcmd => hne (ofOffset_cmd ho hcmd)
    refine ⟨_, hstep.trans (writeReg_register hreg v _), rfl, rfl, rfl, rfl,
      fun d hd => State.ctx_setCtx_other _ _ _ hd, ?_⟩
    rw [State.ctx_setCtx_same _ _ _ (hlen.symm ▸ hc)]
    exact (s.ctx c).writeReg_ofOffset off v

/-- Settles O7: the one field a read changes is the bus data, whose value `Context.readReg_ofOffset` gives. -/
theorem getReadsRegister : Obligations.GetReadsRegister := by
  unfold Obligations.GetReadsRegister
  intro s c off ov rest hg _ hc ho halign hp
  exact ⟨_, step_readWord (space := .regs) hg hc ho halign nofun hp, rfl, rfl, rfl, rfl, rfl,
    congrArg wordBytes ((s.ctx c).readReg_ofOffset off)⟩

/-! ### The step of a command word -/

/-- A legal word runs its command (44_host_access.md R182). -/
theorem issue_legal {w : Word} {i : Instr} (h : decode w = .ok i) (s : State) : issue w s = runIssued i s := by
  rw [issue, h]

/-- Another agent's access to the issuing context's registers is `CV_RACE` (44_host_access.md R184). -/
theorem registerFault_of_touches {s : State} {a : Access} (ha : a ∈ s.overlap)
    (h : a.touchesRegs s.cfg s.issuer = true) : registerFault s = some .cvRace :=
  if_pos (List.any_eq_true.mpr ⟨a, ha, h⟩)

/-- A command that would complete answers the fault of its registers (44_host_access.md R184). -/
theorem runIssued_race {i : Instr} {s t : State} {f : Fault} (h : registerFault s = some f) (he : exec i s = .next t) :
    runIssued i s = .fault f := by
  rw [runIssued, he, h]

/-- No command completes whose registers another agent touches (44_host_access.md R184). -/
theorem runIssued_fault {s : State} {f : Fault} (h : registerFault s = some f) (i : Instr) :
    ∃ f', runIssued i s = .fault f' := by
  rcases exec_cases i s with ⟨f', -, he⟩ | ⟨-, t, he⟩
  · exact ⟨f', by rw [runIssued, he]⟩
  · exact ⟨f, runIssued_race h he⟩

/-- Settles O38: the write reaches `CMD` in either space, and what is issued is `exec` or the fault of `registerFault`. -/
theorem stepRunsDecodedCommand : Obligations.StepRunsDecodedCommand := by
  unfold Obligations.StepRunsDecodedCommand
  refine ⟨fun s space c w i ov rest hg hc hm hdec hp => ?command, fun s hp => ?idle⟩
  case command =>
    have hstep : step s = runIssued i { s with pending := rest, overlap := ov, report := .ok, issuer := c } :=
      (step_writeWord hg hc (by decide) (by decide) hm hp).trans (issue_legal hdec _)
    rw [hstep]
    refine ⟨fun halone => runIssued_eq ((registerFault_none_iff _).mpr halone), fun a ha htouch =>
      ⟨runIssued_fault (registerFault_of_touches ha htouch) i, ?cvts⟩⟩
    case cvts =>
      rintro rfl
      exact runIssued_race (registerFault_of_touches ha htouch) (exec_cvts _)
  case idle => rw [step, hp]

end Sys2Proof.Machine
end

section
/-! Which fault a memory command answers where several preconditions are false (60_exceptions.md R194; O28), which command
raises which outcome (R191; O29), and what a step leaves of `STATUS.ILL` (R192; O42). -/

namespace Sys2Proof.Machine

/-! ### The checks before the buffers -/

/-- A negative `COUNT` comes before everything else, for every memory command. -/
theorem exec_negative_count {i : Instr} {s : State} {j : Job} (hj : jobOf i s = some j) (h : s.cur.count.toInt < 0) :
    exec i s = .fault .cvCount := by
  have hcount : countFault s.cur = some .cvCount := if_pos h
  refine exec_fault ?_
  cases i with
  | cvts => cases hj
  | cvtm sc => rw [faultOf, cvtmFault, hcount]
  | cvti sc => rw [faultOf, cvtiFault, hcount]
  | cvti2 sc => rw [faultOf, cvti2Fault, hcount]

/-- `CVTI` of no channels, once its `COUNT` passes. -/
theorem exec_cvti_no_channels {s : State} (sc : Bool) (hn : 0 ≤ s.cur.count.toInt) (h : s.cur.channels.toInt ≤ 0) :
    exec (.cvti sc) s = .fault .cvChannels := by
  have hchannels : channelsFault s.cur = some .cvChannels := if_pos h
  refine exec_fault ?_
  rw [faultOf, cvtiFault, (countFault_none_iff _).mpr hn, hchannels]

/-- Past the check of `COUNT` the alignments and the buffers are left. -/
theorem faultOf_cvtm_counted {s : State} (sc : Bool) (hn : 0 ≤ s.cur.count.toInt) :
    faultOf (.cvtm sc) s = jobFault s (cvtmAligns s) (cvtmJob s) := by
  rw [faultOf, cvtmFault, (countFault_none_iff _).mpr hn]

theorem faultOf_cvti2_counted {s : State} (sc : Bool) (hn : 0 ≤ s.cur.count.toInt) :
    faultOf (.cvti2 sc) s = jobFault s (cvti2Aligns s) (cvti2Job s) := by
  rw [faultOf, cvti2Fault, (countFault_none_iff _).mpr hn]

/-- `CVTI` checks `CHANNELS` as well before them. -/
theorem faultOf_cvti_counted {s : State} (sc : Bool) (hn : 0 ≤ s.cur.count.toInt) (hc : 0 < s.cur.channels.toInt) :
    faultOf (.cvti sc) s = jobFault s (cvtiAligns s) (cvtiJob s) := by
  rw [faultOf, cvtiFault, (countFault_none_iff _).mpr hn, (channelsFault_none_iff _).mpr hc]

/-- An alignment that is not met comes before the buffers. -/
theorem jobFault_misaligned {s : State} {reqs : List AlignReq} (h : ∃ r ∈ reqs, r.addr % r.multiple ≠ 0) (j : Job) :
    ∃ a, jobFault s reqs j = some (.cvAlign a) := by
  obtain ⟨a, ha⟩ := alignFault_some h
  exact ⟨a, by rw [jobFault, ha]⟩

theorem exec_misaligned {i : Instr} {s : State} {reqs : List AlignReq} {j : Job} (hf : faultOf i s = jobFault s reqs j)
    (h : ∃ r ∈ reqs, r.addr % r.multiple ≠ 0) : ∃ a, exec i s = .fault (.cvAlign a) := by
  obtain ⟨a, ha⟩ := jobFault_misaligned h j
  exact ⟨a, exec_fault (hf.trans ha)⟩

/-- An entry that is read and can be is one of the alignments of `CVTI` (log entry 16). -/
theorem entry_mem_cvtiAligns {s : State} {c : Nat} (hn : s.cur.count ≠ 0) (hc : c < s.cur.channels.toNat)
    (h : entryAdmitted s.cfg s.cur.src0.toNat c = true) :
    ⟨tableEntry s.mem s.cfg.byteOrder s.cur.src0.toNat c, 4⟩ ∈ cvtiAligns s :=
  List.mem_append_right _ (List.mem_map.mpr ⟨c, List.mem_filter.mpr ⟨by rwa [cvtiJob_chans hn, List.mem_range], h⟩, rfl⟩)

/-! ### The buffers in their order -/

/-- Once only the buffers are left to check, size comes before overlap and overlap before interference. -/
theorem exec_buffer_faults {i : Instr} {s : State} {j : Job} (h : faultOf i s = jobFault s [] j) :
    (¬ j.sized s.cfg → ∃ a, exec i s = .fault (.cvSize a)) ∧
    (j.sized s.cfg → ¬ j.separate s.cfg → exec i s = .fault .cvOverlap) ∧
    (j.sized s.cfg → j.separate s.cfg → ¬ j.stable s → exec i s = .fault .cvRace) := by
  refine ⟨fun hsize => ?_, fun hs hsep => ?_, fun hs hsep hstable => ?_⟩
  · obtain ⟨a, ha⟩ := jobFault_size hsize
    exact ⟨a, exec_fault (h.trans ha)⟩
  · exact exec_fault (h.trans (jobFault_overlap hs hsep))
  · exact exec_fault (h.trans (jobFault_race hs hsep hstable))

/-- Settles O28: `COUNT`, `CHANNELS` and the alignments by the rules above, the buffers by `exec_buffer_faults`. -/
theorem faultsInOrder : Obligations.FaultsInOrder := by
  unfold Obligations.FaultsInOrder
  intro sc s
  refine ⟨fun hneg => ⟨exec_negative_count rfl hneg, exec_negative_count rfl hneg, exec_negative_count rfl hneg⟩,
    fun hn => ⟨fun hmis => ?mono, fun hd h0 => exec_buffer_faults (faultOf_cvtm sc hn hd h0), fun hmis => ?stereo,
      fun hd h0 h1 hds h0s h1s => exec_buffer_faults (faultOf_cvti2 sc hn hd h0 h1 hds h0s h1s),
      exec_cvti_no_channels sc hn, fun hc => ⟨fun hmis => ?table,
        fun hd h0 he => exec_buffer_faults (faultOf_cvti sc hn hc hd h0 he)⟩⟩⟩
  case mono => exact exec_misaligned (faultOf_cvtm_counted sc hn) (by simpa [cvtmAligns] using hmis)
  case stereo => exact exec_misaligned (faultOf_cvti2_counted sc hn) (by simpa [cvti2Aligns] using hmis)
  case table =>
    refine exec_misaligned (faultOf_cvti_counted sc hn hc) ?_
    rcases hmis with hd | h0 | ⟨hcount, c, hlt, hadm, he⟩
    · exact ⟨⟨s.cur.dest.toNat, 2⟩, by simp [cvtiAligns], hd⟩
    · exact ⟨⟨s.cur.src0.toNat, 4⟩, by simp [cvtiAligns], h0⟩
    · exact ⟨_, entry_mem_cvtiAligns hcount hlt hadm, he⟩

/-! ### Which command raises which outcome -/

/-- A command faults exactly with its first false precondition. -/
theorem exec_fault_iff {i : Instr} {s : State} {f : Fault} : exec i s = .fault f ↔ faultOf i s = some f := by
  refine ⟨fun h => ?_, exec_fault⟩
  rcases exec_cases i s with ⟨f', hf, he⟩ | ⟨-, t, he⟩ <;> rw [he] at h
  · cases h
    exact hf
  · cases h

theorem Fault.code_bounds (f : Fault) : 2 ≤ f.code ∧ f.code ≤ 7 := by
  cases f <;> simp [Fault.code]

/-- The checks of alignments and buffers answer neither of the registers' own faults, `CV_COUNT` and `CV_CHANNELS`. -/
theorem jobFault_code {s : State} {reqs : List AlignReq} {j : Job} {f : Fault} (h : jobFault s reqs j = some f) :
    4 ≤ f.code := by
  by_cases halign : ∃ r ∈ reqs, r.addr % r.multiple ≠ 0
  case pos =>
    obtain ⟨a, ha⟩ := jobFault_misaligned halign j
    cases h.symm.trans ha
    simp [Fault.code]
  rw [jobFault_aligned (by simpa using halign)] at h
  by_cases hs : j.sized s.cfg
  case neg =>
    obtain ⟨a, ha⟩ := jobFault_size hs
    cases h.symm.trans ha
    simp [Fault.code]
  by_cases hsep : j.separate s.cfg
  case neg =>
    cases h.symm.trans (jobFault_overlap hs hsep)
    simp [Fault.code]
  by_cases hstable : j.stable s
  case neg =>
    cases h.symm.trans (jobFault_race hs hsep hstable)
    simp [Fault.code]
  cases h.symm.trans (jobFault_contract ⟨hs, hsep, hstable⟩)

/-- Of the commands only `CVTI` looks at `CHANNELS`. -/
theorem exec_cvChannels {i : Instr} {s : State} (h : exec i s = .fault .cvChannels) : ∃ sc, i = .cvti sc := by
  have hcode : ∀ {reqs j}, faultOf i s ≠ jobFault s reqs j := fun hf =>
    absurd (jobFault_code (hf.symm.trans (exec_fault_iff.mp h))) (by decide)
  have hn : ∀ {j}, jobOf i s = some j → 0 ≤ s.cur.count.toInt := fun hj =>
    not_lt.mp (fun hneg => by cases h.symm.trans (exec_negative_count hj hneg))
  cases i with
  | cvts => cases h
  | cvtm sc => exact absurd (faultOf_cvtm_counted sc (hn rfl)) hcode
  | cvti sc => exact ⟨sc, rfl⟩
  | cvti2 sc => exact absurd (faultOf_cvti2_counted sc (hn rfl)) hcode

/-- Settles O29: a command's outcome is its first false precondition or a next state. -/
theorem outcomesOfCommands : Obligations.OutcomesOfCommands := by
  unfold Obligations.OutcomesOfCommands
  refine ⟨fun i s r h => ?refused, fun s f h => ?cvts, fun i s => exec_cvChannels, fun i s f _ => f.code_bounds⟩
  case refused => rcases exec_cases i s with ⟨f, -, he⟩ | ⟨-, t, he⟩ <;> cases h.symm.trans he
  case cvts => cases h.symm.trans (exec_cvts s)

/-! ### The illegal-command flag -/

/-- What the new context has in common with the old one, no context loses. -/
theorem State.apply_ctx_setCtx {α : Type} (f : Context → α) (s : State) {c : Nat} {k : Context} (hk : f k = f (s.ctx c))
    (d : Nat) : f ((s.setCtx c k).ctx d) = f (s.ctx d) := by
  by_cases hd : d = c
  · subst hd
    by_cases hlt : d < s.ctxs.length
    · rw [s.ctx_setCtx_same d k hlt, hk]
    · rw [State.setCtx, List.set_eq_of_length_le (Nat.le_of_not_lt hlt)]
  · rw [s.ctx_setCtx_other c k hd]

/-- No command that completes touches `STATUS.ILL` of any context (60_exceptions.md R192). -/
theorem exec_ill {i : Instr} {s t : State} (hwf : s.mem.wf) (hr : Ready s) (h : exec i s = .next t) (c : Nat) :
    (t.ctx c).ill = (s.ctx c).ill := by
  obtain ⟨m, r, rfl, -⟩ := exec_completed hwf hr h
  exact State.ill_setCur_withResult hr.1 r c

/-- An abandoned command leaves every context as after reset (70_reset_and_hazards.md R211). -/
theorem abandon_ctx {w : Word} {landed : List Nat} {s t : State} (h : abandon w landed s = .next t) (c : Nat) :
    t.ctx c = Context.reset s.cfg.rmodeReset := by
  rcases abandon_cases h with rfl | ⟨i, j, -, -, -, rfl⟩ <;> exact State.resetRegs_ctx _ c

/-- The offset of `STATUS` is the only one that names it. -/
theorem ofOffset_status {off : Nat} (h : off < 64) (hr : Reg.ofOffset off = .status) : off = 0x20 := by
  have key : ∀ o < 64, Reg.ofOffset o = .status → o = 0x20 := by decide
  exact key off h hr

/-- Settles O42, by the cases of a step: of those that change the flag a reserved word sets it, and a write of `STATUS` and the
two resets clear it. -/
theorem illChangesOnly : Obligations.IllChangesOnly := by
  unfold Obligations.IllChangesOnly
  intro s t c hinv hstep
  by_cases hne : (t.ctx c).ill = (s.ctx c).ill
  case pos => exact ⟨fun h0 h1 => by simp [hne, h0] at h1, fun h1 h0 => by simp [hne, h1] at h0⟩
  cases step_cases hstep with
  | idle _ ht | store _ _ _ _ _ _ _ ht | read _ _ _ _ _ _ _ _ ht => subst ht; exact absurd rfl hne
  | command e rest space addr bytes d w hp he hr hw ht =>
    have htaken : Inv ((s.takeEvent e rest).withIssuer d) := hinv
    have hlt : d < s.ctxs.length := hinv.2.2.1.symm ▸ (route_some hr).1
    rcases issue_cases ht with ⟨r, hdec, rfl⟩ | ⟨i, -, hexec⟩
    · obtain rfl : c = d := by
        by_contra hd
        exact hne (congrArg Context.ill (illegalCommand_ctx_other w ((s.takeEvent e rest).withIssuer d) hd))
      have hset : ((illegalCommand w ((s.takeEvent e rest).withIssuer c)).ctx c).ill = true :=
        congrArg Context.ill (illegalCommand_cur w ((s.takeEvent e rest).withIssuer c) hlt)
      obtain ⟨action, ov⟩ := e
      subst he
      exact ⟨fun _ _ => ⟨space, addr, bytes, w, r, ov, rest, hp, hr, hw, hdec, rfl⟩, fun _ h0 => by simp [hset] at h0⟩
    · exact absurd (exec_ill htaken.1 (htaken.ready hlt) hexec c) hne
  | register e rest space addr bytes d off w hp he hr hw _ ht =>
    subst ht
    by_cases hreg : Reg.ofOffset off = .status
    · obtain rfl := ofOffset_status (route_some hr).2.1 hreg
      obtain rfl : c = d := by
        by_contra hd
        exact hne (congrArg Context.ill ((s.takeEvent e rest).ctx_setCtx_other d _ hd))
      rw [State.ctx_setCtx_same _ _ _ (hinv.2.2.1.symm ▸ (route_some hr).1), Context.writeReg_ill, if_pos hreg] at hne ⊢
      refine ⟨fun h0 h1 => by simp [h0] at h1, fun h1 h0 => ⟨e, rest, hp, .inr (.inr ⟨space, addr, bytes, w, he, hr, hw, ?_⟩)⟩⟩
      simpa [h1] using h0
    · have hkeep : ((s.ctx d).writeReg (Reg.ofOffset off) w).ill = (s.ctx d).ill := by
        rw [Context.writeReg_ill, if_neg hreg]
      exact absurd ((s.takeEvent e rest).apply_ctx_setCtx Context.ill hkeep c) hne
  | reset e rest hp he ht =>
    subst ht
    refine ⟨fun _ h1 => ?_, fun _ _ => ⟨e, rest, hp, .inl he⟩⟩
    rw [State.resetRegs_ctx] at h1
    cases h1
  | abandoned e rest d w landed hp he _ ht =>
    refine ⟨fun _ h1 => ?_, fun _ _ => ⟨e, rest, hp, .inr (.inl ⟨d, w, landed, he⟩)⟩⟩
    rw [abandon_ctx ht] at h1
    cases h1

end Sys2Proof.Machine
end

section
/-! Reset (70_reset_and_hazards.md R210; O46) and reset in the middle of a command (R211; O47): the registers take their reset
values, and of the destination the elements that have landed are new. -/

namespace Sys2Proof.Machine

/-! ### A step that resets -/

section
variable {s : State} {c : Nat} {w : Word} {landed : List Nat} {ov : List Access} {rest : List Event}

theorem step_reset (h : s.pending = ⟨.reset, ov⟩ :: rest) :
    step s = .next (s.takeEvent ⟨.reset, ov⟩ rest).resetRegs := by
  simp only [step, h, perform]

theorem step_resetDuring (h : s.pending = ⟨.resetDuring c w landed, ov⟩ :: rest) (hc : c < s.ctxs.length) :
    step s = abandon w landed ((s.takeEvent ⟨.resetDuring c w landed, ov⟩ rest).withIssuer c) := by
  simp only [step, h, perform]
  exact if_pos hc

end

/-- Settles O46: the step is `State.resetRegs`, after which every context is `Context.reset` of the parameter. -/
theorem resetClearsRegisters : Obligations.ResetClearsRegisters := by
  unfold Obligations.ResetClearsRegisters
  intro s ov rest hp
  refine ⟨_, step_reset hp, rfl, rfl, rfl, List.length_replicate, fun c => ?_⟩
  rw [State.resetRegs_ctx]
  exact ⟨rfl, rfl, rfl, rfl, rfl, rfl, rfl, rfl, rfl, rfl⟩

/-! ### A command that a reset abandons -/

section
variable {w : Word} {landed : List Nat} {s : State}

/-- A reserved word starts no command that a reset could abandon (30_encoding.md R85). -/
theorem abandon_reserved {e : Reserved} (h : decode w = .error e) : abandon w landed s = .next s.resetRegs := by
  rw [abandon, h]

/-- An abandoned `CVTS` that had its registers to itself has written nothing (log entry 27). -/
theorem abandon_cvts (h : decode w = .ok .cvts) (hreg : registerFault s = none) :
    abandon w landed s = .next s.resetRegs := by
  simp only [abandon, h, faultOf, hreg, Option.none_or, jobOf]

/-- An abandoned memory command that kept its contract has written the elements that landed. -/
theorem abandon_memory {i : Instr} {j : Job} (h : decode w = .ok i) (hpre : Pre i s) (hj : jobOf i s = some j) :
    abandon w landed s = .next (s.withMem (landElements j landed s.mem)).resetRegs := by
  have hf : faultOf i s = none := (faultOf_none_iff i s).mpr hpre
  have hreg : registerFault s = none := Job.stable_registers (contract_of_faultOf hj hf).2.2
  simp only [abandon, h, hf, hreg, Option.none_or, hj]

end

/-- Reset gives every context what the state after reset gives it. -/
theorem State.resetRegs_ctx_eq_resetWith (s : State) (m : Memory) (c : Nat) :
    s.resetRegs.ctx c = (State.resetWith s.cfg m).ctx c :=
  (State.resetRegs_ctx s c).trans (State.resetRegs_ctx (State.resetWith s.cfg m) c).symm

/-- A destination element that is not converted reads as it did at the start: those that are share no byte with it. -/
theorem Converted.unchanged {j : Job} {m0 m : Memory} {S : Nat → Nat → Prop} (h : Converted j m0 m S) {c f : Nat}
    (hc : c < j.chans) (hS : ¬ S c f) : m.readHalf j.order (j.dst c f) = m0.readHalf j.order (j.dst c f) := by
  have hbyte : ∀ a, j.dst c f ≤ a → a ≤ j.dst c f + 1 → m.read a = m0.read a := by
    refine fun a hlo hhi => h.rest a (fun c' f' hc' _ hS' => ?_)
    have hapart := Job.dst_apart (f := f) (f' := f') hc hc' (by rintro ⟨rfl, rfl⟩; exact hS hS')
    omega
  exact Memory.readHalf_congr _ (hbyte _ le_rfl (Nat.le_succ _)) (hbyte _ (Nat.le_succ _) le_rfl)

/-- Settles O47: `abandon` resets the registers, and `landElements_converted` says which elements of the destination are new. -/
theorem resetDuringCommand : Obligations.ResetDuringCommand := by
  unfold Obligations.ResetDuringCommand
  intro s c w landed ov rest hinv hp hc
  have hstep := step_resetDuring hp hc
  refine ⟨fun hw => ?noBuffer, fun i j hdec hpre hj => ?memory⟩
  case noBuffer =>
    have habandon : step s = .next ((s.takeEvent ⟨.resetDuring c w landed, ov⟩ rest).withIssuer c).resetRegs := by
      rw [hstep]
      rcases hw with ⟨e, hdec⟩ | ⟨hdec, halone⟩
      · exact abandon_reserved hdec
      · exact abandon_cvts hdec ((registerFault_none_iff _).mpr halone)
    exact ⟨_, habandon, State.resetRegs_ctx_eq_resetWith _ _, rfl, rfl, rfl⟩
  case memory =>
    have hconv := landElements_converted hinv.1 (j := j) landed
    refine ⟨_, hstep.trans (abandon_memory hdec hpre hj), State.resetRegs_ctx_eq_resetWith _ _, rfl, rfl,
      fun ch hch f hf => ?element, fun a ha => hconv.outside (Job.destSpan_outside ha)⟩
    case element =>
      have horder : j.order = s.cfg.byteOrder := (jobOf_order hj).trans rfl
      rw [← horder]
      split
      case isTrue hlanded => exact hconv.done ch f hch hf hlanded
      case isFalse hlost => exact hconv.unchanged hch hlost

end Sys2Proof.Machine
end
